-- ==== Sys2Proof/Word.lean ====
section
/-! DEFINITION. The word types of the CDB: the 8-bit byte of every memory cell, the 32-bit width `AW` of
positions and lengths, and the 16-bit width of picture sizes and hardware addresses (00_scope.md P1, 10_state.md
R22, R23). The CDB has no signed quantity (00_scope.md R6). -/

namespace Sys2Proof

/-- One memory cell, one packet byte, one command code. -/
abbrev Byte := BitVec 8

/-- A register of width `AW` = 32 (00_scope.md P1). -/
abbrev Word := BitVec 32

/-- A 16-bit register (10_state.md R23). -/
abbrev Half := BitVec 16

end Sys2Proof
end

