-- ==== Sys2Proof/Config.lean ====
section
/-! DEFINITION. What is fixed for one CDB and what the spec leaves open: the three memory spaces and their names,
the OPEN parameters of 00_scope.md section 5, and the two free values. A free value is an opaque constant: nothing
in Lean can evaluate it, so whatever is proved holds for every value of it. -/

namespace Sys2Proof

/-- The three disjoint memory spaces (20_memory.md R70, 10_state.md R29 to R32). -/
inductive Space where
  | src
  | dst
  | pal
deriving DecidableEq, Repr

/-- The OPEN parameters of a CDB (00_scope.md P2, P3, P6): the model holds them in `State.params` and no step
changes them (60_exceptions.md R262), so a statement about every state holds for every value of them. -/
structure Params where
  /-- `SRC_CAP`: the number of byte cells of `SRC`. -/
  srcCap : Nat
  /-- `DST_LEN`: the number of byte cells of `DST`. -/
  dstLen : Nat
  /-- `ZERO_COUNT`: the run length a count field of zero stands for. -/
  zeroCount : Nat
deriving DecidableEq, Repr

namespace Config

/-- DESIGN CHOICE (log 2): `SRC_CAP` = `DST_LEN` = 65536 in `State.reset`, the size the spec's test vectors ask for
(95_test_vectors.md, "at least 65536"). `ZERO_COUNT` = 0 is the spec's own default (00_scope.md P6, log 3). -/
def resetParams : Params := ⟨65536, 65536, 0⟩

/-- `PAL_SLOTS` (00_scope.md P4). -/
def palSlots : Nat := 256

/-- Free value (log 4): what a cell that nothing has written reads as. "The contents of `SRC`, `DST` and `PALRAM`
after power-on are unspecified (a model treats every cell as an arbitrary byte ...)" (10_state.md R34). -/
opaque powerOnByte : Space → Nat → Byte

/-- Free value (log 6): the byte of `DST` cell `a` after the `n`-th mid-stream `STRUCT` fault. "each cell holds
either its old value or some byte; a model treats it as an arbitrary draw" (60_exceptions.md R256). -/
opaque freeByte (n a : Nat) : Byte

end Config

end Sys2Proof
end

