-- ==== Sys2Proof/Machine/State.lean ====
section
/-! DEFINITION. The state of the CDB as plain data (10_state.md R20): the registers of R22, R23 and R27, the three
memory spaces, and the private variables a run-length command has while it runs (R33); beside them the parameters
of the machine and the model's own fields, each with its log entry. -/

namespace Sys2Proof.Machine

/-- The fault kinds of 60_exceptions.md R250. `semantic` is in the list and is never raised. -/
inductive ErrKind where
  | read
  | struct
  | semantic
  | resource
  | illegal
deriving DecidableEq, Repr

/-- A memory space: address and byte pairs, addresses strictly rising. An address that is not listed has never
been written and reads as the free value `Config.powerOnByte` (log 4). -/
abbrev Memory := List Host.Cell

/-- The registers of 10_state.md R22, R23, R27. `CMD` is write-only and reads as 0, so it has no field (log 9).
Bits above a register's width do not exist (R23). -/
structure Regs where
  /-- 0x01 `ERR`, RO. -/
  err : BitVec 3
  /-- 0x02 `POS`. -/
  pos : Word
  /-- 0x03 `SLEN`. -/
  slen : Word
  /-- 0x04 `VAL`, RO. -/
  val : Word
  /-- 0x05 `PLEN`. -/
  plen : Word
  /-- 0x06 `OLEN`. -/
  olen : Word
  /-- 0x07 `MLEN`, RO. -/
  mlen : Word
  /-- 0x08 `OCNT`, RO. -/
  ocnt : Word
  /-- 0x09 `KEY1`. -/
  key1 : Byte
  /-- 0x0A `KEY2`. -/
  key2 : Byte
  /-- 0x0B `ESC`. -/
  esc : Byte
  /-- 0x0C `RLECTL`, bit 0 `ORDER`. -/
  rlectl : BitVec 1
  /-- 0x0D `BPLCTL`: `NP` 3:0, `BITORD` 4, `PLORD` 5. -/
  bplctl : BitVec 6
  /-- 0x0E `WIDTH`. -/
  width : Half
  /-- 0x0F `HEIGHT`. -/
  height : Half
  /-- 0x10 `LINEBITS`. -/
  linebits : Word
  /-- 0x11 .. 0x18 `PLB0` .. `PLB7`. -/
  plb : Vector Word 8
  /-- 0x19 `BASE`. -/
  base : Half
  /-- 0x1A `COLUMNS`. -/
  columns : Half
  /-- 0x1B `Y`. -/
  y : Half
  /-- 0x1C `ORG`. -/
  org : Half
  /-- 0x1D `ADDR`, RO. -/
  addr : Half
  /-- 0x1E `PSTART`. -/
  pstart : Byte
  /-- 0x1F `PCNT`. -/
  pcnt : BitVec 9
deriving DecidableEq, Repr

/-- Every register at its reset value, 0 (10_state.md R34). -/
def Regs.zero : Regs :=
  ⟨0, 0, 0, 0, 0, 0, 0, 0, 0, 0, 0, 0, 0, 0, 0, 0, #v[0, 0, 0, 0, 0, 0, 0, 0], 0, 0, 0, 0, 0, 0, 0⟩

/-- The private variables of a run-length command while it runs (10_state.md R24, R33): the stream pointer `p`, and
the output index `o` (42_rle_a_byte_word.md R170, 43_rle_b_two_dialect.md R192) or the running length `len`
(R191). Between commands there is none. -/
inductive Job where
  | rla (p o : Nat)
  | rlbMeasure (p len : Nat)
  | rlbFill (p o : Nat)
deriving DecidableEq, Repr

/-- One access of the host (46_system.md R243, 20_memory.md R70): of a register by its number, or of a memory
cell. The value written to a register is a natural; the register keeps its low bits. -/
inductive HostAccess where
  | writeReg (n : BitVec 8) (v : Nat)
  | readReg (n : BitVec 8)
  | writeCell (sp : Space) (a : Nat) (b : Byte)
  | readCell (sp : Space) (a : Nat)
deriving DecidableEq, Repr

structure State where
  /-- The OPEN parameters of this CDB; no step changes them. -/
  params : Params
  regs : Regs
  src : Memory
  dst : Memory
  pal : Memory
  /-- The run-length command that is running, if one is. -/
  job : Option Job
  /-- The model's own: the host's accesses still to come, the next one first (log 1). -/
  inbox : List HostAccess
  /-- The model's own: what the last host read returned (log 7). -/
  reply : Option Word
  /-- The model's own: the number of the next free draw of unspecified `DST` bytes (log 6). -/
  draws : Nat
deriving DecidableEq, Repr

/-- Why the model stops. None of these is a fault of the CDB: the spec's faults are `raise K`, a next state with
`ERR` = K (60_exceptions.md R256). -/
inductive Fault where
  /-- Raised by the commands and packets that read `SRC`, when a read is not legal by 20_memory.md R78. Safe: no
  state that meets the invariant reaches it (log 8). -/
  | srcOutOfRange
  /-- Raised by the commands and packets that write `DST`, when a write is not legal by 20_memory.md R79. Safe: no
  state that meets the invariant reaches it (log 8). -/
  | dstOutOfRange
  /-- Raised by PAL68 and PAL86, when an access leaves the 768 cells of `PALRAM`. Safe: never reached (log 8). -/
  | palOutOfRange
  /-- Raised by a host access of a memory cell that does not exist (20_memory.md R70). Safe: the spec gives such an
  access no effect (log 10). -/
  | noSuchCell
deriving DecidableEq, Repr

/-- Why an instruction has no meaning in a state. -/
inductive Refusal where
  /-- Raised by the dispatch for an instruction that has no meaning yet. Safe. -/
  | notModelled (mnemonic : String)
  /-- Raised by a packet while its decoder is not running: the spec gives a packet a meaning only inside the command
  that fetches it (00_scope.md R5). Safe: no fetch reaches it (log 5). -/
  | packetOutsideDecoder
deriving DecidableEq, Repr

abbrev Result := Host.Outcome State Fault Refusal

/-- Right after power-on (10_state.md R34): every register 0, nothing written to any memory, no command running. The
parameters are log 2's and log 3's; `inbox`, `reply` and `draws` are the model's own (logs 1, 7, 6). -/
def State.reset : State :=
  { params := Config.resetParams, regs := Regs.zero, src := [], dst := [], pal := [],
    job := none, inbox := [], reply := none, draws := 0 }

end Sys2Proof.Machine
end

