-- ==== Sys2Proof/Machine/Flags.lean ====
section
/-! DEFINITION. The one status flag, `ERR` (10_state.md R27): the code of each fault kind, and the short-circuit that
every command but NOP, RESET and CLRERR obeys (60_exceptions.md R257). No command writes a flag otherwise. -/

namespace Sys2Proof.Machine

/-- The value `raise K` writes to `ERR` (10_state.md R27, 60_exceptions.md R250). -/
def ErrKind.code : ErrKind → BitVec 3
  | .read => 1
  | .struct => 2
  | .semantic => 3
  | .resource => 4
  | .illegal => 5

/-- Short-circuit (60_exceptions.md R257): while `ERR` is not 0 the command is skipped and nothing changes. -/
def whenClear (s : State) (body : Result) : Result :=
  if s.regs.err = 0 then body else .next s

end Sys2Proof.Machine
end

