-- ==== Sys2Proof/Machine/Ops.lean ====
section
/-! DEFINITION. The shared operations: memory (one block write and one lookup, on the canonical form), the checked
reads and writes of the three spaces, taking a fault and returning from one, and the range checks that stand in the
commands' prologues. -/

namespace Sys2Proof.Machine

/-! ## Memory -/

/-- The canonical form: addresses strictly rising. What an unlisted address reads as is no stored byte at all, so no
entry can equal it. -/
abbrev Memory.wf (m : Memory) : Prop := m.Pairwise (fun x y => x.1 < y.1)

/-- The byte stored at `a`, if one ever was. -/
def Memory.lookup : Memory → Nat → Option Byte
  | [], _ => none
  | c :: rest, a => if c.1 = a then some c.2 else Memory.lookup rest a

/-- The bytes `bs` as cells from address `a` upward. -/
def blockCells : Nat → List Byte → List Host.Cell
  | _, [] => []
  | a, b :: bs => (a, b) :: blockCells (a + 1) bs

/-- Write `bs` to the cells `a .. a + bs.length - 1` (`MemWrite` of 00_scope.md R7). -/
def Memory.writeBlock (m : Memory) (a : Nat) (bs : List Byte) : Memory :=
  m.filter (fun c => c.1 < a) ++ (blockCells a bs ++ m.filter (fun c => a + bs.length ≤ c.1))

def State.mem (s : State) : Space → Memory
  | .src => s.src
  | .dst => s.dst
  | .pal => s.pal

def State.setMem (s : State) (sp : Space) (m : Memory) : State :=
  match sp with
  | .src => { s with src := m }
  | .dst => { s with dst := m }
  | .pal => { s with pal := m }

/-- How many cells a space has (20_memory.md R70). -/
def State.spaceSize (s : State) : Space → Nat
  | .src => s.params.srcCap
  | .dst => s.params.dstLen
  | .pal => 3 * Config.palSlots

/-- What cell `a` of a space holds: the byte last written, or the free value of a cell nothing has written. Reading
changes nothing (20_memory.md R68). -/
def State.cell (s : State) (sp : Space) (a : Nat) : Byte :=
  ((s.mem sp).lookup a).getD (Config.powerOnByte sp a)

/-- Cells `a .. a + n - 1` of a space, in increasing index order. -/
def State.cells (s : State) (sp : Space) (a n : Nat) : List Byte :=
  (List.range n).map (fun j => s.cell sp (a + j))

/-- `MemRead(SRC:a, n)`, legal only inside the stream: `a + n <= SLEN` and `SLEN <= SRC_CAP` (20_memory.md R78,
00_scope.md R7). -/
def State.readSrc (s : State) (a n : Nat) : Option (List Byte) :=
  if n = 0 ∨ (a + n ≤ s.regs.slen.toNat ∧ s.regs.slen.toNat ≤ s.params.srcCap) then some (s.cells .src a n) else none

/-- `MemWrite(DST:a, n, v)`, legal only if `a + n <= DST_LEN` (20_memory.md R79). -/
def State.writeDst (s : State) (a : Nat) (bs : List Byte) : Option State :=
  if bs.length = 0 ∨ a + bs.length ≤ s.params.dstLen then some { s with dst := s.dst.writeBlock a bs } else none

/-- `PALRAM[a .. a + n)`, inside the 768 cells (10_state.md R30). -/
def State.readPal (s : State) (a n : Nat) : Option (List Byte) :=
  if n = 0 ∨ a + n ≤ 3 * Config.palSlots then some (s.cells .pal a n) else none

/-- `PALRAM[a ..] <- bs`, inside the 768 cells. -/
def State.writePal (s : State) (a : Nat) (bs : List Byte) : Option State :=
  if bs.length = 0 ∨ a + bs.length ≤ 3 * Config.palSlots then some { s with pal := s.pal.writeBlock a bs } else none

/-- All of them, if every one is there. -/
def allSome {α : Type} : List (Option α) → Option (List α)
  | [] => some []
  | none :: _ => none
  | some x :: rest => (allSome rest).map (x :: ·)

/-! ## Taking a fault and returning from one -/

/-- `raise K` (60_exceptions.md R256): `ERR <- K`, the command stops, every other register and every memory keeps its
value. -/
def raise (k : ErrKind) (s : State) : Result :=
  .next { s with regs := { s.regs with err := k.code }, job := none }

/-- `DST[0 .. OLEN)` unspecified (60_exceptions.md R256): every cell of it an arbitrary draw, cells at `OLEN` and above
unchanged (log 6). -/
def smearDst (s : State) : State :=
  { s with
    dst := s.dst.writeBlock 0
      ((List.range (min s.regs.olen.toNat s.params.dstLen)).map (Config.freeByte s.draws)),
    draws := s.draws + 1 }

/-- `raise STRUCT` from inside a run-length command (60_exceptions.md R256): RLEA and RLEBF leave `DST[0 .. OLEN)`
unspecified, RLEBM never writes `DST`. -/
def raiseStruct (s : State) : Result :=
  match s.job with
  | some (.rla _ _) => raise .struct (smearDst s)
  | some (.rlbFill _ _) => raise .struct (smearDst s)
  | some (.rlbMeasure _ _) => raise .struct s
  | none => raise .struct s

/-- The return from a fault (60_exceptions.md R261): `ERR <- 0`, nothing else, because nothing was saved. -/
def returnFromFault (s : State) : State :=
  { s with regs := { s.regs with err := 0 } }

/-! ## Range checks of the prologues -/

/-- `if SLEN > SRC_CAP: raise ILLEGAL`, which stands in every command that reads `SRC` (60_exceptions.md R254). -/
def checkSlen (s : State) (body : Result) : Result :=
  if s.params.srcCap < s.regs.slen.toNat then raise .illegal s else body

/-- `if POS + n > SLEN: raise READ` (40_binary_reader.md R131, 42_rle_a_byte_word.md R168,
43_rle_b_two_dialect.md R188). The sum is over the naturals. -/
def checkStream (s : State) (n : Nat) (body : Result) : Result :=
  if s.regs.slen.toNat < s.regs.pos.toNat + n then raise .read s else body

/-- `if n > DST_LEN: raise RESOURCE` (60_exceptions.md R253). -/
def checkDst (s : State) (n : Nat) (body : Result) : Result :=
  if s.params.dstLen < n then raise .resource s else body

end Sys2Proof.Machine
end

