-- ==== Sys2Proof/Syntax.lean ====
section
/-! DEFINITION. The instructions: one constructor per row of spec/opcode_table.json. The first seventeen are the
host commands (level H: no operand field, 30_encoding.md R90); the last five are the stream packets (level S,
00_scope.md R5) with the operands their formats carry (30_encoding.md R95 to R97, R101, R102). -/

namespace Sys2Proof

inductive Instr where
  | nop
  | reset
  | clrerr
  | rd8
  | rd16le
  | rd16be
  | rd32le
  | rd32be
  | rdbuf
  | pal68
  | pal86
  | rlea
  | rlebm
  | rlebf
  | bplx
  | adrmap
  | adrgat
  /-- `RUN8 c, n`, format A3. -/
  | run8 (c : Byte) (n : Byte)
  /-- `RUN16 c, n`, format A4. -/
  | run16 (c : Byte) (n : Half)
  /-- `RAW c`, format A1. -/
  | raw (c : Byte)
  /-- `RUNB v, n`, format B3. -/
  | runb (v : Byte) (n : Byte)
  /-- `LIT v`, format B1. -/
  | lit (v : Byte)
deriving DecidableEq, Repr

end Sys2Proof
end

