-- ==== Sys2Proof/WellFormed.lean ====
section
/-! DEFINITION. Which instructions can be written down. A packet's encoding is relative to run-time registers
(30_encoding.md R94, R100), so well-formedness is too: `RAW c` "may not be assembled when `c = KEY1` or `c = KEY2`,
nor `LIT v` when `v = ESC`" (R112), and format A4 cannot occur when `KEY1 = KEY2` (R94, R97). -/

namespace Sys2Proof

/-- The registers that packet encodings are relative to: `KEY1`, `KEY2`, `ESC` and `RLECTL.ORDER`. -/
structure StreamKeys where
  key1 : Byte
  key2 : Byte
  esc : Byte
  order : BitVec 1
deriving DecidableEq, Repr

def Instr.wellFormed (k : StreamKeys) : Instr → Bool
  | .raw c => c != k.key1 && c != k.key2
  | .run16 _ _ => k.key2 != k.key1
  | .lit v => v != k.esc
  | .run8 _ _ => true
  | .runb _ _ => true
  | .nop | .reset | .clrerr | .rd8 | .rd16le | .rd16be | .rd32le | .rd32be | .rdbuf | .pal68 | .pal86
  | .rlea | .rlebm | .rlebf | .bplx | .adrmap | .adrgat => true

end Sys2Proof
end

