-- ==== Sys2Proof/Machine/Operands.lean ====
section
/-! DEFINITION. Operand forms. Host commands have no operand field: their operands are registers (30_encoding.md R90),
read here by field, and by number on the host interface (46_system.md R243). The addressing modes of 20_memory.md R80
stand here too. -/

namespace Sys2Proof.Machine

/-! ## Registers by number -/

/-- Who may access a register (10_state.md R22, R23). -/
inductive Access where
  | readOnly
  | readWrite
  | writeOnly
  | reserved
deriving DecidableEq, Repr

/-- The "host access" column of 10_state.md R22, R23, R27. -/
def regAccess (n : BitVec 8) : Access :=
  if n = 0x00 then .writeOnly
  else if n = 0x01 ∨ n = 0x04 ∨ n = 0x07 ∨ n = 0x08 ∨ n = 0x1D then .readOnly
  else if n.toNat < 0x20 then .readWrite
  else .reserved

/-- The "width" column of 10_state.md R22, R23, R27; a reserved number has none. -/
def regWidth (n : BitVec 8) : Nat :=
  match n.toNat with
  | 0x00 => 8 | 0x01 => 3
  | 0x02 => 32 | 0x03 => 32 | 0x04 => 32 | 0x05 => 32 | 0x06 => 32 | 0x07 => 32 | 0x08 => 32
  | 0x09 => 8 | 0x0A => 8 | 0x0B => 8 | 0x0C => 1 | 0x0D => 6 | 0x0E => 16 | 0x0F => 16 | 0x10 => 32
  | 0x11 => 32 | 0x12 => 32 | 0x13 => 32 | 0x14 => 32 | 0x15 => 32 | 0x16 => 32 | 0x17 => 32 | 0x18 => 32
  | 0x19 => 16 | 0x1A => 16 | 0x1B => 16 | 0x1C => 16 | 0x1D => 16 | 0x1E => 8 | 0x1F => 9
  | _ => 0

/-- What a host read of register `n` returns, zero-extended (46_system.md R243): `CMD` and the reserved numbers read
as 0. -/
def readReg (r : Regs) (n : BitVec 8) : Word :=
  match n.toNat with
  | 0x01 => r.err.setWidth 32
  | 0x02 => r.pos
  | 0x03 => r.slen
  | 0x04 => r.val
  | 0x05 => r.plen
  | 0x06 => r.olen
  | 0x07 => r.mlen
  | 0x08 => r.ocnt
  | 0x09 => r.key1.setWidth 32
  | 0x0A => r.key2.setWidth 32
  | 0x0B => r.esc.setWidth 32
  | 0x0C => r.rlectl.setWidth 32
  | 0x0D => r.bplctl.setWidth 32
  | 0x0E => r.width.setWidth 32
  | 0x0F => r.height.setWidth 32
  | 0x10 => r.linebits
  | 0x11 => r.plb[0]
  | 0x12 => r.plb[1]
  | 0x13 => r.plb[2]
  | 0x14 => r.plb[3]
  | 0x15 => r.plb[4]
  | 0x16 => r.plb[5]
  | 0x17 => r.plb[6]
  | 0x18 => r.plb[7]
  | 0x19 => r.base.setWidth 32
  | 0x1A => r.columns.setWidth 32
  | 0x1B => r.y.setWidth 32
  | 0x1C => r.org.setWidth 32
  | 0x1D => r.addr.setWidth 32
  | 0x1E => r.pstart.setWidth 32
  | 0x1F => r.pcnt.setWidth 32
  | _ => 0

/-- What a host write of `v` to register `n` stores (46_system.md R243): the low `width` bits; nothing for a read-only
or reserved number. A write to `CMD` stores nothing either: it issues a command (30_encoding.md R92), and the step
treats it before this is called. -/
def writeReg (r : Regs) (n : BitVec 8) (v : Nat) : Regs :=
  match n.toNat with
  | 0x02 => { r with pos := BitVec.ofNat 32 v }
  | 0x03 => { r with slen := BitVec.ofNat 32 v }
  | 0x05 => { r with plen := BitVec.ofNat 32 v }
  | 0x06 => { r with olen := BitVec.ofNat 32 v }
  | 0x09 => { r with key1 := BitVec.ofNat 8 v }
  | 0x0A => { r with key2 := BitVec.ofNat 8 v }
  | 0x0B => { r with esc := BitVec.ofNat 8 v }
  | 0x0C => { r with rlectl := BitVec.ofNat 1 v }
  | 0x0D => { r with bplctl := BitVec.ofNat 6 v }
  | 0x0E => { r with width := BitVec.ofNat 16 v }
  | 0x0F => { r with height := BitVec.ofNat 16 v }
  | 0x10 => { r with linebits := BitVec.ofNat 32 v }
  | 0x11 => { r with plb := r.plb.set 0 (BitVec.ofNat 32 v) }
  | 0x12 => { r with plb := r.plb.set 1 (BitVec.ofNat 32 v) }
  | 0x13 => { r with plb := r.plb.set 2 (BitVec.ofNat 32 v) }
  | 0x14 => { r with plb := r.plb.set 3 (BitVec.ofNat 32 v) }
  | 0x15 => { r with plb := r.plb.set 4 (BitVec.ofNat 32 v) }
  | 0x16 => { r with plb := r.plb.set 5 (BitVec.ofNat 32 v) }
  | 0x17 => { r with plb := r.plb.set 6 (BitVec.ofNat 32 v) }
  | 0x18 => { r with plb := r.plb.set 7 (BitVec.ofNat 32 v) }
  | 0x19 => { r with base := BitVec.ofNat 16 v }
  | 0x1A => { r with columns := BitVec.ofNat 16 v }
  | 0x1B => { r with y := BitVec.ofNat 16 v }
  | 0x1C => { r with org := BitVec.ofNat 16 v }
  | 0x1E => { r with pstart := BitVec.ofNat 8 v }
  | 0x1F => { r with pcnt := BitVec.ofNat 9 v }
  | _ => r

/-! ## Register fields and addressing modes -/

/-- `BPLCTL.NP`, bits 3:0. -/
def Regs.np (r : Regs) : Nat := (r.bplctl.extractLsb' 0 4).toNat

/-- `BPLCTL.BITORD`, bit 4. -/
def Regs.bitord (r : Regs) : Bool := r.bplctl.getLsbD 4

/-- `BPLCTL.PLORD`, bit 5. -/
def Regs.plord (r : Regs) : Bool := r.bplctl.getLsbD 5

/-- `PLBp` for `p` in 0 .. 7. -/
def Regs.planeBase (r : Regs) (p : Nat) : Nat := (r.plb[p]?.getD 0).toNat

/-- The registers packet encodings are relative to (30_encoding.md R94, R100). -/
def Regs.keys (r : Regs) : StreamKeys := ⟨r.key1, r.key2, r.esc, r.rlectl⟩

/-- `end = POS + PLEN`, the end of the packed window (42_rle_a_byte_word.md R170, 43_rle_b_two_dialect.md R189). -/
def State.windowEnd (s : State) : Nat := s.regs.pos.toNat + s.regs.plen.toNat

/-- The run length a count field denotes (parameter P6 of 00_scope.md). -/
def State.runLength (s : State) (n : Nat) : Nat := if n = 0 then s.params.zeroCount else n

/-- Bit offset `k` of plane `p` (mode "plane base + bit offset" of 20_memory.md R80, 44_bitplane_unpacker.md R207). -/
def State.planeBit (s : State) (p k : Nat) : Option Nat :=
  match s.readSrc (s.regs.planeBase p + (k >>> 3)) 1 with
  | some [b] =>
    let shift := if s.regs.bitord then k &&& 7 else 7 - (k &&& 7)
    some ((b.toNat >>> shift) &&& 1)
  | _ => none

/-- The pixel bit plane `p` of `np` supplies, `w(p)` of 44_bitplane_unpacker.md R208. -/
def Regs.planeWeight (r : Regs) (np p : Nat) : Nat := if r.plord then np - 1 - p else p

/-- The scramble function `A(base, columns, y)` of 45_address_descrambler.md R221, in its three steps. -/
def scramble (base columns y : Nat) : Nat :=
  let t := base + (y >>> 3) * columns
  let u := (t &&& 0xC7FF) ||| ((t &&& 0x800) <<< 3)
  u + ((y &&& 7) <<< 11)

end Sys2Proof.Machine
end

