-- ==== Sys2Proof/Machine/BinaryReader.lean ====
section
/-! DEFINITION. The binary input reader BIR (40_binary_reader.md): five integer reads and the buffer read, each over
one prologue (R131), all or nothing. -/

namespace Sys2Proof.Machine

/-- Little-endian: the byte at the lowest position is the least significant (20_memory.md R61). -/
def leValue : List Byte → Nat
  | [] => 0
  | b :: bs => b.toNat + 256 * leValue bs

/-- Big-endian: the byte at the lowest position is the most significant (20_memory.md R61). -/
def beValue (bs : List Byte) : Nat := leValue bs.reverse

/-- The prologue of R131 and the body of R132 for an `n`-byte read whose bytes `value` assembles. -/
def readInteger (n : Nat) (value : List Byte → Nat) (s : State) : Result :=
  whenClear s <| checkSlen s <| checkStream s n <|
    match s.readSrc s.regs.pos.toNat n with
    | none => .fault .srcOutOfRange
    | some bs =>
      .next { s with regs := { s.regs with
        val := BitVec.ofNat 32 (value bs), pos := BitVec.ofNat 32 (s.regs.pos.toNat + n) } }

/-- `RD8` (R133). -/
def execRd8 (s : State) : Result := readInteger 1 leValue s

/-- `RD16LE` (R134). -/
def execRd16le (s : State) : Result := readInteger 2 leValue s

/-- `RD16BE` (R135). -/
def execRd16be (s : State) : Result := readInteger 2 beValue s

/-- `RD32LE` (R136). -/
def execRd32le (s : State) : Result := readInteger 4 leValue s

/-- `RD32BE` (R137). -/
def execRd32be (s : State) : Result := readInteger 4 beValue s

/-- `RDBUF` (R138): `OLEN` stream bytes from `POS` to `DST[0 .. OLEN)`. -/
def execRdbuf (s : State) : Result :=
  let n := s.regs.olen.toNat
  whenClear s <| checkSlen s <| checkStream s n <| checkDst s n <|
    match s.readSrc s.regs.pos.toNat n with
    | none => .fault .srcOutOfRange
    | some bs =>
      match s.writeDst 0 bs with
      | none => .fault .dstOutOfRange
      | some t =>
        .next { t with regs := { t.regs with
          ocnt := s.regs.olen, pos := BitVec.ofNat 32 (s.regs.pos.toNat + n) } }

end Sys2Proof.Machine
end

