-- ==== Sys2Proof/Machine/BitPlane.lean ====
section
/-! DEFINITION. The bit-plane unpacker BPL (44_bitplane_unpacker.md). -/

namespace Sys2Proof.Machine

/-- `PIX(xp, y)` (R208): the sum over the planes of one bit each, all at the same bit offset. -/
def State.pixel (s : State) (xp y : Nat) : Option Nat :=
  let k := y * s.regs.linebits.toNat + xp
  (allSome ((List.range s.regs.np).map (fun p =>
    (s.planeBit p k).map (· <<< s.regs.planeWeight s.regs.np p)))).map List.sum

/-- The output bytes in row-major order (R210). -/
def State.pixels (s : State) : Option (List Byte) :=
  allSome ((List.range s.regs.height.toNat).flatMap (fun y =>
    (List.range s.regs.width.toNat).map (fun xp => (s.pixel xp y).map (BitVec.ofNat 8))))

/-- `NP_SET` (00_scope.md P5, R205). -/
def legalPlanes (np : Nat) : Bool := np == 1 || np == 2 || np == 4 || np == 8

/-- `kmax`, the largest bit offset used (R209); meaningful when `WIDTH` and `HEIGHT` are positive. -/
def Regs.lastBit (r : Regs) : Nat := (r.height.toNat - 1) * r.linebits.toNat + (r.width.toNat - 1)

/-- The `READ` condition of R209: some used plane's last needed byte is not in the stream. -/
def Regs.planesShort (r : Regs) : Bool :=
  decide (0 < r.width.toNat) && decide (0 < r.height.toNat) &&
    (List.range r.np).any (fun p => decide (r.slen.toNat < r.planeBase p + (r.lastBit >>> 3) + 1))

/-- `BPLX` (R209, R210). -/
def execBplx (s : State) : Result :=
  let n := s.regs.width.toNat * s.regs.height.toNat
  whenClear s <|
    if legalPlanes s.regs.np then
      checkSlen s <|
        if s.regs.planesShort then raise .read s
        else checkDst s n <|
          match s.pixels with
          | none => .fault .srcOutOfRange
          | some bs =>
            match s.writeDst 0 bs with
            | none => .fault .dstOutOfRange
            | some t => .next { t with regs := { t.regs with ocnt := BitVec.ofNat 32 n } }
    else raise .illegal s

end Sys2Proof.Machine
end

