-- ==== Sys2Proof/Machine/Descrambler.lean ====
section
/-! DEFINITION. The hardware address descrambler ADR (45_address_descrambler.md). -/

namespace Sys2Proof.Machine

/-- `ADRMAP` (R224). `A` is below 65536 for all inputs (R222). -/
def execAdrmap (s : State) : Result :=
  whenClear s <|
    .next { s with regs := { s.regs with
      addr := BitVec.ofNat 16 (scramble s.regs.base.toNat s.regs.columns.toNat s.regs.y.toNat) } }

/-- The hardware address of scanline `y`. -/
def Regs.lineAddr (r : Regs) (y : Nat) : Nat := scramble r.base.toNat r.columns.toNat y

/-- The `READ` condition of R227: some scanline lies below `ORG` or leaves the stream. -/
def Regs.linesOutside (r : Regs) : Bool :=
  decide (0 < r.columns.toNat) &&
    (List.range r.height.toNat).any (fun y =>
      decide (r.lineAddr y < r.org.toNat) ||
        decide (r.slen.toNat < r.lineAddr y - r.org.toNat + r.columns.toNat))

/-- The gathered bytes, scanline after scanline (R225, R228). -/
def State.scanlines (s : State) : Option (List Byte) :=
  (allSome ((List.range s.regs.height.toNat).map (fun y =>
    s.readSrc (s.regs.lineAddr y - s.regs.org.toNat) s.regs.columns.toNat))).map List.flatten

/-- `ADRGAT` (R227, R228). -/
def execAdrgat (s : State) : Result :=
  let n := s.regs.height.toNat * s.regs.columns.toNat
  whenClear s <| checkSlen s <|
    if s.regs.linesOutside then raise .read s
    else checkDst s n <|
      match s.scanlines with
      | none => .fault .srcOutOfRange
      | some bs =>
        match s.writeDst 0 bs with
        | none => .fault .dstOutOfRange
        | some t => .next { t with regs := { t.regs with ocnt := BitVec.ofNat 32 n } }

end Sys2Proof.Machine
end

