-- ==== Sys2Proof/Machine/PaletteScaler.lean ====
section
/-! DEFINITION. The palette scaler PAL (41_palette_scaler.md): the two scaling functions and the two in-place
commands over `PALRAM`. -/

namespace Sys2Proof.Machine

/-- `SCALE68` (R150): the product is formed exactly and the division truncates. -/
def scale68 (v : Nat) : Nat := v * 255 / 63

/-- `SCALE86` (R151). -/
def scale86 (v : Nat) : Nat := v * 63 / 255

/-- Rewrite the cells of slots `[PSTART, PSTART + PCNT)` by `f`, after the range check `PSTART + PCNT > 256` and a
check of the old values (R152, R155). Every cell is read and checked before any is written (10_state.md R32). -/
def scaleSlots (legal : Byte → Bool) (f : Nat → Nat) (s : State) : Result :=
  whenClear s <|
    if Config.palSlots < s.regs.pstart.toNat + s.regs.pcnt.toNat then raise .illegal s
    else
      let lo := 3 * s.regs.pstart.toNat
      match s.readPal lo (3 * s.regs.pcnt.toNat) with
      | none => .fault .palOutOfRange
      | some old =>
        if old.all legal then
          match s.writePal lo (old.map (fun b => BitVec.ofNat 8 (f b.toNat))) with
          | none => .fault .palOutOfRange
          | some t => .next t
        else raise .struct s

/-- `PAL68` (R152): a channel above 63 raises `STRUCT`. -/
def execPal68 (s : State) : Result := scaleSlots (fun b => b.toNat ≤ 63) scale68 s

/-- `PAL86` (R155): every byte is a legal 8-bit input. -/
def execPal86 (s : State) : Result := scaleSlots (fun _ => true) scale86 s

end Sys2Proof.Machine
end

