-- ==== Sys2Proof/Decode.lean ====
section
/-! DEFINITION. The decoder, total on any bytes, and after it the encoder. A command is one byte matched whole
against the table of 30_encoding.md R91; a packet is cut from the front of a byte string by its first byte alone
(R94, R100, R110), and what lies beyond it is returned. -/

namespace Sys2Proof

/-- Why bytes are not an instruction. -/
inductive DecodeError where
  /-- There is no byte at all. -/
  | empty
  /-- A code outside the table of R91 (R93). -/
  | reservedCode
  /-- A packet whose first byte is there and whose last is not (42_rle_a_byte_word.md R172,
  43_rle_b_two_dialect.md R190). -/
  | truncated
deriving DecidableEq, Repr

/-- Which decoder reads the bytes: the command issue, RLA or RLB (the `decoder` column of the opcode table). -/
inductive Decoder where
  | command
  | rla
  | rlb
deriving DecidableEq, Repr

/-- The command codes, 30_encoding.md R91. -/
def commandTable : List (Byte × Instr) :=
  [(0x00, .nop), (0x01, .reset), (0x02, .clrerr),
   (0x10, .rd8), (0x11, .rd16le), (0x12, .rd16be), (0x13, .rd32le), (0x14, .rd32be), (0x15, .rdbuf),
   (0x20, .pal68), (0x21, .pal86),
   (0x30, .rlea),
   (0x40, .rlebm), (0x41, .rlebf),
   (0x50, .bplx),
   (0x60, .adrmap), (0x61, .adrgat)]

/-- A command code, all eight bits compared; every code outside the table is reserved (R91, R93). -/
def decodeCommand (c : Byte) : Except DecodeError Instr :=
  match commandTable.find? (fun row => row.1 == c) with
  | some row => .ok row.2
  | none => .error .reservedCode

/-- The packet of decoder RLA at the front of `bs` (R94 to R97; the count of format A4 is big-endian,
20_memory.md R62). `KEY1` is compared first. -/
def decodeRla (k : StreamKeys) : List Byte → Except DecodeError (Instr × List Byte)
  | [] => .error .empty
  | b0 :: rest =>
    if b0 = k.key1 then
      match rest with
      | c :: n :: rest' => .ok (.run8 c n, rest')
      | _ => .error .truncated
    else if b0 = k.key2 then
      match rest with
      | c :: nh :: nl :: rest' => .ok (.run16 c (nh ++ nl), rest')
      | _ => .error .truncated
    else .ok (.raw b0, rest)

/-- The packet of decoder RLB at the front of `bs` (R100 to R102): `ORDER` = 0 is `(count, value)`, 1 is
`(value, count)`. -/
def decodeRlb (k : StreamKeys) : List Byte → Except DecodeError (Instr × List Byte)
  | [] => .error .empty
  | b0 :: rest =>
    if b0 = k.esc then
      match rest with
      | b1 :: b2 :: rest' => if k.order = 0 then .ok (.runb b2 b1, rest') else .ok (.runb b1 b2, rest')
      | _ => .error .truncated
    else .ok (.lit b0, rest)

/-- Any bytes, read by any decoder. -/
def decode (d : Decoder) (k : StreamKeys) (bs : List Byte) : Except DecodeError (Instr × List Byte) :=
  match d with
  | .command =>
    match bs with
    | [] => .error .empty
    | c :: rest =>
      match decodeCommand c with
      | .ok i => .ok (i, rest)
      | .error e => .error e
  | .rla => decodeRla k bs
  | .rlb => decodeRlb k bs

/-- The decoder that reads an instruction: level H, or the decoder of its packet format. -/
def Instr.decoder : Instr → Decoder
  | .run8 _ _ | .run16 _ _ | .raw _ => .rla
  | .runb _ _ | .lit _ => .rlb
  | .nop | .reset | .clrerr | .rd8 | .rd16le | .rd16be | .rd32le | .rd32be | .rdbuf | .pal68 | .pal86
  | .rlea | .rlebm | .rlebf | .bplx | .adrmap | .adrgat => .command

/-- The bytes of an instruction, in increasing stream position (R91, R95 to R97, R101, R102). -/
def encode (k : StreamKeys) : Instr → List Byte
  | .nop => [0x00]
  | .reset => [0x01]
  | .clrerr => [0x02]
  | .rd8 => [0x10]
  | .rd16le => [0x11]
  | .rd16be => [0x12]
  | .rd32le => [0x13]
  | .rd32be => [0x14]
  | .rdbuf => [0x15]
  | .pal68 => [0x20]
  | .pal86 => [0x21]
  | .rlea => [0x30]
  | .rlebm => [0x40]
  | .rlebf => [0x41]
  | .bplx => [0x50]
  | .adrmap => [0x60]
  | .adrgat => [0x61]
  | .run8 c n => [k.key1, c, n]
  | .run16 c n => [k.key2, c, n.extractLsb' 8 8, n.extractLsb' 0 8]
  | .raw c => [c]
  | .runb v n => if k.order = 0 then [k.esc, n, v] else [k.esc, v, n]
  | .lit v => [v]

/-- How many bytes an instruction has (R90, R110). -/
def Instr.byteLength : Instr → Nat
  | .run8 _ _ => 3
  | .run16 _ _ => 4
  | .raw _ => 1
  | .runb _ _ => 3
  | .lit _ => 1
  | .nop | .reset | .clrerr | .rd8 | .rd16le | .rd16be | .rd32le | .rd32be | .rdbuf | .pal68 | .pal86
  | .rlea | .rlebm | .rlebf | .bplx | .adrmap | .adrgat => 1

/-! The assembler's pseudo-instructions of level S (30_encoding.md R98, R112), each the packets it stands for. -/

/-- `DBL c`: two `RAW c`. -/
def pseudoDbl (c : Byte) : List Instr := [.raw c, .raw c]

/-- `ESCLIT`: a literal equal to the escape byte. -/
def pseudoEscLit (k : StreamKeys) : List Instr := [.runb k.esc 1]

/-- `KEYLIT1`: one pixel of colour `KEY1`. -/
def pseudoKeyLit1 (k : StreamKeys) : List Instr := [.run8 k.key1 1]

/-- `KEYLIT2`: one pixel of colour `KEY2`. -/
def pseudoKeyLit2 (k : StreamKeys) : List Instr := [.run8 k.key2 1]

/-- Byte `j` of a table word: bit 0 of the word is the least significant bit of its first byte. -/
def tableByte (w j : Nat) : Byte := BitVec.ofNat 8 (w >>> (8 * j))

/-- The keys under which a table word of a packet row is that packet (log 11): its first byte is `KEY1` for a
three-byte word and `KEY2`, different from `KEY1`, for a four-byte word. -/
def tableKeys (nbits w : Nat) : StreamKeys :=
  if nbits = 32 then ⟨tableByte w 0 + 1, tableByte w 0, 0, 0⟩ else ⟨tableByte w 0, 0, 0, 0⟩

/-- Which decoder reads a table word of `nbits` bits (log 11): 8 bits are a command, 24 bits a RUN8 and 32 bits a
RUN16. -/
def tableDecoder (nbits : Nat) : Option Decoder :=
  if nbits = 8 then some .command else if nbits = 24 ∨ nbits = 32 then some .rla else none

def tableBytes (nbits w : Nat) : List Byte := (List.range (nbits / 8)).map (tableByte w)

/-- The instruction the decoder reads from a word of the opcode table. -/
def decodeTableWord (nbits w : Nat) : Option Instr :=
  match tableDecoder nbits with
  | none => none
  | some d =>
    match decode d (tableKeys nbits w) (tableBytes nbits w) with
    | .ok (i, _) => some i
    | .error _ => none

end Sys2Proof
end

