-- ==== Sys2Proof/Machine/RleA.lean ====
section
/-! DEFINITION. The packets of RLE decoder A (42_rle_a_byte_word.md): one packet executed while RLEA runs. `p`, `o`
and `end` are the private variables of R170. -/

namespace Sys2Proof.Machine

/-- `emit(c, n)` (R169) and the advance of `p` by the packet's length: a run that would pass `OLEN` raises `STRUCT`
and is not clipped. -/
def emitRla (c : Byte) (n packetLen p o : Nat) (s : State) : Result :=
  if s.regs.olen.toNat < o + n then raiseStruct s
  else
    match s.writeDst o (List.replicate n c) with
    | none => .fault .dstOutOfRange
    | some t => .next { t with job := some (.rla (p + packetLen) (o + n)) }

/-- A packet of RLA: truncated when its last byte is not inside the window (R172), else `n` copies of `c`. -/
def rlaPacket (c : Byte) (n packetLen : Nat) (s : State) : Result :=
  match s.job with
  | some (.rla p o) =>
    if s.windowEnd < p + packetLen then raiseStruct s else emitRla c n packetLen p o s
  | some (.rlbMeasure _ _) => .refused .packetOutsideDecoder
  | some (.rlbFill _ _) => .refused .packetOutsideDecoder
  | none => .refused .packetOutsideDecoder

/-- `RUN8 c, n` (R171). -/
def execRun8 (c n : Byte) (s : State) : Result := rlaPacket c (s.runLength n.toNat) 3 s

/-- `RUN16 c, n` (R173). -/
def execRun16 (c : Byte) (n : Half) (s : State) : Result := rlaPacket c (s.runLength n.toNat) 4 s

/-- `RAW c` (R167). -/
def execRaw (c : Byte) (s : State) : Result := rlaPacket c 1 1 s

end Sys2Proof.Machine
end

