-- ==== Sys2Proof/Machine/RleB.lean ====
section
/-! DEFINITION. The packets of RLE decoder B (43_rle_b_two_dialect.md): one packet executed while RLEBM or RLEBF runs.
The two passes differ only in the action `out` (R189). -/

namespace Sys2Proof.Machine

/-- `out(v, n)` of pass 1 (R191): the running length grows by `n`, `RESOURCE` when it would not fit `MLEN`. -/
def outMeasure (n packetLen p len : Nat) (s : State) : Result :=
  if 2 ^ 32 - 1 < len + n then raise .resource s
  else .next { s with job := some (.rlbMeasure (p + packetLen) (len + n)) }

/-- `out(v, n)` of pass 2 (R192): `STRUCT` when the output would pass `OLEN`. -/
def outFill (v : Byte) (n packetLen p o : Nat) (s : State) : Result :=
  if s.regs.olen.toNat < o + n then raiseStruct s
  else
    match s.writeDst o (List.replicate n v) with
    | none => .fault .dstOutOfRange
    | some t => .next { t with job := some (.rlbFill (p + packetLen) (o + n)) }

/-- A packet of RLB: truncated when its last byte is not inside the window (R190), else `out(v, n)`. -/
def rlbPacket (v : Byte) (n packetLen : Nat) (s : State) : Result :=
  match s.job with
  | some (.rlbMeasure p len) =>
    if s.windowEnd < p + packetLen then raiseStruct s else outMeasure n packetLen p len s
  | some (.rlbFill p o) =>
    if s.windowEnd < p + packetLen then raiseStruct s else outFill v n packetLen p o s
  | some (.rla _ _) => .refused .packetOutsideDecoder
  | none => .refused .packetOutsideDecoder

/-- `RUNB v, n` (R187): the decoder has put the two operands in order by `RLECTL.ORDER` (30_encoding.md R102). -/
def execRunb (v n : Byte) (s : State) : Result := rlbPacket v (s.runLength n.toNat) 3 s

/-- `LIT v` (R186). -/
def execLit (v : Byte) (s : State) : Result := rlbPacket v 1 1 s

end Sys2Proof.Machine
end

