-- ==== Sys2Proof/Machine/Stream.lean ====
section
/-! DEFINITION. The stream level (00_scope.md R5): fetching a packet at the private pointer, one turn of the decode
loop, the loop, and the three run-length commands over it (42_rle_a_byte_word.md R170, 43_rle_b_two_dialect.md R189,
R191, R192). -/

namespace Sys2Proof.Machine

/-- What the head of the decode loop finds. -/
inductive StreamEvent where
  /-- No run-length command is running. -/
  | idle
  /-- The loop's condition is false: the command completes. -/
  | finish
  /-- RLEA's window is exhausted with fewer than `OLEN` bytes produced (R170). -/
  | exhausted
  /-- The packet at the pointer is cut by the end of the window (R172, R190). -/
  | truncated
  /-- The window is not inside the stream: no prologue lets this happen. -/
  | outside
  | packet (i : Instr)
deriving DecidableEq, Repr

/-- The packet at `p`: only bytes inside the window are looked at (R172, R190). -/
def packetAt (d : Decoder) (p : Nat) (s : State) : StreamEvent :=
  match s.readSrc p (min 4 (s.windowEnd - p)) with
  | none => .outside
  | some bs =>
    match decode d s.regs.keys bs with
    | .ok (i, _) => .packet i
    | .error _ => .truncated

/-- The head of the loop: RLEA runs while `o < OLEN` (R170), the scan of RLB while `p < end` (R189). -/
def streamFetch (s : State) : StreamEvent :=
  match s.job with
  | none => .idle
  | some (.rla p o) =>
    if s.regs.olen.toNat ≤ o then .finish
    else if s.windowEnd ≤ p then .exhausted
    else packetAt .rla p s
  | some (.rlbMeasure p _) => if s.windowEnd ≤ p then .finish else packetAt .rlb p s
  | some (.rlbFill p _) => if s.windowEnd ≤ p then .finish else packetAt .rlb p s

/-- What a run-length command writes when it completes: RLEA `OCNT` and `POS` (R170), RLEBM `MLEN` (R191), RLEBF
`OCNT` and `POS` (R192). -/
def finishJob (s : State) : State :=
  match s.job with
  | none => s
  | some (.rla p o) =>
    { s with regs := { s.regs with ocnt := BitVec.ofNat 32 o, pos := BitVec.ofNat 32 p }, job := none }
  | some (.rlbMeasure _ len) => { s with regs := { s.regs with mlen := BitVec.ofNat 32 len }, job := none }
  | some (.rlbFill _ o) =>
    { s with regs := { s.regs with ocnt := BitVec.ofNat 32 o, pos := BitVec.ofNat 32 s.windowEnd }, job := none }

/-- One turn of the decode loop, the packet executed by `run`. -/
def streamStep (run : Instr → State → Result) (s : State) : Result :=
  match streamFetch s with
  | .idle => .next s
  | .finish => .next (finishJob s)
  | .exhausted => raiseStruct s
  | .truncated => raiseStruct s
  | .outside => .fault .srcOutOfRange
  | .packet i => run i s

/-- The meanings of the five packets; a command is no packet. -/
def execPacket (i : Instr) (s : State) : Result :=
  match i with
  | .run8 c n => execRun8 c n s
  | .run16 c n => execRun16 c n s
  | .raw c => execRaw c s
  | .runb v n => execRunb v n s
  | .lit v => execLit v s
  | .nop | .reset | .clrerr | .rd8 | .rd16le | .rd16be | .rd32le | .rd32be | .rdbuf | .pal68 | .pal86
  | .rlea | .rlebm | .rlebf | .bplx | .adrmap | .adrgat => .refused .packetOutsideDecoder

/-- The decode loop, turned until no job is left. Every packet consumes at least one byte of the window
(70_reset_and_hazards.md R292), so `PLEN` turns and one more are enough. -/
def streamLoop : Nat → State → Result
  | 0, s => streamStep execPacket s
  | k + 1, s =>
    match streamStep execPacket s with
    | .next t => if t.job = none then .next t else streamLoop k t
    | .fault f => .fault f
    | .refused r => .refused r

/-- Start a run-length command and turn its loop to the end: a command is atomic (00_scope.md R8). -/
def runJob (j : Job) (s : State) : Result := streamLoop s.regs.plen.toNat { s with job := some j }

/-- `RLEA` (42_rle_a_byte_word.md R168, R170). -/
def execRlea (s : State) : Result :=
  whenClear s <| checkSlen s <| checkStream s s.regs.plen.toNat <| checkDst s s.regs.olen.toNat <|
    runJob (.rla s.regs.pos.toNat 0) s

/-- `RLEBM` (43_rle_b_two_dialect.md R188, R191). -/
def execRlebm (s : State) : Result :=
  whenClear s <| checkSlen s <| checkStream s s.regs.plen.toNat <|
    runJob (.rlbMeasure s.regs.pos.toNat 0) s

/-- `RLEBF` (43_rle_b_two_dialect.md R188, R192). -/
def execRlebf (s : State) : Result :=
  whenClear s <| checkSlen s <| checkStream s s.regs.plen.toNat <| checkDst s s.regs.olen.toNat <|
    runJob (.rlbFill s.regs.pos.toNat 0) s

end Sys2Proof.Machine
end

