-- ==== Sys2Proof/Machine/System.lean ====
section
/-! DEFINITION. The system commands (46_system.md). They run whatever `ERR` holds (30_encoding.md R92). -/

namespace Sys2Proof.Machine

/-- `NOP` (46_system.md R240). -/
def execNop (s : State) : Result := .next s

/-- `RESET` (46_system.md R241): every register 0, every memory kept. -/
def execReset (s : State) : Result := .next { s with regs := Regs.zero }

/-- `CLRERR` (46_system.md R242): the return from a fault (60_exceptions.md R261). -/
def execClrerr (s : State) : Result := .next (returnFromFault s)

end Sys2Proof.Machine
end

