-- ==== Sys2Proof/Machine/Dispatch.lean ====
section
/-! DEFINITION. The dispatch: one arm per constructor of `Instr`, each one direct call of that instruction's meaning. -/

namespace Sys2Proof.Machine

def exec (i : Instr) (s : State) : Host.Outcome State Fault Refusal :=
  match i with
  | .nop => Sys2Proof.Machine.execNop s
  | .reset => Sys2Proof.Machine.execReset s
  | .clrerr => Sys2Proof.Machine.execClrerr s
  | .rd8 => Sys2Proof.Machine.execRd8 s
  | .rd16le => Sys2Proof.Machine.execRd16le s
  | .rd16be => Sys2Proof.Machine.execRd16be s
  | .rd32le => Sys2Proof.Machine.execRd32le s
  | .rd32be => Sys2Proof.Machine.execRd32be s
  | .rdbuf => Sys2Proof.Machine.execRdbuf s
  | .pal68 => Sys2Proof.Machine.execPal68 s
  | .pal86 => Sys2Proof.Machine.execPal86 s
  | .rlea => Sys2Proof.Machine.execRlea s
  | .rlebm => Sys2Proof.Machine.execRlebm s
  | .rlebf => Sys2Proof.Machine.execRlebf s
  | .bplx => Sys2Proof.Machine.execBplx s
  | .adrmap => Sys2Proof.Machine.execAdrmap s
  | .adrgat => Sys2Proof.Machine.execAdrgat s
  | .run8 c n => Sys2Proof.Machine.execRun8 c n s
  | .run16 c n => Sys2Proof.Machine.execRun16 c n s
  | .raw c => Sys2Proof.Machine.execRaw c s
  | .runb v n => Sys2Proof.Machine.execRunb v n s
  | .lit v => Sys2Proof.Machine.execLit v s

end Sys2Proof.Machine
end

