-- ==== Sys2Proof/Machine/HostPort.lean ====
section
/-! DEFINITION. The host interface: what one access of the host does (46_system.md R243, 30_encoding.md R92,
20_memory.md R70). The instruction meanings come in as `run`. -/

namespace Sys2Proof.Machine

/-- A write of code `c` to `CMD` (30_encoding.md R92). A code outside the table raises `ILLEGAL` when `ERR` = 0 and
does nothing when not (R93); every command reads `ERR` itself (log 12). -/
def issue (run : Instr → State → Result) (c : Byte) (s : State) : Result :=
  match decodeCommand c with
  | .ok i => run i s
  | .error _ => whenClear s (raise .illegal s)

/-- One access of the host. Register accesses are not blocked by `ERR` (46_system.md R243), and a read changes nothing
but the model's own `reply` (20_memory.md R68). -/
def hostAccess (run : Instr → State → Result) (a : HostAccess) (s : State) : Result :=
  match a with
  | .writeReg n v =>
    if n = 0x00 then issue run (BitVec.ofNat 8 v) s else .next { s with regs := writeReg s.regs n v }
  | .readReg n => .next { s with reply := some (readReg s.regs n) }
  | .writeCell sp i b =>
    if i < s.spaceSize sp then .next (s.setMem sp ((s.mem sp).writeBlock i [b])) else .fault .noSuchCell
  | .readCell sp i =>
    if i < s.spaceSize sp then .next { s with reply := some ((s.cell sp i).setWidth 32) } else .fault .noSuchCell

/-! The lines of a host program (30_encoding.md R111, R112) as accesses. -/

/-- `SET reg, value`. -/
def hostSet (n : BitVec 8) (v : Nat) : List HostAccess := [.writeReg n v]

/-- `LOAD SRC, [bytes]`: cells from index 0 and nothing else. -/
def hostLoad (bs : List Byte) : List HostAccess := (blockCells 0 bs).map (fun c => .writeCell .src c.1 c.2)

/-- A command mnemonic on a line of its own: its code written to `CMD`. -/
def hostCommand (i : Instr) : List HostAccess := (encode ⟨0, 0, 0, 0⟩ i).map (fun c => .writeReg 0x00 c.toNat)

/-- `SEEK q`: `SET POS, q`. -/
def pseudoSeek (q : Nat) : List HostAccess := hostSet 0x02 q

/-- The host's next access is a write of the command code `w` to `CMD`. -/
def placeCommand (s : State) (w : Nat) : State :=
  { s with job := none, inbox := .writeReg 0x00 (w % 256) :: s.inbox }

/-- RLEA is running and the packet with bytes `bs` is next: it stands at `SRC[0 ..)`, the window holds exactly it, the
keys are those it is a packet under, and the picture has room for the longest run. -/
def placePacket (s : State) (k : StreamKeys) (bs : List Byte) : State :=
  { s with
    src := s.src.writeBlock 0 bs,
    regs := { s.regs with
      pos := 0, slen := BitVec.ofNat 32 bs.length, plen := BitVec.ofNat 32 bs.length, olen := 65535,
      key1 := k.key1, key2 := k.key2 },
    job := some (.rla 0 0) }

end Sys2Proof.Machine
end

