-- ==== Sys2Proof/Machine/Step.lean ====
section
/-! DEFINITION. One step of the machine. While a run-length command runs, a step is one turn of its decode loop and the
host makes no access (10_state.md R21, 00_scope.md R8); between commands a step is the host's next access; with no
access to come the CDB is idle and does nothing (70_reset_and_hazards.md R280). -/

namespace Sys2Proof.Machine

def step (s : State) : Host.Outcome State Fault Refusal :=
  match s.job with
  | some _ => streamStep exec s
  | none =>
    match s.inbox with
    | [] => .next s
    | a :: rest => hostAccess exec a { s with inbox := rest }

/-- The instruction of table word `w` placed where the next step fetches: a command code as the host's next write to
`CMD`, a packet at the pointer of a running RLEA (logs 1, 11). -/
def State.withFetchWord (s : State) (nbits w : Nat) : State :=
  if nbits = 24 ∨ nbits = 32 then placePacket s (tableKeys nbits w) (tableBytes nbits w) else placeCommand s w

end Sys2Proof.Machine
end

