-- ==== Sys2Proof/Safety.lean ====
section
/-! DEFINITION. The terms claims are stated in: the invariant of the machine, what a safe step is, what a packet and a
packet stream stand for, and which commands run whatever `ERR` holds. -/

namespace Sys2Proof

/-- The commands that run whatever `ERR` holds (30_encoding.md R92, 60_exceptions.md R257). -/
def Instr.runsAlways (i : Instr) : Bool := i == .nop || i == .reset || i == .clrerr

/-- The commands that write `DST` (10_state.md R31). -/
def Instr.writesDst (i : Instr) : Bool := i == .rdbuf || i == .rlea || i == .rlebf || i == .bplx || i == .adrgat

/-- The commands that rewrite `PALRAM` (10_state.md R30). -/
def Instr.writesPal (i : Instr) : Bool := i == .pal68 || i == .pal86

/-- The five integer reads (40_binary_reader.md R133 to R137). -/
def Instr.readsInteger (i : Instr) : Bool :=
  i == .rd8 || i == .rd16le || i == .rd16be || i == .rd32le || i == .rd32be

/-- The commands that read `SRC` (60_exceptions.md R254). -/
def Instr.readsSrc (i : Instr) : Bool :=
  i.readsInteger || i == .rdbuf || i == .rlea || i == .rlebm || i == .rlebf || i == .bplx || i == .adrgat

namespace Machine

/-! ## What packets stand for -/

/-- The bytes a packet puts out (42_rle_a_byte_word.md R167, R171, R173, 43_rle_b_two_dialect.md R186, R187). A command
is no packet and puts out nothing. -/
def packetOutput (s : State) : Instr → List Byte
  | .run8 c n => List.replicate (s.runLength n.toNat) c
  | .run16 c n => List.replicate (s.runLength n.toNat) c
  | .raw c => [c]
  | .runb v n => List.replicate (s.runLength n.toNat) v
  | .lit v => [v]
  | .nop | .reset | .clrerr | .rd8 | .rd16le | .rd16be | .rd32le | .rd32be | .rdbuf | .pal68 | .pal86
  | .rlea | .rlebm | .rlebf | .bplx | .adrmap | .adrgat => []

/-- The output of a packet stream. -/
def streamOutput (s : State) (ps : List Instr) : List Byte := ps.flatMap (packetOutput s)

/-- The bytes of a packet stream under the registers of `s`. -/
def streamBytes (s : State) (ps : List Instr) : List Byte := ps.flatMap (encode s.regs.keys)

/-- Every instruction of `ps` is a packet of decoder `d` that can be written down under the registers of `s`. -/
def isStreamOf (d : Decoder) (s : State) (ps : List Instr) : Prop :=
  ∀ i ∈ ps, i.decoder = d ∧ i.wellFormed s.regs.keys = true

/-- The space holds `bs` at cells `a ..`. -/
def State.holds (s : State) (sp : Space) (a : Nat) (bs : List Byte) : Prop := s.cells sp a bs.length = bs

/-- Two states agree on every cell of a space. -/
def sameCells (sp : Space) (s t : State) : Prop := ∀ a, t.cell sp a = s.cell sp a

/-! ## The invariant -/

/-- What holds of the private variables of a run-length command while it runs: it runs only with `ERR` = 0, its window
lies in the stream and the stream in `SRC`, its pointer in the window and its output in `DST` (42_rle_a_byte_word.md R168,
R170, 43_rle_b_two_dialect.md R188, R191, R192). -/
def State.jobInside (s : State) : Prop :=
  match s.job with
  | none => True
  | some (.rla p o) =>
    s.regs.err = 0 ∧ s.regs.slen.toNat ≤ s.params.srcCap ∧ s.windowEnd ≤ s.regs.slen.toNat ∧
    s.regs.pos.toNat ≤ p ∧ p ≤ s.windowEnd ∧ s.regs.olen.toNat ≤ s.params.dstLen ∧ o ≤ s.regs.olen.toNat
  | some (.rlbMeasure p len) =>
    s.regs.err = 0 ∧ s.regs.slen.toNat ≤ s.params.srcCap ∧ s.windowEnd ≤ s.regs.slen.toNat ∧
    s.regs.pos.toNat ≤ p ∧ p ≤ s.windowEnd ∧ len ≤ 2 ^ 32 - 1
  | some (.rlbFill p o) =>
    s.regs.err = 0 ∧ s.regs.slen.toNat ≤ s.params.srcCap ∧ s.windowEnd ≤ s.regs.slen.toNat ∧
    s.regs.pos.toNat ≤ p ∧ p ≤ s.windowEnd ∧ s.regs.olen.toNat ≤ s.params.dstLen ∧ o ≤ s.regs.olen.toNat

/-- The values `ERR` takes (10_state.md R27): 3 is never written, 6 and 7 have no name. -/
def legalErr (e : BitVec 3) : Bool := e == 0 || e == 1 || e == 2 || e == 4 || e == 5

/-- Every cell of a memory lies in its space. -/
def Memory.inside (m : Memory) (size : Nat) : Prop := ∀ c ∈ m, c.1 < size

/-- The invariant of the machine. -/
structure Inv (s : State) : Prop where
  /-- The memories keep their canonical form. -/
  form : ∀ sp, (s.mem sp).wf
  /-- No cell outside its space is written (20_memory.md R70, R72). -/
  inside : ∀ sp, (s.mem sp).inside (s.spaceSize sp)
  /-- The parameters are in their ranges (00_scope.md P2, P3). -/
  capacity : 1 ≤ s.params.srcCap ∧ s.params.srcCap ≤ 2 ^ 32 - 1 ∧ s.params.dstLen ≤ 2 ^ 32 - 1
  /-- `ERR` holds a value that is written (10_state.md R27). -/
  err : legalErr s.regs.err = true
  /-- A running command is inside its bounds. -/
  job : s.jobInside

/-! ## Safe runs -/

/-- The host names a cell that exists (20_memory.md R70); register accesses always do (46_system.md R243). -/
def HostAccess.valid (s : State) : HostAccess → Bool
  | .writeReg _ _ => true
  | .readReg _ => true
  | .writeCell sp a _ => decide (a < s.spaceSize sp)
  | .readCell sp a => decide (a < s.spaceSize sp)

/-- The next host access, if it is due, names a cell that exists. -/
def State.nextAccessValid (s : State) : Prop :=
  s.job = none → ∀ a rest, s.inbox = a :: rest → HostAccess.valid s a = true

/-- A step that does not stop the model. -/
def safeStep (s : State) : Prop := ∃ t, step s = .next t

end Machine

end Sys2Proof
end

