-- ==== Sys2Proof/Certificates/Slice0/Obligations.lean ====
section
/-! DEFINITION. The statements for the provers. Each docstring names the rule of spec/ it formalises; a clause that rests
on a choice of the model says so and names the log entry. A result statement is an equality of the next state (or gives
every field of it), so it is the completion statement and the frame of its instruction at once. -/

open Sys2Proof Sys2Proof.Machine

/-! ## Encodings -/

/-- 30_encoding.md R91, R94 to R97, R100 to R102: decoding the bytes of a well-formed instruction gives it back, with
every operand at every value, and leaves what follows it. -/
def Obligations.DecodeInvertsEncode : Prop :=
  ∀ (k : StreamKeys) (i : Instr) (rest : List Byte), i.wellFormed k = true →
    decode i.decoder k (encode k i ++ rest) = .ok (i, rest)

/-- The other direction: bytes that decode are the encoding of a well-formed instruction of that decoder, so no two byte
strings mean the same instruction. -/
def Obligations.DecodedBytesAreTheEncoding : Prop :=
  ∀ (d : Decoder) (k : StreamKeys) (bs : List Byte) (i : Instr) (rest : List Byte),
    decode d k bs = .ok (i, rest) →
      bs = encode k i ++ rest ∧ i.wellFormed k = true ∧ i.decoder = d

/-- A few words written out from the encodings of 30_encoding.md R91, R96, R97, R102. -/
def Obligations.SpecWordsDecode : Prop :=
  decode .command ⟨0, 0, 0, 0⟩ [0x13] = .ok (.rd32le, []) ∧
  decode .command ⟨0, 0, 0, 0⟩ [0x61] = .ok (.adrgat, []) ∧
  decode .command ⟨0, 0, 0, 0⟩ [0x16] = .error .reservedCode ∧
  decode .rla ⟨0xFE, 0xFF, 0, 0⟩ [0xFE, 0x07, 0x03] = .ok (.run8 0x07 0x03, []) ∧
  decode .rla ⟨0xFE, 0xFF, 0, 0⟩ [0xFF, 0x09, 0x01, 0x00] = .ok (.run16 0x09 0x0100, []) ∧
  decode .rlb ⟨0, 0, 0xC2, 0⟩ [0xC2, 0x03, 0x07] = .ok (.runb 0x07 0x03, []) ∧
  decode .rlb ⟨0, 0, 0xC2, 1⟩ [0xC2, 0x03, 0x07] = .ok (.runb 0x03 0x07, [])

/-- 30_encoding.md R110: a packet's length is a function of its first byte and of `KEY1`, `KEY2` (RLA) or `ESC` (RLB)
alone; a packet is cut from the front exactly when that many bytes are there, and what follows them is left. The spec
marks the rule as derived. -/
def Obligations.FirstByteFixesPacketLength : Prop :=
  ∀ (k : StreamKeys) (b0 : Byte) (tail : List Byte),
    (if (b0 :: tail).length < (if b0 = k.key1 then 3 else if b0 = k.key2 then 4 else 1)
      then decode .rla k (b0 :: tail) = .error .truncated
      else ∃ i, decode .rla k (b0 :: tail) =
        .ok (i, (b0 :: tail).drop (if b0 = k.key1 then 3 else if b0 = k.key2 then 4 else 1))) ∧
    (if (b0 :: tail).length < (if b0 = k.esc then 3 else 1)
      then decode .rlb k (b0 :: tail) = .error .truncated
      else ∃ i, decode .rlb k (b0 :: tail) = .ok (i, (b0 :: tail).drop (if b0 = k.esc then 3 else 1)))

/-! ## The step and the host interface -/

/-- 30_encoding.md R92: between commands, a host write of a command's code to `CMD` runs exactly that command. The next
access is taken from the model's own list of host accesses (log 1). -/
def Obligations.StepRunsIssuedCommand : Prop :=
  ∀ (s : State) (v : Nat) (rest : List HostAccess) (i : Instr),
    s.job = none → s.inbox = .writeReg 0x00 v :: rest → decodeCommand (BitVec.ofNat 8 v) = .ok i →
      step s = exec i { s with inbox := rest }

/-- 00_scope.md R5, 10_state.md R24: while a run-length command runs, a step executes the packet whose bytes stand at
its pointer inside the window, and the host's accesses wait. The private variables stand in State, the model's choice
(log 5). -/
def Obligations.StepRunsFetchedPacket : Prop :=
  ∀ (s : State) (d : Decoder) (p n : Nat) (bs rest : List Byte) (i : Instr),
    (s.job = some (.rla p n) ∧ n < s.regs.olen.toNat ∧ d = .rla ∨
      s.job = some (.rlbMeasure p n) ∧ d = .rlb ∨ s.job = some (.rlbFill p n) ∧ d = .rlb) →
    p < s.windowEnd → s.readSrc p (min 4 (s.windowEnd - p)) = some bs →
    decode d s.regs.keys bs = .ok (i, rest) →
      step s = exec i s

/-- 30_encoding.md R93: a host write of a reserved command code raises `ILLEGAL` and changes nothing else when `ERR` = 0,
and does nothing when it is not. -/
def Obligations.ReservedCodeRaisesIllegal : Prop :=
  ∀ (s : State) (v : Nat), s.job = none →
    (0x03 ≤ v % 256 ∧ v % 256 ≤ 0x0F ∨ 0x16 ≤ v % 256 ∧ v % 256 ≤ 0x1F ∨ 0x22 ≤ v % 256 ∧ v % 256 ≤ 0x2F ∨
      0x31 ≤ v % 256 ∧ v % 256 ≤ 0x3F ∨ 0x42 ≤ v % 256 ∧ v % 256 ≤ 0x4F ∨ 0x51 ≤ v % 256 ∧ v % 256 ≤ 0x5F ∨
      0x62 ≤ v % 256) →
      (s.regs.err = 0 → hostAccess exec (.writeReg 0x00 v) s = .next { s with regs := { s.regs with err := 5 } }) ∧
      (s.regs.err ≠ 0 → hostAccess exec (.writeReg 0x00 v) s = .next s)

/-- Between commands a step is the host's next access, taken from the model's own list (log 1), and nothing else: idle
without one (70_reset_and_hazards.md R280); a register read returns its value and changes nothing but the model's own `reply`
(20_memory.md R68, log 7); a cell access reads or writes that cell (20_memory.md R70); a cell that does not exist stops
the model (its own choice, log 10). -/
def Obligations.HostAccessEffects : Prop :=
  ∀ (s : State) (rest : List HostAccess), s.job = none →
    (s.inbox = [] → step s = .next s) ∧
    (∀ a, s.inbox = a :: rest → step s = hostAccess exec a { s with inbox := rest }) ∧
    (∀ n, s.inbox = .readReg n :: rest →
      step s = .next { s with inbox := rest, reply := some (readReg s.regs n) }) ∧
    (∀ sp a, s.inbox = .readCell sp a :: rest → a < s.spaceSize sp →
      step s = .next { s with inbox := rest, reply := some ((s.cell sp a).setWidth 32) }) ∧
    (∀ sp a b, s.inbox = .writeCell sp a b :: rest → a < s.spaceSize sp →
      ∃ t, step s = .next t ∧ t.regs = s.regs ∧ t.job = none ∧ t.inbox = rest ∧ t.params = s.params ∧ t.reply = s.reply ∧
        ∀ sp' a', t.cell sp' a' = if sp' = sp ∧ a' = a then b else s.cell sp' a') ∧
    (∀ sp a b, s.inbox = .writeCell sp a b :: rest ∨ s.inbox = .readCell sp a :: rest →
      s.spaceSize sp ≤ a → step s = .fault .noSuchCell)

/-- 46_system.md R243 and the widths of 10_state.md R22, R23: a write of an `RW` register stores the low `width` bits
and touches no other register; a write of any other number changes nothing; `CMD` and the reserved numbers read 0; every
register reads below 2^width; none of it is blocked by `ERR`. The host's list of accesses is the model's own (log 1). -/
def Obligations.RegisterWritesKeepLowBits : Prop :=
  (∀ (r : Regs) (n m : BitVec 8) (v : Nat), regAccess n = .readWrite →
    (readReg (writeReg r n v) m).toNat = if m = n then v % 2 ^ regWidth n else (readReg r m).toNat) ∧
  (∀ (r : Regs) (n : BitVec 8) (v : Nat), regAccess n ≠ .readWrite → writeReg r n v = r) ∧
  (∀ (r : Regs) (n : BitVec 8), regAccess n = .writeOnly ∨ regAccess n = .reserved → readReg r n = 0) ∧
  (∀ (r : Regs) (n : BitVec 8), (readReg r n).toNat < 2 ^ regWidth n) ∧
  (∀ (s : State) (n : BitVec 8) (v : Nat) (rest : List HostAccess),
    s.job = none → s.inbox = .writeReg n v :: rest → n ≠ 0x00 →
      step s = .next { s with inbox := rest, regs := writeReg s.regs n v })

/-! ## Reset and the system commands -/

/-- 10_state.md R34: right after power-on every register number reads 0, and no cell of any memory has a value the model
chose (each reads as the free value of log 4). -/
def Obligations.PowerOnRegistersReadZero : Prop :=
  (∀ n, readReg State.reset.regs n = 0) ∧
  (∀ sp a, State.reset.cell sp a = Config.powerOnByte sp a)

/-- 46_system.md R240: code 0x00, no effect, whatever `ERR` holds. -/
def Obligations.NopChangesNothing : Prop :=
  decodeCommand 0x00 = .ok .nop ∧ ∀ s : State, exec .nop s = .next s

/-- 46_system.md R241: code 0x01; every register reads 0 afterwards, whatever `ERR` held, and no memory changes. -/
def Obligations.ResetZeroesRegistersKeepsMemories : Prop :=
  decodeCommand 0x01 = .ok .reset ∧
  ∀ s : State, ∃ t, exec .reset s = .next t ∧ (∀ n, readReg t.regs n = 0) ∧ t = { s with regs := t.regs } ∧
    ∀ sp, sameCells sp s t

/-- 46_system.md R242, 60_exceptions.md R261: code 0x02; `ERR` is 0 afterwards and nothing else changes. -/
def Obligations.ClrerrReturnsFromFault : Prop :=
  decodeCommand 0x02 = .ok .clrerr ∧
  ∀ s : State, exec .clrerr s = .next { s with regs := { s.regs with err := 0 } }

/-- 60_exceptions.md R257: while `ERR` is not 0, every command except NOP, RESET and CLRERR is skipped and changes
nothing, and a write of any code but theirs to `CMD` changes nothing. -/
def Obligations.ShortCircuitSkipsCommands : Prop :=
  (∀ (i : Instr) (s : State), i.decoder = .command → i.runsAlways = false → s.regs.err ≠ 0 → exec i s = .next s) ∧
  (∀ (s : State) (v : Nat), s.job = none → s.regs.err ≠ 0 → v % 256 ≠ 0x00 → v % 256 ≠ 0x01 → v % 256 ≠ 0x02 →
    hostAccess exec (.writeReg 0x00 v) s = .next s)

/-! ## Faults -/

/-- 60_exceptions.md R256: after a fault `ERR` holds its kind, every other register and `SRC` and `PALRAM` are as before
the command, `DST` too unless RLEA or RLEBF raised `STRUCT`, and even then at `OLEN` and above. -/
def Obligations.FaultKeepsTheRest : Prop :=
  ∀ (i : Instr) (s t : State), i.decoder = .command → s.regs.err = 0 → exec i s = .next t → t.regs.err ≠ 0 →
    t.regs = { s.regs with err := t.regs.err } ∧ t.job = none ∧ t.params = s.params ∧ t.inbox = s.inbox ∧
    sameCells .src s t ∧ sameCells .pal s t ∧
    (∀ a, s.regs.olen.toNat ≤ a → t.cell .dst a = s.cell .dst a) ∧
    (¬ (t.regs.err = 2 ∧ (i = .rlea ∨ i = .rlebf)) → sameCells .dst s t)

/-- 60_exceptions.md R251 to R255: which command can raise which kind. NOP, RESET, CLRERR and ADRMAP raise none, and no
command writes `ERR` a value other than 0, 1, 2, 4 and 5. -/
def Obligations.FaultKindsOfEachCommand : Prop :=
  ∀ (i : Instr) (s t : State), i.decoder = .command → s.regs.err = 0 → exec i s = .next t →
    t.regs.err = 0 ∨
    (t.regs.err = 1 ∧ i.readsSrc = true) ∨
    (t.regs.err = 2 ∧ (i = .rlea ∨ i = .rlebm ∨ i = .rlebf ∨ i = .pal68)) ∨
    (t.regs.err = 4 ∧ (i = .rlebm ∨ i.writesDst = true)) ∨
    (t.regs.err = 5 ∧ (i.readsSrc = true ∨ i.writesPal = true))

/-- 40_binary_reader.md R131: the prologue of every command of the binary reader, `ILLEGAL` when `SLEN > SRC_CAP`, else
`READ` on a short read of its byte count `n`; nothing is delivered and `POS` does not move. -/
def Obligations.ReaderPrologueFaults : Prop :=
  ∀ s : State, s.regs.err = 0 → s.job = none →
    ∀ i n, (i = .rd8 ∧ n = 1 ∨ i = .rd16le ∧ n = 2 ∨ i = .rd16be ∧ n = 2 ∨ i = .rd32le ∧ n = 4 ∨ i = .rd32be ∧ n = 4 ∨
      i = .rdbuf ∧ n = s.regs.olen.toNat) →
      (s.params.srcCap < s.regs.slen.toNat → exec i s = .next { s with regs := { s.regs with err := 5 } }) ∧
      (s.regs.slen.toNat ≤ s.params.srcCap → s.regs.slen.toNat < s.regs.pos.toNat + n →
        exec i s = .next { s with regs := { s.regs with err := 1 } })

/-- 42_rle_a_byte_word.md R168, 43_rle_b_two_dialect.md R188 and the third check of R192: `ILLEGAL`, then `READ`, then
`RESOURCE` (not RLEBM), all before the first write. -/
def Obligations.StreamCommandPrologueFaults : Prop :=
  ∀ s : State, s.regs.err = 0 → s.job = none →
    ∀ i, i = .rlea ∨ i = .rlebm ∨ i = .rlebf →
      (s.params.srcCap < s.regs.slen.toNat → exec i s = .next { s with regs := { s.regs with err := 5 } }) ∧
      (s.regs.slen.toNat ≤ s.params.srcCap → s.regs.slen.toNat < s.regs.pos.toNat + s.regs.plen.toNat →
        exec i s = .next { s with regs := { s.regs with err := 1 } }) ∧
      (s.regs.slen.toNat ≤ s.params.srcCap → s.regs.pos.toNat + s.regs.plen.toNat ≤ s.regs.slen.toNat → i ≠ .rlebm →
        s.params.dstLen < s.regs.olen.toNat → exec i s = .next { s with regs := { s.regs with err := 4 } })

/-- 44_bitplane_unpacker.md R209: the checks of BPLX in their order: plane count, `SLEN`, the last byte any pixel needs in
each used plane (skipped for an empty picture), the room in `DST`. -/
def Obligations.BplxPrologueFaults : Prop :=
  ∀ s : State, s.regs.err = 0 → s.job = none →
    let w := s.regs.width.toNat
    let h := s.regs.height.toNat
    let np := s.regs.bplctl.toNat % 16
    let legal := np = 1 ∨ np = 2 ∨ np = 4 ∨ np = 8
    let short := 0 < w ∧ 0 < h ∧ ∃ p, p < np ∧
      s.regs.slen.toNat < (s.regs.plb[p]?.getD 0).toNat + ((h - 1) * s.regs.linebits.toNat + (w - 1)) / 8 + 1
    (¬ legal → exec .bplx s = .next { s with regs := { s.regs with err := 5 } }) ∧
    (legal → s.params.srcCap < s.regs.slen.toNat →
      exec .bplx s = .next { s with regs := { s.regs with err := 5 } }) ∧
    (legal → s.regs.slen.toNat ≤ s.params.srcCap → short →
      exec .bplx s = .next { s with regs := { s.regs with err := 1 } }) ∧
    (legal → s.regs.slen.toNat ≤ s.params.srcCap → ¬ short → s.params.dstLen < w * h →
      exec .bplx s = .next { s with regs := { s.regs with err := 4 } })

/-- 45_address_descrambler.md R227: the checks of ADRGAT in their order. -/
def Obligations.AdrgatPrologueFaults : Prop :=
  ∀ s : State, s.regs.err = 0 → s.job = none →
    let c := s.regs.columns.toNat
    let h := s.regs.height.toNat
    let outside := 0 < c ∧ ∃ y, y < h ∧
      (scramble s.regs.base.toNat c y < s.regs.org.toNat ∨
        s.regs.slen.toNat < scramble s.regs.base.toNat c y - s.regs.org.toNat + c)
    (s.params.srcCap < s.regs.slen.toNat → exec .adrgat s = .next { s with regs := { s.regs with err := 5 } }) ∧
    (s.regs.slen.toNat ≤ s.params.srcCap → outside →
      exec .adrgat s = .next { s with regs := { s.regs with err := 1 } }) ∧
    (s.regs.slen.toNat ≤ s.params.srcCap → ¬ outside → s.params.dstLen < h * c →
      exec .adrgat s = .next { s with regs := { s.regs with err := 4 } })

/-! ## The binary reader -/

/-- 40_binary_reader.md R132 to R137, 30_encoding.md R104: with the bytes readable, each integer read puts the value its byte order assembles
into `VAL`, zero-extended, and advances `POS` by its width. Nothing else changes. -/
def Obligations.IntegerReadsDeliver : Prop :=
  ∀ s : State, s.regs.err = 0 → s.regs.slen.toNat ≤ s.params.srcCap →
    let q := s.regs.pos.toNat
    let b := fun j => (s.cell .src (q + j)).toNat
    (q + 1 ≤ s.regs.slen.toNat → exec .rd8 s =
      .next { s with regs := { s.regs with val := BitVec.ofNat 32 (b 0), pos := BitVec.ofNat 32 (q + 1) } }) ∧
    (q + 2 ≤ s.regs.slen.toNat → exec .rd16le s =
      .next { s with regs := { s.regs with val := BitVec.ofNat 32 (256 * b 1 + b 0), pos := BitVec.ofNat 32 (q + 2) } }) ∧
    (q + 2 ≤ s.regs.slen.toNat → exec .rd16be s =
      .next { s with regs := { s.regs with val := BitVec.ofNat 32 (256 * b 0 + b 1), pos := BitVec.ofNat 32 (q + 2) } }) ∧
    (q + 4 ≤ s.regs.slen.toNat → exec .rd32le s =
      .next { s with regs := { s.regs with
        val := BitVec.ofNat 32 (16777216 * b 3 + 65536 * b 2 + 256 * b 1 + b 0), pos := BitVec.ofNat 32 (q + 4) } }) ∧
    (q + 4 ≤ s.regs.slen.toNat → exec .rd32be s =
      .next { s with regs := { s.regs with
        val := BitVec.ofNat 32 (16777216 * b 0 + 65536 * b 1 + 256 * b 2 + b 3), pos := BitVec.ofNat 32 (q + 4) } })

/-- 40_binary_reader.md R138: code 0x15; `ILLEGAL`, then `READ`, then `RESOURCE` before the first write; otherwise RDBUF
copies `OLEN` bytes to `DST[0 ..)`, sets `OCNT` and advances `POS`, and every other cell and register is unchanged. -/
def Obligations.RdbufCopiesStreamBytes : Prop :=
  decodeCommand 0x15 = .ok .rdbuf ∧ ∀ s : State, s.regs.err = 0 → s.job = none →
    let q := s.regs.pos.toNat
    let n := s.regs.olen.toNat
    (s.params.srcCap < s.regs.slen.toNat → exec .rdbuf s = .next { s with regs := { s.regs with err := 5 } }) ∧
    (s.regs.slen.toNat ≤ s.params.srcCap → s.regs.slen.toNat < q + n →
      exec .rdbuf s = .next { s with regs := { s.regs with err := 1 } }) ∧
    (s.regs.slen.toNat ≤ s.params.srcCap → q + n ≤ s.regs.slen.toNat → s.params.dstLen < n →
      exec .rdbuf s = .next { s with regs := { s.regs with err := 4 } }) ∧
    (s.regs.slen.toNat ≤ s.params.srcCap → q + n ≤ s.regs.slen.toNat → n ≤ s.params.dstLen →
      ∃ t, exec .rdbuf s = .next t ∧
        t = { s with dst := t.dst, regs := { s.regs with ocnt := s.regs.olen, pos := BitVec.ofNat 32 (q + n) } } ∧
        ∀ a, t.cell .dst a = if a < n then s.cell .src (q + a) else s.cell .dst a)

/-- 20_memory.md R63: two RD8 in a row read exactly the bytes one RD16LE or RD16BE at the same position combines. The
spec marks the rule as derived. -/
def Obligations.ByteReadsAgreeWithWordReads : Prop :=
  ∀ s t u : State, s.regs.err = 0 → exec .rd8 s = .next t → t.regs.err = 0 → exec .rd8 t = .next u → u.regs.err = 0 →
    (∃ v, exec .rd16le s = .next v ∧ v.regs.err = 0 ∧ v.regs.pos = u.regs.pos ∧
      v.regs.val.toNat = t.regs.val.toNat + 256 * u.regs.val.toNat) ∧
    (∃ v, exec .rd16be s = .next v ∧ v.regs.err = 0 ∧ v.regs.pos = u.regs.pos ∧
      v.regs.val.toNat = 256 * t.regs.val.toNat + u.regs.val.toNat)

/-! ## The palette scaler -/

/-- 41_palette_scaler.md R156, R158: both scaling functions are monotonic, `SCALE68` strictly so, and they meet their
end points. The spec marks the rule as derived. -/
def Obligations.ScalingIsMonotonic : Prop :=
  (∀ a b : Nat, a ≤ b → scale68 a ≤ scale68 b ∧ scale86 a ≤ scale86 b) ∧
  (∀ a b : Nat, a < b → scale68 a < scale68 b) ∧
  scale68 0 = 0 ∧ scale68 63 = 255 ∧ scale86 0 = 0 ∧ scale86 255 = 63

/-- 41_palette_scaler.md R157: the round trips are the identity only on the two sets the rule names, and 6 to 8 to 6
gives `v - 1` elsewhere. The spec marks the rule as derived. -/
def Obligations.ScalingRoundTripsExactlyOnTheNamedSets : Prop :=
  (∀ v : Nat, v ≤ 63 → (scale86 (scale68 v) = v ↔ v = 0 ∨ v = 21 ∨ v = 42 ∨ v = 63)) ∧
  (∀ v : Nat, v ≤ 63 → ¬ (v = 0 ∨ v = 21 ∨ v = 42 ∨ v = 63) → scale86 (scale68 v) = v - 1) ∧
  (∀ v : Nat, v ≤ 255 → (scale68 (scale86 v) = v ↔ v = 0 ∨ v = 85 ∨ v = 170 ∨ v = 255))

/-- 41_palette_scaler.md R152: PAL68, code 0x20, raises `ILLEGAL` when the range leaves the 256 slots, then `STRUCT` when a channel of
the range is above 63, and changes nothing but `ERR` in either case; otherwise it replaces each cell of the range by
`floor(v * 255 / 63)` and touches nothing else. -/
def Obligations.Pal68ScalesItsSlots : Prop :=
  decodeCommand 0x20 = .ok .pal68 ∧ ∀ s : State, s.regs.err = 0 → s.job = none →
    let lo := 3 * s.regs.pstart.toNat
    let hi := 3 * (s.regs.pstart.toNat + s.regs.pcnt.toNat)
    (256 < s.regs.pstart.toNat + s.regs.pcnt.toNat →
      exec .pal68 s = .next { s with regs := { s.regs with err := 5 } }) ∧
    (s.regs.pstart.toNat + s.regs.pcnt.toNat ≤ 256 → (∃ a, lo ≤ a ∧ a < hi ∧ 63 < (s.cell .pal a).toNat) →
      exec .pal68 s = .next { s with regs := { s.regs with err := 2 } }) ∧
    (s.regs.pstart.toNat + s.regs.pcnt.toNat ≤ 256 → (∀ a, lo ≤ a → a < hi → (s.cell .pal a).toNat ≤ 63) →
      ∃ t, exec .pal68 s = .next t ∧ t = { s with pal := t.pal } ∧
        ∀ a, (t.cell .pal a).toNat =
          if lo ≤ a ∧ a < hi then (s.cell .pal a).toNat * 255 / 63 else (s.cell .pal a).toNat)

/-- 41_palette_scaler.md R155: PAL86, code 0x21, raises `ILLEGAL` when the range leaves the 256 slots and changes nothing but `ERR`;
otherwise it replaces each cell of the range by `floor(v * 63 / 255)` and touches nothing else. -/
def Obligations.Pal86ScalesItsSlots : Prop :=
  decodeCommand 0x21 = .ok .pal86 ∧ ∀ s : State, s.regs.err = 0 → s.job = none →
    let lo := 3 * s.regs.pstart.toNat
    let hi := 3 * (s.regs.pstart.toNat + s.regs.pcnt.toNat)
    (256 < s.regs.pstart.toNat + s.regs.pcnt.toNat →
      exec .pal86 s = .next { s with regs := { s.regs with err := 5 } }) ∧
    (s.regs.pstart.toNat + s.regs.pcnt.toNat ≤ 256 →
      ∃ t, exec .pal86 s = .next t ∧ t = { s with pal := t.pal } ∧
        ∀ a, (t.cell .pal a).toNat =
          if lo ≤ a ∧ a < hi then (s.cell .pal a).toNat * 63 / 255 else (s.cell .pal a).toNat)

/-! ## RLE decoder A -/

/-- 42_rle_a_byte_word.md R167, R169, R171, R173: a packet of RLA that is inside the window and whose run does not pass
`OLEN` writes its run at the output index and advances the pointer by its length; nothing else changes. A zero count
stands for `ZERO_COUNT`. The private variables stand in State, the model's choice (log 5). -/
def Obligations.RlaPacketsEmitTheirRun : Prop :=
  ∀ (s : State) (p o : Nat), s.job = some (.rla p o) → s.regs.olen.toNat ≤ s.params.dstLen →
    ∀ (i : Instr) (c : Byte) (n len : Nat),
      (i = .raw c ∧ n = 1 ∧ len = 1 ∨
        (∃ m : Byte, i = .run8 c m ∧ n = (if m = 0 then s.params.zeroCount else m.toNat) ∧ len = 3) ∨
        (∃ m : Half, i = .run16 c m ∧ n = (if m = 0 then s.params.zeroCount else m.toNat) ∧ len = 4)) →
      p + len ≤ s.windowEnd → o + n ≤ s.regs.olen.toNat →
      ∃ t, exec i s = .next t ∧ t = { s with dst := t.dst, job := some (.rla (p + len) (o + n)) } ∧
        ∀ a, t.cell .dst a = if o ≤ a ∧ a < o + n then c else s.cell .dst a

/-- 42_rle_a_byte_word.md R169, R172: a packet of RLA that is cut by the end of the window, or whose run would pass
`OLEN`, raises `STRUCT`: the command stops, only `ERR` among the registers changes, and `DST` is unchanged at `OLEN` and
above. The private variables stand in State, the model's choice (log 5). -/
def Obligations.RlaPacketsRaiseStruct : Prop :=
  ∀ (s : State) (p o : Nat), s.job = some (.rla p o) →
    ∀ (i : Instr) (n len : Nat),
      ((∃ c, i = .raw c ∧ n = 1 ∧ len = 1) ∨
        (∃ c m, i = .run8 c m ∧ n = s.runLength m.toNat ∧ len = 3) ∨
        (∃ c m, i = .run16 c m ∧ n = s.runLength m.toNat ∧ len = 4)) →
      (s.windowEnd < p + len ∨ s.regs.olen.toNat < o + n) →
      ∃ t, exec i s = .next t ∧ t.regs = { s.regs with err := 2 } ∧ t.job = none ∧ t.src = s.src ∧ t.pal = s.pal ∧
        ∀ a, s.regs.olen.toNat ≤ a → t.cell .dst a = s.cell .dst a

/-- The model's choice (log 5): a packet executed while its decoder is not running is refused by name, in every state. -/
def Obligations.PacketsOutsideTheirDecoderAreRefused : Prop :=
  ∀ (i : Instr) (s : State),
    (i.decoder = .rla → (∀ p o, s.job ≠ some (.rla p o)) → exec i s = .refused .packetOutsideDecoder) ∧
    (i.decoder = .rlb → (∀ p n, s.job ≠ some (.rlbMeasure p n) ∧ s.job ≠ some (.rlbFill p n)) →
      exec i s = .refused .packetOutsideDecoder)

/-- 42_rle_a_byte_word.md R170: on a window that starts with a sequence of packets whose outputs together make exactly
`OLEN` bytes, no sooner, RLEA writes their output to `DST[0 .. OLEN)`, sets `OCNT` and leaves `POS` at the byte after the
last packet executed; what follows in the window is not consumed, whatever it is. -/
def Obligations.RleaDecodesPacketStreams : Prop :=
  ∀ (s : State) (ps : List Instr), s.regs.err = 0 → s.regs.slen.toNat ≤ s.params.srcCap →
    s.windowEnd ≤ s.regs.slen.toNat → s.regs.olen.toNat ≤ s.params.dstLen →
    isStreamOf .rla s ps → s.holds .src s.regs.pos.toNat (streamBytes s ps) →
    (streamBytes s ps).length ≤ s.regs.plen.toNat → (streamOutput s ps).length = s.regs.olen.toNat →
    (∀ qs rs, ps = qs ++ rs → rs ≠ [] → (streamOutput s qs).length < s.regs.olen.toNat) →
    ∃ t, exec .rlea s = .next t ∧ t.holds .dst 0 (streamOutput s ps) ∧
      (∀ a, s.regs.olen.toNat ≤ a → t.cell .dst a = s.cell .dst a) ∧
      t = { s with
        dst := t.dst, job := none,
        regs := { s.regs with
          ocnt := s.regs.olen, pos := BitVec.ofNat 32 (s.regs.pos.toNat + (streamBytes s ps).length) } }

/-- 42_rle_a_byte_word.md R175: RLEA inverts the encoder. `P` is any packet stream with no empty run (more than what
R166 lets an encoder emit), `X` its output, `PLEN` and `OLEN` their lengths: RLEA completes without fault, writes `X`,
sets `OCNT` to its length and advances `POS` by exactly the length of `P`. The spec marks the rule as derived. -/
def Obligations.RleaInvertsTheEncoder : Prop :=
  ∀ (s : State) (ps : List Instr), s.regs.err = 0 → s.regs.slen.toNat ≤ s.params.srcCap →
    s.windowEnd ≤ s.regs.slen.toNat → s.regs.olen.toNat ≤ s.params.dstLen →
    isStreamOf .rla s ps → (∀ i ∈ ps, packetOutput s i ≠ []) → s.holds .src s.regs.pos.toNat (streamBytes s ps) →
    s.regs.plen.toNat = (streamBytes s ps).length → s.regs.olen.toNat = (streamOutput s ps).length →
    ∃ t, exec .rlea s = .next t ∧ t.regs.err = 0 ∧ t.holds .dst 0 (streamOutput s ps) ∧
      t.regs.ocnt.toNat = (streamOutput s ps).length ∧
      t.regs.pos.toNat = s.regs.pos.toNat + (streamBytes s ps).length

/-- 42_rle_a_byte_word.md R170: RLEA that completes has produced exactly `OLEN` bytes and left `POS` inside the window or
at its end, where it was when `OLEN` = 0; on a window that is a sequence of packets with fewer than `OLEN` bytes of output
(an empty window with `OLEN` > 0 is one) it raises `STRUCT`. -/
def Obligations.RleaCompletesWithOlenBytes : Prop :=
  (∀ s t : State, s.regs.err = 0 → exec .rlea s = .next t → t.regs.err = 0 →
    t.regs.ocnt = s.regs.olen ∧ s.regs.pos.toNat ≤ t.regs.pos.toNat ∧ t.regs.pos.toNat ≤ s.windowEnd ∧
    (s.regs.olen = 0 → t.regs.pos = s.regs.pos)) ∧
  (∀ (s : State) (ps : List Instr), s.regs.err = 0 → s.regs.slen.toNat ≤ s.params.srcCap →
    s.windowEnd ≤ s.regs.slen.toNat → s.regs.olen.toNat ≤ s.params.dstLen →
    isStreamOf .rla s ps → s.holds .src s.regs.pos.toNat (streamBytes s ps) →
    (streamBytes s ps).length = s.regs.plen.toNat → (streamOutput s ps).length < s.regs.olen.toNat →
    ∃ t, exec .rlea s = .next t ∧ t.regs = { s.regs with err := 2 })

/-- 42_rle_a_byte_word.md R172, 43_rle_b_two_dialect.md R190: when the escape byte at the pointer is inside the window
and the last byte of its packet is not, the step raises `STRUCT`, in RLEA and in both passes of RLB, whatever stands
beyond the window; only `ERR` among the registers changes, and `DST` at most below `OLEN`, not at all in the measuring
pass. The private variables stand in State, the model's choice (log 5). -/
def Obligations.TruncatedPacketRaisesStruct : Prop :=
  ∀ (s : State) (p n : Nat), s.regs.slen.toNat ≤ s.params.srcCap → s.windowEnd ≤ s.regs.slen.toNat → p < s.windowEnd →
    let b0 := s.cell .src p
    let cutA := b0 = s.regs.key1 ∧ s.windowEnd < p + 3 ∨
      b0 ≠ s.regs.key1 ∧ b0 = s.regs.key2 ∧ s.windowEnd < p + 4
    let cutB := b0 = s.regs.esc ∧ s.windowEnd < p + 3
    (s.job = some (.rla p n) ∧ n < s.regs.olen.toNat ∧ cutA ∨
      s.job = some (.rlbMeasure p n) ∧ cutB ∨ s.job = some (.rlbFill p n) ∧ cutB) →
    ∃ t, step s = .next t ∧ t.regs = { s.regs with err := 2 } ∧ t.job = none ∧ t.src = s.src ∧ t.pal = s.pal ∧
      (s.job = some (.rlbMeasure p n) → t.dst = s.dst) ∧
      ∀ a, s.regs.olen.toNat ≤ a → t.cell .dst a = s.cell .dst a

/-- 10_state.md R28 ("none share state"): RLEA does not read `ESC` or `RLECTL`, and RLEBM and RLEBF do not read `KEY1` or
`KEY2`: with other values in them the command does the same thing and leaves those values. -/
def Obligations.RleDecodersShareNoKeys : Prop :=
  ∀ (s : State) (a b : Byte) (o : BitVec 1),
    (∀ t, exec .rlea s = .next t →
      exec .rlea { s with regs := { s.regs with esc := a, rlectl := o } } =
        .next { t with regs := { t.regs with esc := a, rlectl := o } }) ∧
    (∀ i t, i = .rlebm ∨ i = .rlebf → exec i s = .next t →
      exec i { s with regs := { s.regs with key1 := a, key2 := b } } =
        .next { t with regs := { t.regs with key1 := a, key2 := b } })

/-- 42_rle_a_byte_word.md R172, 43_rle_b_two_dialect.md R190: a run-length command does not depend on any byte of `SRC`
outside the window `[POS, POS + PLEN)`, not even to find a packet cut. -/
def Obligations.RleCommandsReadOnlyTheWindow : Prop :=
  ∀ (s t : State) (m : Memory) (i : Instr), i = .rlea ∨ i = .rlebm ∨ i = .rlebf →
    (∀ a, s.regs.pos.toNat ≤ a → a < s.windowEnd → State.cell { s with src := m } .src a = s.cell .src a) →
    exec i s = .next t → exec i { s with src := m } = .next { t with src := m }

/-- 00_scope.md R5, R8: a run-length command, atomic to the host, is its prologue followed by packet steps of the
machine run to the end of the job: at most `PLEN` packets and one more turn (70_reset_and_hazards.md R292). The private
variables stand in State, the model's choice (log 5). -/
def Obligations.RleCommandsAreTheirPacketSteps : Prop :=
  ∀ s : State, s.regs.err = 0 → s.regs.slen.toNat ≤ s.params.srcCap → s.windowEnd ≤ s.regs.slen.toNat →
    (s.regs.olen.toNat ≤ s.params.dstLen →
      ∃ k ≤ s.regs.plen.toNat + 1,
        exec .rlea s = Host.Core.run Sys2Proof.core k { s with job := some (.rla s.regs.pos.toNat 0) }) ∧
    (∃ k ≤ s.regs.plen.toNat + 1,
      exec .rlebm s = Host.Core.run Sys2Proof.core k { s with job := some (.rlbMeasure s.regs.pos.toNat 0) }) ∧
    (s.regs.olen.toNat ≤ s.params.dstLen →
      ∃ k ≤ s.regs.plen.toNat + 1,
        exec .rlebf s = Host.Core.run Sys2Proof.core k { s with job := some (.rlbFill s.regs.pos.toNat 0) })

/-! ## RLE decoder B -/

/-- 43_rle_b_two_dialect.md R186, R187, R191: in pass 1 a packet inside the window adds its run to the running length,
raises `RESOURCE` when the length would not fit `MLEN`, and `STRUCT` when the packet is cut by the end of the window.
The private variables stand in State, the model's choice (log 5). -/
def Obligations.RlbPacketsMeasureTheirRun : Prop :=
  ∀ (s : State) (p l : Nat), s.job = some (.rlbMeasure p l) →
    ∀ (i : Instr) (n len : Nat),
      ((∃ v, i = .lit v ∧ n = 1 ∧ len = 1) ∨ (∃ v m, i = .runb v m ∧ n = s.runLength m.toNat ∧ len = 3)) →
      (p + len ≤ s.windowEnd → l + n ≤ 2 ^ 32 - 1 →
        exec i s = .next { s with job := some (.rlbMeasure (p + len) (l + n)) }) ∧
      (p + len ≤ s.windowEnd → 2 ^ 32 - 1 < l + n →
        exec i s = .next { s with regs := { s.regs with err := 4 }, job := none }) ∧
      (s.windowEnd < p + len → exec i s = .next { s with regs := { s.regs with err := 2 }, job := none })

/-- 43_rle_b_two_dialect.md R186, R187, R192: in pass 2 a packet inside the window writes its run at the output index,
and raises `STRUCT` when the run would pass `OLEN` or the packet is cut. The private variables stand in State, the
model's choice (log 5). -/
def Obligations.RlbPacketsFillTheirRun : Prop :=
  ∀ (s : State) (p o : Nat), s.job = some (.rlbFill p o) → s.regs.olen.toNat ≤ s.params.dstLen →
    ∀ (i : Instr) (v : Byte) (n len : Nat),
      (i = .lit v ∧ n = 1 ∧ len = 1 ∨ (∃ m, i = .runb v m ∧ n = s.runLength m.toNat ∧ len = 3)) →
      (p + len ≤ s.windowEnd → o + n ≤ s.regs.olen.toNat →
        ∃ t, exec i s = .next t ∧ t = { s with dst := t.dst, job := some (.rlbFill (p + len) (o + n)) } ∧
          ∀ a, t.cell .dst a = if o ≤ a ∧ a < o + n then v else s.cell .dst a) ∧
      (s.windowEnd < p + len ∨ s.regs.olen.toNat < o + n →
        ∃ t, exec i s = .next t ∧ t.regs = { s.regs with err := 2 } ∧ t.job = none ∧ t.src = s.src ∧ t.pal = s.pal ∧
          ∀ a, s.regs.olen.toNat ≤ a → t.cell .dst a = s.cell .dst a)

/-- 43_rle_b_two_dialect.md R191: on a window that is a sequence of packets, RLEBM puts the length of their output into
`MLEN` and changes nothing else; when it does not fit it raises `RESOURCE` and `MLEN` keeps its value. -/
def Obligations.RlebmMeasuresPacketStreams : Prop :=
  ∀ (s : State) (ps : List Instr), s.regs.err = 0 → s.job = none → s.regs.slen.toNat ≤ s.params.srcCap →
    s.windowEnd ≤ s.regs.slen.toNat → isStreamOf .rlb s ps → s.holds .src s.regs.pos.toNat (streamBytes s ps) →
    (streamBytes s ps).length = s.regs.plen.toNat →
    ((streamOutput s ps).length ≤ 2 ^ 32 - 1 → exec .rlebm s =
      .next { s with regs := { s.regs with mlen := BitVec.ofNat 32 (streamOutput s ps).length } }) ∧
    (2 ^ 32 - 1 < (streamOutput s ps).length → exec .rlebm s = .next { s with regs := { s.regs with err := 4 } })

/-- 43_rle_b_two_dialect.md R192: on a window that is a sequence of packets whose output fits `OLEN`, RLEBF writes it to
`DST[0 ..)`, sets `OCNT` to its length (which may be below `OLEN`: no fault) and advances `POS` by `PLEN`; every other
cell and register is unchanged. When the output would pass `OLEN` it raises `STRUCT` and only `ERR` among the registers
changes. -/
def Obligations.RlebfFillsPacketStreams : Prop :=
  ∀ (s : State) (ps : List Instr), s.regs.err = 0 → s.job = none → s.regs.slen.toNat ≤ s.params.srcCap →
    s.windowEnd ≤ s.regs.slen.toNat → s.regs.olen.toNat ≤ s.params.dstLen →
    isStreamOf .rlb s ps → s.holds .src s.regs.pos.toNat (streamBytes s ps) →
    (streamBytes s ps).length = s.regs.plen.toNat →
    ((streamOutput s ps).length ≤ s.regs.olen.toNat →
      ∃ t, exec .rlebf s = .next t ∧ t.holds .dst 0 (streamOutput s ps) ∧
        (∀ a, (streamOutput s ps).length ≤ a → t.cell .dst a = s.cell .dst a) ∧
        t = { s with
          dst := t.dst,
          regs := { s.regs with
            ocnt := BitVec.ofNat 32 (streamOutput s ps).length, pos := BitVec.ofNat 32 s.windowEnd } }) ∧
    (s.regs.olen.toNat < (streamOutput s ps).length →
      ∃ t, exec .rlebf s = .next t ∧ t.regs = { s.regs with err := 2 })

/-- 43_rle_b_two_dialect.md R193: if RLEBM completes with `MLEN` = m, then RLEBF in any later state with the same
window, configuration and `SLEN`, with `OLEN` = m and m within `DST_LEN`, completes without fault and `OCNT` = m. It
holds for every window on which pass 1 does not fault. The spec marks the rule as derived. -/
def Obligations.MeasureEqualsFill : Prop :=
  ∀ s t u : State, s.regs.err = 0 → exec .rlebm s = .next t → t.regs.err = 0 →
    u.regs.err = 0 → u.params = s.params → u.regs.pos = s.regs.pos → u.regs.plen = s.regs.plen →
    u.regs.slen = s.regs.slen → u.regs.esc = s.regs.esc → u.regs.rlectl = s.regs.rlectl →
    (∀ a, s.regs.pos.toNat ≤ a → a < s.windowEnd → u.cell .src a = s.cell .src a) →
    u.regs.olen = t.regs.mlen → t.regs.mlen.toNat ≤ u.params.dstLen →
    ∃ v, exec .rlebf u = .next v ∧ v.regs.err = 0 ∧ v.regs.ocnt = t.regs.mlen

/-! ## The bit-plane unpacker -/

/-- 44_bitplane_unpacker.md R207, R208, R210: with the plane count legal, the planes readable and `DST` large enough, BPLX
writes pixel `(xp, y)` to `DST[y * WIDTH + xp]`, sets `OCNT`, and changes nothing else. The pixel is spelled out with
division and remainder: bit offset `k = y * LINEBITS + xp` of plane `p` is in byte `k / 8` of the plane, bit `7 - k mod 8`
(`BITORD` = 0) or `k mod 8` (1), and weighs `2^p` (`PLORD` = 0) or `2^(NP-1-p)` (1). -/
def Obligations.BplxUnpacksPixels : Prop :=
  ∀ s : State, s.regs.err = 0 → s.regs.slen.toNat ≤ s.params.srcCap →
    let w := s.regs.width.toNat
    let h := s.regs.height.toNat
    let np := s.regs.bplctl.toNat % 16
    let lsbFirst := s.regs.bplctl.toNat / 16 % 2 = 1
    let zeroIsMost := s.regs.bplctl.toNat / 32 % 2 = 1
    let base := fun p => (s.regs.plb[p]?.getD 0).toNat
    let bit := fun p k => (s.cell .src (base p + k / 8)).toNat / 2 ^ (if lsbFirst then k % 8 else 7 - k % 8) % 2
    let pixel := fun xp y => ((List.range np).map (fun p =>
      bit p (y * s.regs.linebits.toNat + xp) * 2 ^ (if zeroIsMost then np - 1 - p else p))).sum
    (np = 1 ∨ np = 2 ∨ np = 4 ∨ np = 8) →
    (0 < w → 0 < h → ∀ p, p < np →
      base p + ((h - 1) * s.regs.linebits.toNat + (w - 1)) / 8 + 1 ≤ s.regs.slen.toNat) →
    w * h ≤ s.params.dstLen →
    ∃ t, exec .bplx s = .next t ∧
      t = { s with dst := t.dst, regs := { s.regs with ocnt := BitVec.ofNat 32 (w * h) } } ∧
      (∀ xp y, xp < w → y < h → (t.cell .dst (y * w + xp)).toNat = pixel xp y) ∧
      ∀ a, w * h ≤ a → t.cell .dst a = s.cell .dst a

/-- 44_bitplane_unpacker.md R208, R210: every output byte of a completed BPLX is below `2^NP`. -/
def Obligations.BplxOutputsBelowPlaneLimit : Prop :=
  ∀ s t : State, s.regs.err = 0 → exec .bplx s = .next t → t.regs.err = 0 →
    ∀ a, a < s.regs.width.toNat * s.regs.height.toNat → (t.cell .dst a).toNat < 2 ^ s.regs.np

/-! ## The address descrambler -/

/-- 45_address_descrambler.md R221, R224: ADRMAP, code 0x60, puts `A(BASE, COLUMNS, Y)` into `ADDR`, exactly (it fits), and changes
nothing else. The three steps are spelled out on naturals, with `t` not truncated. -/
def Obligations.AdrmapComputesScrambledAddress : Prop :=
  decodeCommand 0x60 = .ok .adrmap ∧ ∀ s : State, s.regs.err = 0 →
    let t := s.regs.base.toNat + s.regs.y.toNat / 8 * s.regs.columns.toNat
    let u := (t &&& 0xC7FF) ||| ((t &&& 0x800) * 8)
    let a := u + s.regs.y.toNat % 8 * 2048
    exec .adrmap s = .next { s with regs := { s.regs with addr := BitVec.ofNat 16 a } } ∧ a < 65536

/-- 45_address_descrambler.md R222: `A` is below 65536 for all inputs, and its final addition never carries. The spec
marks the rule as derived. -/
def Obligations.ScrambledAddressFitsSixteenBits : Prop :=
  ∀ base columns y : Nat,
    let t := base + (y >>> 3) * columns
    let u := (t &&& 0xC7FF) ||| ((t &&& 0x800) <<< 3)
    scramble base columns y < 65536 ∧ scramble base columns y = u ||| ((y &&& 7) <<< 11)

/-- 45_address_descrambler.md R223: the bit fields of `A`. The spec marks the rule as derived. -/
def Obligations.ScrambledAddressBitFields : Prop :=
  ∀ base columns y : Nat,
    let t := base + (y >>> 3) * columns
    let a := scramble base columns y
    a.testBit 15 = t.testBit 15 ∧ a.testBit 14 = (t.testBit 14 || t.testBit 11) ∧
    (∀ j < 3, a.testBit (11 + j) = y.testBit j) ∧ (∀ j < 11, a.testBit j = t.testBit j)

/-- 45_address_descrambler.md R229: the three steps are exact, and the formula without the mask step differs whenever `t` has any of bits 11, 12, 13 or a
bit above 15 set. -/
def Obligations.UnmaskedFormulaIsNotTheScramble : Prop :=
  ∀ base columns y : Nat,
    let t := base + (y >>> 3) * columns
    scramble base columns y = ((t &&& 0xC7FF) ||| ((t &&& 0x800) <<< 3)) + ((y &&& 7) <<< 11) ∧
    ((t.testBit 11 = true ∨ t.testBit 12 = true ∨ t.testBit 13 = true ∨ 65536 ≤ t) →
      scramble base columns y ≠ t + (y &&& 7) * 2048)

/-- 45_address_descrambler.md R230, the rule's own example: for `BASE` = 0xC000, `COLUMNS` = 80, `HEIGHT` = 200 the map
`(y, i) -> A(y) + i` is injective and its addresses lie in `[0xC000, 0xFFCF]`. The spec marks the rule as derived. -/
def Obligations.ExampleScreenIsScatteredInjectively : Prop :=
  (∀ y i : Nat, y < 200 → i < 80 → 0xC000 ≤ scramble 0xC000 80 y + i ∧ scramble 0xC000 80 y + i ≤ 0xFFCF) ∧
  ∀ y i y' i' : Nat, y < 200 → i < 80 → y' < 200 → i' < 80 →
    scramble 0xC000 80 y + i = scramble 0xC000 80 y' + i' → y = y' ∧ i = i'

/-- 45_address_descrambler.md R225, R226, R228: with every scanline inside the image and `DST` large enough, ADRGAT writes
the byte at hardware address `A(y) + i` to `DST[y * COLUMNS + i]`, sets `OCNT`, and changes nothing else. -/
def Obligations.AdrgatGathersScanlines : Prop :=
  ∀ s : State, s.regs.err = 0 → s.regs.slen.toNat ≤ s.params.srcCap →
    let c := s.regs.columns.toNat
    let h := s.regs.height.toNat
    let a := fun y => scramble s.regs.base.toNat c y
    (0 < c → ∀ y, y < h → s.regs.org.toNat ≤ a y ∧ a y - s.regs.org.toNat + c ≤ s.regs.slen.toNat) →
    h * c ≤ s.params.dstLen →
    ∃ t, exec .adrgat s = .next t ∧
      t = { s with dst := t.dst, regs := { s.regs with ocnt := BitVec.ofNat 32 (h * c) } } ∧
      (∀ y i, y < h → i < c → t.cell .dst (y * c + i) = s.cell .src (a y + i - s.regs.org.toNat)) ∧
      ∀ b, h * c ≤ b → t.cell .dst b = s.cell .dst b

/-! ## The whole machine -/

/-- The invariant of Safety.lean is kept by every step, from every state that meets it. The invariant is the model's
own. -/
def Obligations.StepKeepsInvariant : Prop :=
  ∀ s t : State, Inv s → step s = .next t → Inv t

/-- The state right after power-on meets the invariant. Its capacities are the model's choice (log 2). -/
def Obligations.ResetMeetsInvariant : Prop := Inv State.reset

/-- 20_memory.md R72, R78, R79: from a state that meets the invariant no step makes an out-of-range access or stops for
any other reason, unless the host itself names a cell that does not exist. The invariant, and the stop for a cell that
does not exist (log 10), are the model's own. -/
def Obligations.InvariantStatesStepSafely : Prop :=
  ∀ s : State, Inv s → s.nextAccessValid → safeStep s

/-- 70_reset_and_hazards.md R292, 10_state.md R33: every command completes in a next state, from every state that runs
no other, whatever the registers and memories hold, and nothing transient survives it. The spec marks the rule as
derived. -/
def Obligations.EveryCommandCompletes : Prop :=
  ∀ (i : Instr) (s : State), i.decoder = .command → s.job = none → ∃ t, exec i s = .next t ∧ t.job = none

/-- 10_state.md R29 to R31: no instruction changes `SRC`, the parameters or the host's list; `PALRAM` is changed by PAL68
and PAL86 only; `DST` by the five output commands and the packets of a fill only. -/
def Obligations.InstructionsWriteOnlyTheirMemory : Prop :=
  ∀ (i : Instr) (s t : State), exec i s = .next t →
    t.src = s.src ∧ t.params = s.params ∧ t.inbox = s.inbox ∧ t.reply = s.reply ∧
    (i.writesPal = false → t.pal = s.pal) ∧
    (i.decoder = .command → i.writesDst = false → t.dst = s.dst)

/-- 10_state.md R22, R23, the "written by" column: `VAL`, `MLEN`, `OCNT` and `ADDR` are written only by their commands,
`POS` only by the commands that read the stream, and no instruction but RESET writes a control register. -/
def Obligations.RegistersWrittenOnlyByTheirCommands : Prop :=
  ∀ (i : Instr) (s t : State), i.decoder = .command → i ≠ .reset → exec i s = .next t →
    (i.readsInteger = false → t.regs.val = s.regs.val) ∧
    (i ≠ .rlebm → t.regs.mlen = s.regs.mlen) ∧
    (i.writesDst = false → t.regs.ocnt = s.regs.ocnt) ∧
    (i ≠ .adrmap → t.regs.addr = s.regs.addr) ∧
    (i.readsInteger = false → i ≠ .rdbuf → i ≠ .rlea → i ≠ .rlebf → t.regs.pos = s.regs.pos) ∧
    (∀ n, n ≠ 0x02 → regAccess n = .readWrite → readReg t.regs n = readReg s.regs n)

/-- 10_state.md R25: how each command that completes without fault advances `POS`; RLEA's advance is RleaDecodesPacketStreams
and RleaCompletesWithOlenBytes. A command that faults leaves it. -/
def Obligations.PositionAdvanceOfEachCommand : Prop :=
  ∀ (i : Instr) (s t : State), i.decoder = .command → s.regs.err = 0 → exec i s = .next t →
    (t.regs.err ≠ 0 → t.regs.pos = s.regs.pos) ∧
    (t.regs.err = 0 →
      (i = .rd8 → t.regs.pos.toNat = s.regs.pos.toNat + 1) ∧
      (i = .rd16le ∨ i = .rd16be → t.regs.pos.toNat = s.regs.pos.toNat + 2) ∧
      (i = .rd32le ∨ i = .rd32be → t.regs.pos.toNat = s.regs.pos.toNat + 4) ∧
      (i = .rdbuf → t.regs.pos.toNat = s.regs.pos.toNat + s.regs.olen.toNat) ∧
      (i = .rlebf → t.regs.pos.toNat = s.regs.pos.toNat + s.regs.plen.toNat) ∧
      (i = .reset → t.regs.pos = 0) ∧
      (i.readsInteger = false → i ≠ .rdbuf → i ≠ .rlea → i ≠ .rlebf → i ≠ .reset → t.regs.pos = s.regs.pos))

/-- 10_state.md R31: an output command that completes without fault writes `DST[0 .. OCNT)` and no other cell, and `OCNT`
is within `DST_LEN`. -/
def Obligations.OutputCommandsWriteAPrefixOfDst : Prop :=
  ∀ (i : Instr) (s t : State), i.writesDst = true → s.regs.err = 0 → exec i s = .next t → t.regs.err = 0 →
    t.regs.ocnt.toNat ≤ s.params.dstLen ∧
    ∀ a, t.regs.ocnt.toNat ≤ a → t.cell .dst a = s.cell .dst a

/-- 20_memory.md R69: RLEBM, BPLX, ADRMAP and ADRGAT are idempotent: run again, they change nothing. The spec marks the
rule as derived. -/
def Obligations.MeasuringAndGatheringAreIdempotent : Prop :=
  ∀ (i : Instr) (s t : State), i = .rlebm ∨ i = .bplx ∨ i = .adrmap ∨ i = .adrgat → s.job = none →
    s.regs.err = 0 → exec i s = .next t → exec i t = .next t
end

