-- ==== Sys2Proof/Laws/Memory.lean ====
section
/-! SUPPORT. Memory: one lookup law for the block write (read after write, and every other address alone), and that the
write keeps the canonical form and the bounds of its space. -/

namespace Sys2Proof.Machine

theorem Memory.lookup_append (m₁ m₂ : Memory) (x : Nat) :
    Memory.lookup (m₁ ++ m₂) x = (Memory.lookup m₁ x).or (Memory.lookup m₂ x) := by
  induction m₁ with
  | nil => simp [Memory.lookup]
  | cons c m ih =>
    simp only [List.cons_append, Memory.lookup]
    split
    · simp
    · exact ih

theorem Memory.lookup_filter (m : Memory) (p : Nat → Bool) (x : Nat) :
    Memory.lookup (m.filter (fun c => p c.1)) x = if p x then Memory.lookup m x else none := by
  induction m with
  | nil => simp [Memory.lookup]
  | cons c m ih =>
    by_cases hc : p c.1
    · rw [List.filter_cons_of_pos (by simpa using hc)]
      simp only [Memory.lookup]
      split
      · rename_i h; subst h; simp [hc]
      · exact ih
    · rw [List.filter_cons_of_neg (by simpa using hc), ih]
      by_cases hx : c.1 = x
      · subst hx; simp [hc]
      · simp [Memory.lookup, hx]

theorem lookup_blockCells (a : Nat) (bs : List Byte) (x : Nat) :
    Memory.lookup (blockCells a bs) x = if a ≤ x then bs[x - a]? else none := by
  induction bs generalizing a with
  | nil => simp [blockCells, Memory.lookup]
  | cons b bs ih =>
    simp only [blockCells, Memory.lookup, ih]
    by_cases h : a = x
    · simp [h]
    · by_cases h' : a ≤ x
      · obtain ⟨d, rfl⟩ : ∃ d, x = a + 1 + d := ⟨x - (a + 1), by omega⟩
        have : a + 1 + d - a = d + 1 := by omega
        simp [this, show a ≤ a + 1 + d by omega, show a ≠ a + 1 + d by omega]
      · simp [h, h', show ¬ a + 1 ≤ x by omega]

/-- Read after write: inside the block the written bytes, elsewhere what was there. -/
theorem Memory.lookup_writeBlock (m : Memory) (a : Nat) (bs : List Byte) (x : Nat) :
    (m.writeBlock a bs).lookup x = if a ≤ x ∧ x < a + bs.length then bs[x - a]? else m.lookup x := by
  unfold Memory.writeBlock
  rw [Memory.lookup_append, Memory.lookup_append,
    Memory.lookup_filter m (fun k => decide (k < a)), Memory.lookup_filter m (fun k => decide (a + bs.length ≤ k)),
    lookup_blockCells]
  by_cases h1 : x < a
  · simp [h1, show ¬ a ≤ x by omega, show ¬ a + bs.length ≤ x by omega]
  · by_cases h2 : a + bs.length ≤ x
    · have : bs[x - a]? = none := List.getElem?_eq_none (by omega)
      simp [h1, h2, this, show ¬ x < a + bs.length by omega]
    · have : x - a < bs.length := by omega
      simp [h1, h2, show a ≤ x by omega, show x < a + bs.length by omega]

theorem blockCells_bounds (a : Nat) (bs : List Byte) : ∀ c ∈ blockCells a bs, a ≤ c.1 ∧ c.1 < a + bs.length := by
  induction bs generalizing a with
  | nil => simp [blockCells]
  | cons b bs ih =>
    intro c hc
    rcases List.mem_cons.mp hc with rfl | hc
    · simp
    · have := ih (a + 1) c hc
      simp only [List.length_cons]; omega

theorem blockCells_wf (a : Nat) (bs : List Byte) : Memory.wf (blockCells a bs) := by
  induction bs generalizing a with
  | nil => simp [blockCells]
  | cons b bs ih =>
    refine List.pairwise_cons.mpr ⟨fun c hc => ?_, ih (a + 1)⟩
    have := blockCells_bounds (a + 1) bs c hc
    show a < c.1
    omega

/-- The block write keeps the canonical form. -/
theorem Memory.writeBlock_wf {m : Memory} (h : m.wf) (a : Nat) (bs : List Byte) : (m.writeBlock a bs).wf := by
  unfold Memory.writeBlock Memory.wf
  refine List.pairwise_append.mpr ⟨h.filter _, List.pairwise_append.mpr ⟨blockCells_wf a bs, h.filter _, ?_⟩, ?_⟩
  · intro c hc d hd
    have := blockCells_bounds a bs c hc
    simp only [List.mem_filter, decide_eq_true_eq] at hd
    omega
  · intro c hc d hd
    simp only [List.mem_filter, decide_eq_true_eq] at hc
    rcases List.mem_append.mp hd with hd | hd
    · have := blockCells_bounds a bs d hd
      omega
    · simp only [List.mem_filter, decide_eq_true_eq] at hd
      omega

/-- The block write stays inside the space the block is inside of. -/
theorem Memory.writeBlock_inside {m : Memory} {size : Nat} (h : m.inside size) {a : Nat} {bs : List Byte}
    (hb : bs.length = 0 ∨ a + bs.length ≤ size) : (m.writeBlock a bs).inside size := by
  intro c hc
  unfold Memory.writeBlock at hc
  simp only [List.mem_append] at hc
  rcases hc with hc | hc | hc
  · exact h c (List.mem_of_mem_filter hc)
  · have := blockCells_bounds a bs c hc
    omega
  · exact h c (List.mem_of_mem_filter hc)

/-- Writing the same block twice is writing it once. -/
theorem Memory.writeBlock_twice (m : Memory) (a : Nat) (bs : List Byte) :
    (m.writeBlock a bs).writeBlock a bs = m.writeBlock a bs := by
  have hlow : (blockCells a bs).filter (fun c => decide (c.1 < a)) = [] := by
    rw [List.filter_eq_nil_iff]
    intro c hc
    have := blockCells_bounds a bs c hc
    simp; omega
  have hhigh : (blockCells a bs).filter (fun c => decide (a + bs.length ≤ c.1)) = [] := by
    rw [List.filter_eq_nil_iff]
    intro c hc
    have := blockCells_bounds a bs c hc
    simp; omega
  have hlh : (m.filter (fun c => decide (a + bs.length ≤ c.1))).filter (fun c => decide (c.1 < a)) = [] := by
    rw [List.filter_eq_nil_iff]
    intro c hc
    simp only [List.mem_filter, decide_eq_true_eq] at hc
    simp; omega
  have hhl : (m.filter (fun c => decide (c.1 < a))).filter (fun c => decide (a + bs.length ≤ c.1)) = [] := by
    rw [List.filter_eq_nil_iff]
    intro c hc
    simp only [List.mem_filter, decide_eq_true_eq] at hc
    simp; omega
  have hll : (m.filter (fun c => decide (c.1 < a))).filter (fun c => decide (c.1 < a)) =
      m.filter (fun c => decide (c.1 < a)) := by simp
  have hhh : (m.filter (fun c => decide (a + bs.length ≤ c.1))).filter (fun c => decide (a + bs.length ≤ c.1)) =
      m.filter (fun c => decide (a + bs.length ≤ c.1)) := by simp
  unfold Memory.writeBlock
  rw [List.filter_append, List.filter_append, List.filter_append, List.filter_append, hlow, hhigh, hlh, hhl, hll, hhh]
  simp

/-! ## Cells of a state -/

theorem State.cell_src_congr {s t : State} (h : t.src = s.src) (a : Nat) : t.cell .src a = s.cell .src a := by
  simp [State.cell, State.mem, h]

theorem State.cell_dst_congr {s t : State} (h : t.dst = s.dst) (a : Nat) : t.cell .dst a = s.cell .dst a := by
  simp [State.cell, State.mem, h]

theorem State.cell_pal_congr {s t : State} (h : t.pal = s.pal) (a : Nat) : t.cell .pal a = s.cell .pal a := by
  simp [State.cell, State.mem, h]

/-- The cells of a space whose memory is another's after a block write. -/
theorem State.cell_of_writeBlock {s t : State} {sp : Space} {a : Nat} {bs : List Byte}
    (h : t.mem sp = (s.mem sp).writeBlock a bs) (x : Nat) :
    t.cell sp x = if a ≤ x ∧ x < a + bs.length then bs[x - a]?.getD 0 else s.cell sp x := by
  unfold State.cell
  rw [h, Memory.lookup_writeBlock]
  split
  · rename_i hx
    have : x - a < bs.length := by omega
    simp [this]
  · rfl

@[simp] theorem State.cells_length (s : State) (sp : Space) (a n : Nat) : (s.cells sp a n).length = n := by
  simp [State.cells]

theorem State.cells_getElem? (s : State) (sp : Space) (a n j : Nat) :
    (s.cells sp a n)[j]? = if j < n then some (s.cell sp (a + j)) else none := by
  unfold State.cells
  by_cases h : j < n
  · simp [h]
  · simp [h]

/-- A state holds `bs` at `a` exactly when each of its bytes is in its cell. -/
theorem State.holds_iff (s : State) (sp : Space) (a : Nat) (bs : List Byte) :
    s.holds sp a bs ↔ ∀ j < bs.length, s.cell sp (a + j) = bs[j]?.getD 0 := by
  unfold State.holds
  constructor
  · intro h j hj
    have := congrArg (fun l => l[j]?) h
    simp only [State.cells_getElem?, hj, if_true] at this
    rw [← this]; rfl
  · intro h
    apply List.ext_getElem?
    intro j
    rw [State.cells_getElem?]
    split
    · rename_i hj
      rw [h j hj]; simp [hj]
    · rename_i hj
      simp [List.getElem?_eq_none (Nat.le_of_not_lt hj)]

theorem State.cells_append (s : State) (sp : Space) (a n m : Nat) :
    s.cells sp a (n + m) = s.cells sp a n ++ s.cells sp (a + n) m := by
  apply List.ext_getElem?
  intro j
  rw [List.getElem?_append, State.cells_getElem?, State.cells_getElem?, State.cells_getElem?, State.cells_length]
  by_cases h : j < n
  · simp [h, show j < n + m by omega]
  · by_cases h' : j < n + m
    · have : a + n + (j - n) = a + j := by omega
      simp [h, h', show j - n < m by omega, this]
    · simp [h, h', show ¬ j - n < m by omega]

end Sys2Proof.Machine
end

