-- ==== Sys2Proof/Laws/State.lean ====
section
/-! SUPPORT. State: for each named update of a state, what it does to each field, by `rfl`. -/

namespace Sys2Proof.Machine

section setMem

@[simp] theorem setMem_params (s : State) (sp : Space) (m : Memory) : (s.setMem sp m).params = s.params := by cases sp <;> rfl
@[simp] theorem setMem_regs (s : State) (sp : Space) (m : Memory) : (s.setMem sp m).regs = s.regs := by cases sp <;> rfl
@[simp] theorem setMem_job (s : State) (sp : Space) (m : Memory) : (s.setMem sp m).job = s.job := by cases sp <;> rfl
@[simp] theorem setMem_inbox (s : State) (sp : Space) (m : Memory) : (s.setMem sp m).inbox = s.inbox := by cases sp <;> rfl
@[simp] theorem setMem_reply (s : State) (sp : Space) (m : Memory) : (s.setMem sp m).reply = s.reply := by cases sp <;> rfl
@[simp] theorem setMem_draws (s : State) (sp : Space) (m : Memory) : (s.setMem sp m).draws = s.draws := by cases sp <;> rfl
@[simp] theorem setMem_mem_self (s : State) (sp : Space) (m : Memory) : (s.setMem sp m).mem sp = m := by cases sp <;> rfl
theorem setMem_mem_other (s : State) (sp sp' : Space) (m : Memory) (h : sp' ≠ sp) :
    (s.setMem sp m).mem sp' = s.mem sp' := by
  cases sp <;> cases sp' <;> first | rfl | exact absurd rfl h
@[simp] theorem setMem_spaceSize (s : State) (sp sp' : Space) (m : Memory) :
    (s.setMem sp m).spaceSize sp' = s.spaceSize sp' := by cases sp <;> cases sp' <;> rfl

end setMem

section smearDst

@[simp] theorem smearDst_params (s : State) : (smearDst s).params = s.params := rfl
@[simp] theorem smearDst_regs (s : State) : (smearDst s).regs = s.regs := rfl
@[simp] theorem smearDst_src (s : State) : (smearDst s).src = s.src := rfl
@[simp] theorem smearDst_pal (s : State) : (smearDst s).pal = s.pal := rfl
@[simp] theorem smearDst_job (s : State) : (smearDst s).job = s.job := rfl
@[simp] theorem smearDst_inbox (s : State) : (smearDst s).inbox = s.inbox := rfl
@[simp] theorem smearDst_reply (s : State) : (smearDst s).reply = s.reply := rfl
@[simp] theorem smearDst_draws (s : State) : (smearDst s).draws = s.draws + 1 := rfl

end smearDst

section returnFromFault

@[simp] theorem returnFromFault_params (s : State) : (returnFromFault s).params = s.params := rfl
@[simp] theorem returnFromFault_err (s : State) : (returnFromFault s).regs.err = 0 := rfl
@[simp] theorem returnFromFault_pos (s : State) : (returnFromFault s).regs.pos = s.regs.pos := rfl
@[simp] theorem returnFromFault_src (s : State) : (returnFromFault s).src = s.src := rfl
@[simp] theorem returnFromFault_dst (s : State) : (returnFromFault s).dst = s.dst := rfl
@[simp] theorem returnFromFault_pal (s : State) : (returnFromFault s).pal = s.pal := rfl
@[simp] theorem returnFromFault_job (s : State) : (returnFromFault s).job = s.job := rfl
@[simp] theorem returnFromFault_inbox (s : State) : (returnFromFault s).inbox = s.inbox := rfl

end returnFromFault

section finishJob

@[simp] theorem finishJob_params (s : State) : (finishJob s).params = s.params := by
  unfold finishJob; split <;> rfl
@[simp] theorem finishJob_src (s : State) : (finishJob s).src = s.src := by
  unfold finishJob; split <;> rfl
@[simp] theorem finishJob_dst (s : State) : (finishJob s).dst = s.dst := by
  unfold finishJob; split <;> rfl
@[simp] theorem finishJob_pal (s : State) : (finishJob s).pal = s.pal := by
  unfold finishJob; split <;> rfl
@[simp] theorem finishJob_inbox (s : State) : (finishJob s).inbox = s.inbox := by
  unfold finishJob; split <;> rfl
@[simp] theorem finishJob_reply (s : State) : (finishJob s).reply = s.reply := by
  unfold finishJob; split <;> rfl
@[simp] theorem finishJob_draws (s : State) : (finishJob s).draws = s.draws := by
  unfold finishJob; split <;> rfl
@[simp] theorem finishJob_err (s : State) : (finishJob s).regs.err = s.regs.err := by
  unfold finishJob; split <;> rfl
@[simp] theorem finishJob_job (s : State) : (finishJob s).job = none := by
  unfold finishJob; split <;> simp_all

end finishJob

end Sys2Proof.Machine
end

