-- ==== Sys2Proof/Laws/Ops.lean ====
section
/-! SUPPORT. One lemma for each shared operation, saying once what it can answer: the checked reads and writes, the
short-circuit, the range checks, taking a fault. Proofs about instructions cite these and do not unfold them. -/

namespace Sys2Proof.Machine

/-! ## Checked accesses -/

theorem readSrc_some {s : State} {a n : Nat} {bs : List Byte} (h : s.readSrc a n = some bs) :
    bs = s.cells .src a n := by
  unfold State.readSrc at h
  split at h
  · exact (Option.some.inj h).symm
  · cases h

theorem readSrc_legal {s : State} {a n : Nat} (h : a + n ≤ s.regs.slen.toNat)
    (h' : s.regs.slen.toNat ≤ s.params.srcCap) : s.readSrc a n = some (s.cells .src a n) := by
  unfold State.readSrc
  rw [if_pos (Or.inr ⟨h, h'⟩)]

theorem readSrc_zero (s : State) (a : Nat) : s.readSrc a 0 = some [] := by
  simp [State.readSrc, State.cells]

theorem readPal_legal {s : State} {a n : Nat} (h : a + n ≤ 768) : s.readPal a n = some (s.cells .pal a n) := by
  unfold State.readPal
  rw [if_pos (Or.inr (by simpa [Config.palSlots] using h))]

theorem writeDst_legal {s : State} {a : Nat} {bs : List Byte} (h : a + bs.length ≤ s.params.dstLen) :
    s.writeDst a bs = some { s with dst := s.dst.writeBlock a bs } := by
  unfold State.writeDst
  rw [if_pos (Or.inr h)]

theorem writePal_legal {s : State} {a : Nat} {bs : List Byte} (h : a + bs.length ≤ 768) :
    s.writePal a bs = some { s with pal := s.pal.writeBlock a bs } := by
  unfold State.writePal
  rw [if_pos (Or.inr (by simpa [Config.palSlots] using h))]

theorem writeDst_some {s t : State} {a : Nat} {bs : List Byte} (h : s.writeDst a bs = some t) :
    (bs.length = 0 ∨ a + bs.length ≤ s.params.dstLen) ∧ t = { s with dst := s.dst.writeBlock a bs } := by
  unfold State.writeDst at h
  split at h
  · rename_i hb; exact ⟨hb, (Option.some.inj h).symm⟩
  · cases h

theorem writePal_some {s t : State} {a : Nat} {bs : List Byte} (h : s.writePal a bs = some t) :
    (bs.length = 0 ∨ a + bs.length ≤ 768) ∧ t = { s with pal := s.pal.writeBlock a bs } := by
  unfold State.writePal at h
  split at h
  · rename_i hb; exact ⟨by simpa [Config.palSlots] using hb, (Option.some.inj h).symm⟩
  · cases h

/-- `allSome` of a list that has every element. -/
theorem allSome_map {α β : Type} (f : α → Option β) (g : α → β) (xs : List α) (h : ∀ x ∈ xs, f x = some (g x)) :
    allSome (xs.map f) = some (xs.map g) := by
  induction xs with
  | nil => rfl
  | cons x xs ih =>
    rw [List.map_cons, h x (by simp)]
    simp only [allSome, ih (fun y hy => h y (by simp [hy])), Option.map_some, List.map_cons]

/-! ## Short-circuit and range checks -/

theorem whenClear_zero {s : State} (h : s.regs.err = 0) (body : Result) : whenClear s body = body := if_pos h

theorem whenClear_set {s : State} (h : s.regs.err ≠ 0) (body : Result) : whenClear s body = .next s := if_neg h

theorem checkSlen_pass {s : State} (h : s.regs.slen.toNat ≤ s.params.srcCap) (body : Result) :
    checkSlen s body = body := by
  simp [checkSlen, Nat.not_lt.mpr h]

theorem checkSlen_fail {s : State} (h : s.params.srcCap < s.regs.slen.toNat) (body : Result) :
    checkSlen s body = raise .illegal s := by
  simp [checkSlen, h]

theorem checkStream_pass {s : State} {n : Nat} (h : s.regs.pos.toNat + n ≤ s.regs.slen.toNat) (body : Result) :
    checkStream s n body = body := by
  simp [checkStream, Nat.not_lt.mpr h]

theorem checkStream_fail {s : State} {n : Nat} (h : s.regs.slen.toNat < s.regs.pos.toNat + n) (body : Result) :
    checkStream s n body = raise .read s := by
  simp [checkStream, h]

theorem checkDst_pass {s : State} {n : Nat} (h : n ≤ s.params.dstLen) (body : Result) : checkDst s n body = body := by
  simp [checkDst, Nat.not_lt.mpr h]

theorem checkDst_fail {s : State} {n : Nat} (h : s.params.dstLen < n) (body : Result) :
    checkDst s n body = raise .resource s := by
  simp [checkDst, h]

/-! ## Taking a fault -/

/-- `raise K` where no run-length command runs. -/
theorem raise_idle {s : State} (h : s.job = none) (k : ErrKind) :
    raise k s = .next { s with regs := { s.regs with err := k.code } } := by
  cases s
  simp only at h
  subst h
  rfl

/-- The state after `raise STRUCT` from inside a run-length command: a fault state of `s` whose `DST` differs at most
below `OLEN`, and not at all in a measuring pass. -/
theorem raiseStruct_next (s : State) :
    ∃ d n, raiseStruct s = .next { s with regs := { s.regs with err := 2 }, dst := d, draws := n, job := none } ∧
      (d = s.dst ∨ (∃ p o, s.job = some (.rla p o) ∨ s.job = some (.rlbFill p o)) ∧
        ∃ bs : List Byte, bs.length = min s.regs.olen.toNat s.params.dstLen ∧ d = s.dst.writeBlock 0 bs) := by
  unfold raiseStruct
  split
  · rename_i p o hj
    exact ⟨_, _, rfl, Or.inr ⟨⟨p, o, Or.inl hj⟩, _, by simp, rfl⟩⟩
  · rename_i p o hj
    exact ⟨_, _, rfl, Or.inr ⟨⟨p, o, Or.inr hj⟩, _, by simp, rfl⟩⟩
  · exact ⟨_, _, rfl, Or.inl rfl⟩
  · exact ⟨_, _, rfl, Or.inl rfl⟩

end Sys2Proof.Machine
end

