-- ==== Sys2Proof/Laws/Stream.lean ====
section
/-! SUPPORT. The stream level, said once: what one packet does, what one turn of the decode loop does, and how the loop
ends. Claims about RLEA, RLEBM and RLEBF cite these instead of unfolding the loop. -/

namespace Sys2Proof.Machine

/-- The stream pointer of a job. -/
def Job.ptr : Job → Nat
  | .rla p _ => p
  | .rlbMeasure p _ => p
  | .rlbFill p _ => p

/-- A packet inside the window whose run fits: the pointer moves on inside the window and the run is put out. -/
inductive Progress (s : State) : Job → Memory → Job → Prop where
  | rla {p p' o n : Nat} {c : Byte} (hp : p < p') (hw : p' ≤ s.windowEnd) (ho : o < s.regs.olen.toNat)
      (hn : o + n ≤ s.regs.olen.toNat) :
      Progress s (.rla p o) (s.dst.writeBlock o (List.replicate n c)) (.rla p' (o + n))
  | measure {p p' len n : Nat} (hp : p < p') (hw : p' ≤ s.windowEnd) (hn : len + n ≤ 2 ^ 32 - 1) :
      Progress s (.rlbMeasure p len) s.dst (.rlbMeasure p' (len + n))
  | fill {p p' o n : Nat} {c : Byte} (hp : p < p') (hw : p' ≤ s.windowEnd) (hn : o + n ≤ s.regs.olen.toNat) :
      Progress s (.rlbFill p o) (s.dst.writeBlock o (List.replicate n c)) (.rlbFill p' (o + n))

/-! ## One packet -/

/-- A packet of RLA, said once: cut or overshooting it raises `STRUCT`, else its run is written. -/
theorem rlaPacket_answers {s : State} {p o : Nat} (hj : s.job = some (.rla p o))
    (hd : s.regs.olen.toNat ≤ s.params.dstLen) (c : Byte) (n len : Nat) :
    rlaPacket c n len s =
      if s.windowEnd < p + len ∨ s.regs.olen.toNat < o + n then raiseStruct s
      else .next { s with dst := s.dst.writeBlock o (List.replicate n c), job := some (.rla (p + len) (o + n)) } := by
  unfold rlaPacket emitRla
  rw [hj]
  by_cases h1 : s.windowEnd < p + len
  · simp [h1]
  · by_cases h2 : s.regs.olen.toNat < o + n
    · simp [h1, h2]
    · have : s.writeDst o (List.replicate n c) = some { s with dst := s.dst.writeBlock o (List.replicate n c) } :=
        writeDst_legal (by simp; omega)
      simp [h1, h2, this]

/-- A packet of RLB in pass 1, said once. -/
theorem rlbPacket_measures {s : State} {p l : Nat} (hj : s.job = some (.rlbMeasure p l)) (v : Byte) (n len : Nat) :
    rlbPacket v n len s =
      if s.windowEnd < p + len then raise .struct s
      else if 2 ^ 32 - 1 < l + n then raise .resource s
      else .next { s with job := some (.rlbMeasure (p + len) (l + n)) } := by
  unfold rlbPacket outMeasure raiseStruct
  rw [hj]

/-- A packet of RLB in pass 2, said once. -/
theorem rlbPacket_fills {s : State} {p o : Nat} (hj : s.job = some (.rlbFill p o))
    (hd : s.regs.olen.toNat ≤ s.params.dstLen) (v : Byte) (n len : Nat) :
    rlbPacket v n len s =
      if s.windowEnd < p + len ∨ s.regs.olen.toNat < o + n then raiseStruct s
      else .next { s with dst := s.dst.writeBlock o (List.replicate n v), job := some (.rlbFill (p + len) (o + n)) } := by
  unfold rlbPacket outFill
  rw [hj]
  by_cases h1 : s.windowEnd < p + len
  · simp [h1]
  · by_cases h2 : s.regs.olen.toNat < o + n
    · simp [h1, h2]
    · have : s.writeDst o (List.replicate n v) = some { s with dst := s.dst.writeBlock o (List.replicate n v) } :=
        writeDst_legal (by simp; omega)
      simp [h1, h2, this]

/-! ## The fetch -/

/-- RLA's decoder gives packets of RLA. -/
theorem decodeRla_kind {k : StreamKeys} {bs rest : List Byte} {i : Instr} (h : decodeRla k bs = .ok (i, rest)) :
    (∃ c, i = .raw c) ∨ (∃ c n, i = .run8 c n) ∨ (∃ c n, i = .run16 c n) := by
  unfold decodeRla at h
  split at h
  · cases h
  · split at h
    · split at h
      · injection h with h; injection h with h _; exact Or.inr (Or.inl ⟨_, _, h.symm⟩)
      · cases h
    · split at h
      · split at h
        · injection h with h; injection h with h _; exact Or.inr (Or.inr ⟨_, _, h.symm⟩)
        · cases h
      · injection h with h; injection h with h _; exact Or.inl ⟨_, h.symm⟩

/-- RLB's decoder gives packets of RLB. -/
theorem decodeRlb_kind {k : StreamKeys} {bs rest : List Byte} {i : Instr} (h : decodeRlb k bs = .ok (i, rest)) :
    (∃ v, i = .lit v) ∨ (∃ v n, i = .runb v n) := by
  unfold decodeRlb at h
  split at h
  · cases h
  · split at h
    · split at h
      · split at h <;> (injection h with h; injection h with h _; exact Or.inr ⟨_, _, h.symm⟩)
      · cases h
    · injection h with h; injection h with h _; exact Or.inl ⟨_, h.symm⟩

/-- Inside a window that lies in the stream the fetch finds a packet of the decoder or finds it cut. -/
theorem packetAt_inside {s : State} {p : Nat} (hs : s.regs.slen.toNat ≤ s.params.srcCap)
    (hw : s.windowEnd ≤ s.regs.slen.toNat) (hp : p ≤ s.windowEnd) (d : Decoder) :
    packetAt d p s =
      match decode d s.regs.keys (s.cells .src p (min 4 (s.windowEnd - p))) with
      | .ok (i, _) => .packet i
      | .error _ => .truncated := by
  simp only [packetAt, readSrc_legal (show p + min 4 (s.windowEnd - p) ≤ s.regs.slen.toNat by omega) hs] <;>
    (split <;> simp_all)

/-! ## One turn of the loop -/

theorem streamStep_turn_rla {s : State} {p o : Nat} (hj : s.job = some (.rla p o)) (hin : s.jobInside) :
    (streamFetch s = .finish ∧ streamStep execPacket s = .next (finishJob s)) ∨
    (streamStep execPacket s = raiseStruct s) ∨
    (∃ d j', streamStep execPacket s = .next { s with dst := d, job := some j' } ∧ Progress s (.rla p o) d j') := by
  simp only [State.jobInside, hj] at hin
  obtain ⟨-, hs, hw, -, hpw, hd, -⟩ := hin
  by_cases h1 : s.regs.olen.toNat ≤ o
  · left
    have : streamFetch s = .finish := by simp [streamFetch, hj, h1]
    exact ⟨this, by simp [streamStep, this]⟩
  · right
    by_cases h2 : s.windowEnd ≤ p
    · left
      have : streamFetch s = .exhausted := by simp [streamFetch, hj, h1, h2]
      simp [streamStep, this]
    · have hf : streamFetch s = packetAt .rla p s := by simp [streamFetch, hj, h1, h2]
      rw [packetAt_inside hs hw hpw] at hf
      simp only [decode] at hf
      cases hdec : decodeRla s.regs.keys (s.cells .src p (min 4 (s.windowEnd - p))) with
      | error e =>
        left
        rw [hdec] at hf
        simp [streamStep, hf]
      | ok ir =>
        obtain ⟨i, rest⟩ := ir
        rw [hdec] at hf
        simp only at hf
        have key : ∀ (c : Byte) (n len : Nat), 0 < len → execPacket i s = rlaPacket c n len s →
            streamStep execPacket s = raiseStruct s ∨
            ∃ d j', streamStep execPacket s = .next { s with dst := d, job := some j' } ∧
              Progress s (.rla p o) d j' := by
          intro c n len hlen hex
          rw [streamStep, hf]
          simp only
          rw [hex, rlaPacket_answers hj hd]
          split
          · exact Or.inl rfl
          · rename_i hn
            exact Or.inr ⟨_, _, rfl, .rla (by omega) (by omega) (by omega) (by omega)⟩
        rcases decodeRla_kind hdec with ⟨c, rfl⟩ | ⟨c, n, rfl⟩ | ⟨c, n, rfl⟩
        · exact key c 1 1 (by omega) rfl
        · exact key c _ 3 (by omega) rfl
        · exact key c _ 4 (by omega) rfl

theorem streamStep_turn_measure {s : State} {p l : Nat} (hj : s.job = some (.rlbMeasure p l)) (hin : s.jobInside) :
    (streamFetch s = .finish ∧ streamStep execPacket s = .next (finishJob s)) ∨
    (streamStep execPacket s = raiseStruct s) ∨ (streamStep execPacket s = raise .resource s) ∨
    (∃ d j', streamStep execPacket s = .next { s with dst := d, job := some j' } ∧
      Progress s (.rlbMeasure p l) d j') := by
  simp only [State.jobInside, hj] at hin
  obtain ⟨-, hs, hw, -, hpw, -⟩ := hin
  by_cases h2 : s.windowEnd ≤ p
  · left
    have : streamFetch s = .finish := by simp [streamFetch, hj, h2]
    exact ⟨this, by simp [streamStep, this]⟩
  · right
    have hf : streamFetch s = packetAt .rlb p s := by simp [streamFetch, hj, h2]
    rw [packetAt_inside hs hw hpw] at hf
    simp only [decode] at hf
    cases hdec : decodeRlb s.regs.keys (s.cells .src p (min 4 (s.windowEnd - p))) with
    | error e =>
      left
      rw [hdec] at hf
      simp [streamStep, hf]
    | ok ir =>
      obtain ⟨i, rest⟩ := ir
      rw [hdec] at hf
      simp only at hf
      have key : ∀ (v : Byte) (n len : Nat), 0 < len → execPacket i s = rlbPacket v n len s →
          streamStep execPacket s = raiseStruct s ∨ streamStep execPacket s = raise .resource s ∨
          ∃ d j', streamStep execPacket s = .next { s with dst := d, job := some j' } ∧
            Progress s (.rlbMeasure p l) d j' := by
        intro v n len hlen hex
        rw [streamStep, hf]
        simp only
        rw [hex, rlbPacket_measures hj]
        split
        · left; simp [raiseStruct, hj]
        · split
          · exact Or.inr (Or.inl rfl)
          · exact Or.inr (Or.inr ⟨s.dst, _, rfl, .measure (by omega) (by omega) (by omega)⟩)
      rcases decodeRlb_kind hdec with ⟨v, rfl⟩ | ⟨v, n, rfl⟩
      · exact key v 1 1 (by omega) rfl
      · exact key v _ 3 (by omega) rfl

theorem streamStep_turn_fill {s : State} {p o : Nat} (hj : s.job = some (.rlbFill p o)) (hin : s.jobInside) :
    (streamFetch s = .finish ∧ streamStep execPacket s = .next (finishJob s)) ∨
    (streamStep execPacket s = raiseStruct s) ∨
    (∃ d j', streamStep execPacket s = .next { s with dst := d, job := some j' } ∧
      Progress s (.rlbFill p o) d j') := by
  simp only [State.jobInside, hj] at hin
  obtain ⟨-, hs, hw, -, hpw, hd, -⟩ := hin
  by_cases h2 : s.windowEnd ≤ p
  · left
    have : streamFetch s = .finish := by simp [streamFetch, hj, h2]
    exact ⟨this, by simp [streamStep, this]⟩
  · right
    have hf : streamFetch s = packetAt .rlb p s := by simp [streamFetch, hj, h2]
    rw [packetAt_inside hs hw hpw] at hf
    simp only [decode] at hf
    cases hdec : decodeRlb s.regs.keys (s.cells .src p (min 4 (s.windowEnd - p))) with
    | error e =>
      left
      rw [hdec] at hf
      simp [streamStep, hf]
    | ok ir =>
      obtain ⟨i, rest⟩ := ir
      rw [hdec] at hf
      simp only at hf
      have key : ∀ (v : Byte) (n len : Nat), 0 < len → execPacket i s = rlbPacket v n len s →
          streamStep execPacket s = raiseStruct s ∨
          ∃ d j', streamStep execPacket s = .next { s with dst := d, job := some j' } ∧
            Progress s (.rlbFill p o) d j' := by
        intro v n len hlen hex
        rw [streamStep, hf]
        simp only
        rw [hex, rlbPacket_fills hj hd]
        split
        · exact Or.inl rfl
        · exact Or.inr ⟨_, _, rfl, .fill (by omega) (by omega) (by omega)⟩
      rcases decodeRlb_kind hdec with ⟨v, rfl⟩ | ⟨v, n, rfl⟩
      · exact key v 1 1 (by omega) rfl
      · exact key v _ 3 (by omega) rfl

/-- One turn of the decode loop from inside the bounds: it completes, it faults, or one packet makes progress. -/
theorem streamStep_turn {s : State} {j : Job} (hj : s.job = some j) (hin : s.jobInside) :
    (streamFetch s = .finish ∧ streamStep execPacket s = .next (finishJob s)) ∨
    (streamStep execPacket s = raiseStruct s) ∨
    ((∃ p l, j = .rlbMeasure p l) ∧ streamStep execPacket s = raise .resource s) ∨
    (∃ d j', streamStep execPacket s = .next { s with dst := d, job := some j' } ∧ Progress s j d j') := by
  cases j with
  | rla p o =>
    rcases streamStep_turn_rla hj hin with h | h | h
    · exact Or.inl h
    · exact Or.inr (Or.inl h)
    · exact Or.inr (Or.inr (Or.inr h))
  | rlbMeasure p l =>
    rcases streamStep_turn_measure hj hin with h | h | h | h
    · exact Or.inl h
    · exact Or.inr (Or.inl h)
    · exact Or.inr (Or.inr (Or.inl ⟨⟨p, l, rfl⟩, h⟩))
    · exact Or.inr (Or.inr (Or.inr h))
  | rlbFill p o =>
    rcases streamStep_turn_fill hj hin with h | h | h
    · exact Or.inl h
    · exact Or.inr (Or.inl h)
    · exact Or.inr (Or.inr (Or.inr h))

/-! ## The loop -/

/-- Progress keeps the job inside its bounds. -/
theorem Progress.inside {s : State} {j j' : Job} {d : Memory} (h : Progress s j d j') (hj : s.job = some j)
    (hin : s.jobInside) : State.jobInside { s with dst := d, job := some j' } := by
  cases h with
  | rla hp hw ho hn =>
    simp only [State.jobInside, hj] at hin
    obtain ⟨he, hs, hwe, hpos, hpw, hd, hol⟩ := hin
    exact ⟨he, hs, hwe, Nat.le_trans hpos (Nat.le_of_lt hp), hw, hd, hn⟩
  | measure hp hw hn =>
    simp only [State.jobInside, hj] at hin
    obtain ⟨he, hs, hwe, hpos, hpw, hl⟩ := hin
    exact ⟨he, hs, hwe, Nat.le_trans hpos (Nat.le_of_lt hp), hw, hn⟩
  | fill hp hw hn =>
    simp only [State.jobInside, hj] at hin
    obtain ⟨he, hs, hwe, hpos, hpw, hd, hol⟩ := hin
    exact ⟨he, hs, hwe, Nat.le_trans hpos (Nat.le_of_lt hp), hw, hd, hn⟩

theorem Progress.ptr_lt {s : State} {j j' : Job} {d : Memory} (h : Progress s j d j') : j.ptr < j'.ptr := by
  cases h <;> assumption

theorem Progress.ptr_le {s : State} {j j' : Job} {d : Memory} (h : Progress s j d j') : j'.ptr ≤ s.windowEnd := by
  cases h <;> assumption

/-- One packet's progress, as a relation on states. -/
def Turn (s t : State) : Prop :=
  ∃ j d j', s.job = some j ∧ Progress s j d j' ∧ t = { s with dst := d, job := some j' }

/-- How the loop ends, from inside the bounds with enough turns: after some packets' progress it completes or faults. -/
theorem streamLoop_ends (k : Nat) {s : State} {j : Job} (hj : s.job = some j) (hin : s.jobInside)
    (hk : s.windowEnd - j.ptr ≤ k) :
    ∃ f j', Relation.ReflTransGen Turn s f ∧ f.job = some j' ∧ f.jobInside ∧
      ((streamFetch f = .finish ∧ streamLoop k s = .next (finishJob f)) ∨
        streamLoop k s = raiseStruct f ∨
        ((∃ p l, j' = .rlbMeasure p l) ∧ streamLoop k s = raise .resource f)) := by
  induction k generalizing s j with
  | zero =>
    refine ⟨s, j, .refl, hj, hin, ?_⟩
    rcases streamStep_turn hj hin with h | h | h | ⟨d, j', -, h⟩
    · exact Or.inl h
    · exact Or.inr (Or.inl h)
    · exact Or.inr (Or.inr h)
    · have := h.ptr_lt; have := h.ptr_le; omega
  | succ k ih =>
    have loop_stop : ∀ r, (∃ t, r = Host.Outcome.next t ∧ t.job = none) → streamStep execPacket s = r →
        streamLoop (k + 1) s = r := by
      rintro r ⟨t, rfl, ht⟩ h
      simp [streamLoop, h, ht]
    rcases streamStep_turn hj hin with h | h | h | ⟨d, j', h, hpr⟩
    · exact ⟨s, j, .refl, hj, hin, Or.inl ⟨h.1, loop_stop _ ⟨_, rfl, finishJob_job s⟩ h.2⟩⟩
    · refine ⟨s, j, .refl, hj, hin, Or.inr (Or.inl (loop_stop _ ?_ h))⟩
      obtain ⟨d, n, e, -⟩ := raiseStruct_next s
      exact ⟨_, e, rfl⟩
    · exact ⟨s, j, .refl, hj, hin, Or.inr (Or.inr ⟨h.1, loop_stop _ ⟨_, rfl, rfl⟩ h.2⟩)⟩
    · have hloop : streamLoop (k + 1) s = streamLoop k { s with dst := d, job := some j' } := by
        simp [streamLoop, h]
      have := hpr.ptr_lt
      obtain ⟨f, jf, ht, h1, h2, h3⟩ := ih (s := { s with dst := d, job := some j' }) rfl (hpr.inside hj hin)
        (by show s.windowEnd - j'.ptr ≤ k; omega)
      rw [← hloop] at h3
      exact ⟨f, jf, ht.head ⟨j, d, j', hj, hpr, rfl⟩, h1, h2, h3⟩

/-- Nothing but `DST` and the private variables changes while the loop turns, and `DST` only below `OLEN`. -/
theorem turns_frame {s f : State} (h : Relation.ReflTransGen Turn s f) :
    f = { s with dst := f.dst, job := f.job } ∧ ∀ a, s.regs.olen.toNat ≤ a → f.cell .dst a = s.cell .dst a := by
  induction h with
  | refl => exact ⟨rfl, fun _ _ => rfl⟩
  | tail _ hbc ih =>
    obtain ⟨j, d, j', hj, hpr, rfl⟩ := hbc
    obtain ⟨ih1, ih2⟩ := ih
    refine ⟨by rw [ih1], fun a ha => ?_⟩
    rw [← ih2 a ha]
    rename_i b c
    have hregs : b.regs = s.regs := by rw [ih1]
    cases hpr with
    | rla hp hw ho hn =>
      rw [State.cell_of_writeBlock (s := b) (sp := .dst) rfl]
      rw [hregs] at hn
      simp only [List.length_replicate]
      rw [if_neg (by omega)]
    | measure hp hw hn => rfl
    | fill hp hw hn =>
      rw [State.cell_of_writeBlock (s := b) (sp := .dst) rfl]
      rw [hregs] at hn
      simp only [List.length_replicate]
      rw [if_neg (by omega)]

end Sys2Proof.Machine
end

