-- ==== Sys2Proof/Laws/Commands.lean ====
section
/-! SUPPORT. What a command can do, said once: `command_answers` lists the outcomes of every command that is not
short-circuited, each with the state it leaves. Claims over all commands cite it and unfold no meaning. -/

namespace Sys2Proof.Machine

/-! ## Lists of rows -/

theorem rows_length {α : Type} (h w : Nat) (f : Nat → Nat → α) :
    ((List.range h).flatMap (fun y => (List.range w).map (fun x => f y x))).length = h * w := by
  simp [List.length_flatMap]

/-- Element `x` of row `y` of a row-major list. -/
theorem rows_getElem? {α : Type} (h w : Nat) (f : Nat → Nat → α) (y x : Nat) (hy : y < h) (hx : x < w) :
    ((List.range h).flatMap (fun y => (List.range w).map (fun x => f y x)))[y * w + x]? = some (f y x) := by
  induction h with
  | zero => omega
  | succ h ih =>
    rw [List.range_succ, List.flatMap_append, List.getElem?_append, rows_length]
    by_cases hyh : y < h
    · have : (y + 1) * w ≤ h * w := Nat.mul_le_mul_right _ hyh
      rw [Nat.succ_mul] at this
      rw [if_pos (by omega)]
      exact ih hyh
    · have : y = h := by omega
      subst this
      rw [if_neg (by omega)]
      simp [hx]

/-- A row-major list of values that are all there. -/
theorem allSome_rows {α : Type} (h w : Nat) (f : Nat → Nat → Option α) (g : Nat → Nat → α)
    (hf : ∀ y < h, ∀ x < w, f y x = some (g y x)) :
    allSome ((List.range h).flatMap (fun y => (List.range w).map (fun x => f y x))) =
      some ((List.range h).flatMap (fun y => (List.range w).map (fun x => g y x))) := by
  have happ : ∀ (xs ys : List (Option α)) (as bs : List α), allSome xs = some as → allSome ys = some bs →
      allSome (xs ++ ys) = some (as ++ bs) := by
    intro xs
    induction xs with
    | nil => intro ys as bs h1 h2; cases h1; exact h2
    | cons x xs ih =>
      intro ys as bs h1 h2
      cases x with
      | none => cases h1
      | some x =>
        simp only [allSome, Option.map_eq_some_iff] at h1
        obtain ⟨as', h1, rfl⟩ := h1
        simp only [List.cons_append, allSome, ih ys as' bs h1 h2, Option.map_some]
  induction h with
  | zero => rfl
  | succ h ih =>
    rw [List.range_succ, List.flatMap_append, List.flatMap_append]
    refine happ _ _ _ _ (ih (fun y hy => hf y (by omega))) ?_
    simp only [List.flatMap_cons, List.flatMap_nil, List.append_nil]
    exact allSome_map _ _ _ (fun x hx => hf h (by omega) x (List.mem_range.mp hx))

/-! ## The reads that the prologues make legal -/

/-- Bit offset `k` of plane `p` when its byte is in the stream. -/
def State.bitAt (s : State) (p k : Nat) : Nat :=
  (s.cell .src (s.regs.planeBase p + k / 8)).toNat / 2 ^ (if s.regs.bitord then k % 8 else 7 - k % 8) % 2

/-- The pixel when every plane's byte is in the stream. -/
def State.pixelAt (s : State) (xp y : Nat) : Nat :=
  ((List.range s.regs.np).map (fun p =>
    s.bitAt p (y * s.regs.linebits.toNat + xp) * 2 ^ s.regs.planeWeight s.regs.np p)).sum

theorem planeBit_legal {s : State} {p k : Nat} (h : s.regs.planeBase p + k / 8 + 1 ≤ s.regs.slen.toNat)
    (hs : s.regs.slen.toNat ≤ s.params.srcCap) : s.planeBit p k = some (s.bitAt p k) := by
  have hk : k &&& 7 = k % 8 := Nat.and_two_pow_sub_one_eq_mod _ 3
  have h1 : ∀ n, n &&& 1 = n % 2 := fun n => Nat.and_two_pow_sub_one_eq_mod _ 1
  unfold State.planeBit
  rw [readSrc_legal (by rw [Nat.shiftRight_eq_div_pow]; exact h) hs]
  simp only [State.cells, List.range_one, List.map_cons, List.map_nil, Nat.add_zero, hk, h1,
    Nat.shiftRight_eq_div_pow, State.bitAt]

/-- `planesShort` is the `READ` condition of 44_bitplane_unpacker.md R209 in words of naturals. -/
theorem planesShort_iff (r : Regs) : r.planesShort = true ↔
    0 < r.width.toNat ∧ 0 < r.height.toNat ∧ ∃ p < r.np, r.slen.toNat < r.planeBase p + r.lastBit / 8 + 1 := by
  simp only [Regs.planesShort, Nat.shiftRight_eq_div_pow, Bool.and_eq_true, decide_eq_true_eq, List.any_eq_true,
    List.mem_range, show (2 : Nat) ^ 3 = 8 from rfl, and_assoc]

/-- `linesOutside` is the `READ` condition of 45_address_descrambler.md R227 in words of naturals. -/
theorem linesOutside_iff (r : Regs) : r.linesOutside = true ↔
    0 < r.columns.toNat ∧ ∃ y < r.height.toNat, r.lineAddr y < r.org.toNat ∨
      r.slen.toNat < r.lineAddr y - r.org.toNat + r.columns.toNat := by
  simp only [Regs.linesOutside, Bool.and_eq_true, Bool.or_eq_true, decide_eq_true_eq, List.any_eq_true, List.mem_range]

theorem pixels_legal {s : State} (hs : s.regs.slen.toNat ≤ s.params.srcCap) (hp : ¬ s.regs.planesShort = true) :
    s.pixels = some ((List.range s.regs.height.toNat).flatMap (fun y =>
      (List.range s.regs.width.toNat).map (fun xp => BitVec.ofNat 8 (s.pixelAt xp y)))) := by
  rw [planesShort_iff] at hp
  refine allSome_rows _ _ (fun y xp => (s.pixel xp y).map (BitVec.ofNat 8)) _ fun y hy xp hx => ?_
  have hb : ∀ p < s.regs.np, s.planeBit p (y * s.regs.linebits.toNat + xp) =
      some (s.bitAt p (y * s.regs.linebits.toNat + xp)) := by
    intro p hp'
    refine planeBit_legal ?_ hs
    by_contra hc
    have hm : y * s.regs.linebits.toNat ≤ (s.regs.height.toNat - 1) * s.regs.linebits.toNat :=
      Nat.mul_le_mul_right _ (by omega)
    have : (y * s.regs.linebits.toNat + xp) / 8 ≤ s.regs.lastBit / 8 :=
      Nat.div_le_div_right (by unfold Regs.lastBit; omega)
    exact hp ⟨by omega, by omega, p, hp', by omega⟩
  show (s.pixel xp y).map (BitVec.ofNat 8) = _
  have : s.pixel xp y = some (s.pixelAt xp y) := by
    unfold State.pixel State.pixelAt
    simp only
    rw [allSome_map _ (fun p => s.bitAt p (y * s.regs.linebits.toNat + xp) * 2 ^ s.regs.planeWeight s.regs.np p)]
    · rfl
    · intro p hp'
      rw [hb p (List.mem_range.mp hp'), Option.map_some, Nat.shiftLeft_eq]
  rw [this]; rfl

theorem scanlines_legal {s : State} (hs : s.regs.slen.toNat ≤ s.params.srcCap) (hl : ¬ s.regs.linesOutside = true) :
    s.scanlines = some ((List.range s.regs.height.toNat).flatMap (fun y =>
      (List.range s.regs.columns.toNat).map (fun i => s.cell .src (s.regs.lineAddr y - s.regs.org.toNat + i)))) := by
  rw [linesOutside_iff] at hl
  unfold State.scanlines
  rw [allSome_map _ (fun y => s.cells .src (s.regs.lineAddr y - s.regs.org.toNat) s.regs.columns.toNat)]
  · rfl
  · intro y hy
    by_cases hc : s.regs.columns.toNat = 0
    · rw [hc, readSrc_zero]; rfl
    · refine readSrc_legal ?_ hs
      by_contra hn
      exact hl ⟨by omega, y, List.mem_range.mp hy, Or.inr (by omega)⟩

/-! ## The outcomes of each command -/

/-- `DST` has been written below `o` only, inside its space and in canonical form. -/
structure WrittenBelow (s : State) (d : Memory) (o : Nat) : Prop where
  above : ∀ a, o ≤ a → State.cell { s with dst := d } .dst a = s.cell .dst a
  form : s.dst.wf → d.wf
  inside : s.dst.inside s.params.dstLen → d.inside s.params.dstLen

theorem WrittenBelow.block {s : State} {bs : List Byte} {o : Nat} (hb : bs.length ≤ s.params.dstLen)
    (ho : bs.length ≤ o) : WrittenBelow s (s.dst.writeBlock 0 bs) o where
  above := fun a ha => by rw [State.cell_of_writeBlock (s := s) (sp := .dst) rfl, if_neg (by omega)]
  form := fun h => Memory.writeBlock_wf h _ _
  inside := fun h => Memory.writeBlock_inside h (Or.inr (by omega))

/-- How many bytes an integer read takes. -/
def intWidth : Instr → Option Nat
  | .rd8 => some 1
  | .rd16le | .rd16be => some 2
  | .rd32le | .rd32be => some 4
  | .nop | .reset | .clrerr | .rdbuf | .pal68 | .pal86 | .rlea | .rlebm | .rlebf | .bplx | .adrmap | .adrgat
  | .run8 _ _ | .run16 _ _ | .raw _ | .runb _ _ | .lit _ => none

/-- Where `POS` stands after an output command that completes. -/
def PosAfter (i : Instr) (s : State) (q : Nat) : Prop :=
  (i = .rdbuf ∧ q = s.regs.pos.toNat + s.regs.olen.toNat) ∨ (i = .rlebf ∧ q = s.windowEnd) ∨
  (i = .rlea ∧ s.regs.pos.toNat ≤ q ∧ q ≤ s.windowEnd) ∨ ((i = .bplx ∨ i = .adrgat) ∧ q = s.regs.pos.toNat)

/-- What a command that completes leaves, of a state it was not short-circuited in. -/
inductive Done (s : State) : Instr → State → Prop where
  | nop : Done s .nop s
  | reset : Done s .reset { s with regs := Regs.zero }
  | clrerr : Done s .clrerr (returnFromFault s)
  | integer {i : Instr} {n : Nat} {v : Word} (hn : intWidth i = some n)
      (hp : s.regs.pos.toNat + n ≤ s.regs.slen.toNat) :
      Done s i { s with regs := { s.regs with val := v, pos := BitVec.ofNat 32 (s.regs.pos.toNat + n) } }
  | scale {i : Instr} {d : Memory} (hi : i = .pal68 ∨ i = .pal86) (hw : s.pal.wf → d.wf)
      (hd : s.pal.inside 768 → d.inside 768) : Done s i { s with pal := d }
  | output {i : Instr} {d : Memory} {o q : Nat} {j : Option Job} (hj : j = s.job ∨ j = none)
      (ho : o ≤ s.params.dstLen) (ho' : o < 2 ^ 32) (hq : PosAfter i s q) (hq' : q < 2 ^ 32)
      (hd : WrittenBelow s d o) (ha : i = .rlea → o = s.regs.olen.toNat) :
      Done s i { s with
        dst := d, job := j,
        regs := { s.regs with ocnt := BitVec.ofNat 32 o, pos := BitVec.ofNat 32 q } }
  | measure {l : Nat} (hl : l ≤ 2 ^ 32 - 1) :
      Done s .rlebm { s with regs := { s.regs with mlen := BitVec.ofNat 32 l }, job := none }
  | address {a : Half} : Done s .adrmap { s with regs := { s.regs with addr := a } }

/-- Which command can raise which fault before its first write (60_exceptions.md R251 to R254). -/
def CanRaise (i : Instr) (k : ErrKind) : Prop :=
  (k = .illegal ∧ (i.readsSrc = true ∨ i.writesPal = true)) ∨ (k = .read ∧ i.readsSrc = true) ∨
  (k = .resource ∧ (i = .rlebm ∨ i.writesDst = true)) ∨ (k = .struct ∧ (i = .rlebm ∨ i = .pal68))

/-- The three outcomes of a command with `ERR` = 0. -/
inductive Answers (i : Instr) (s : State) : Prop where
  | done (t : State) (h : exec i s = .next t) (hd : Done s i t)
  | fault (k : ErrKind) (h : exec i s = raise k s) (hk : CanRaise i k)
  | smear (d : Memory) (n : Nat)
      (h : exec i s = .next { s with regs := { s.regs with err := 2 }, dst := d, draws := n, job := none })
      (hi : i = .rlea ∨ i = .rlebf) (hd : WrittenBelow s d s.regs.olen.toNat)

theorem readInteger_answers {i : Instr} {s : State} {n : Nat} {f : List Byte → Nat} (he : s.regs.err = 0)
    (hn : intWidth i = some n) (hr : i.readsSrc = true) (h : exec i s = readInteger n f s) : Answers i s := by
  unfold readInteger at h
  rw [whenClear_zero he] at h
  by_cases h1 : s.params.srcCap < s.regs.slen.toNat
  · exact .fault .illegal (by rw [h, checkSlen_fail h1]) (Or.inl ⟨rfl, Or.inl hr⟩)
  · rw [checkSlen_pass (by omega)] at h
    by_cases h2 : s.regs.slen.toNat < s.regs.pos.toNat + n
    · exact .fault .read (by rw [h, checkStream_fail h2]) (Or.inr (Or.inl ⟨rfl, hr⟩))
    · rw [checkStream_pass (by omega), readSrc_legal (by omega) (by omega)] at h
      exact .done _ h (.integer hn (by omega))

theorem rdbuf_answers {s : State} (he : s.regs.err = 0) : Answers .rdbuf s := by
  have h : exec .rdbuf s = execRdbuf s := rfl
  simp only [execRdbuf] at h
  rw [whenClear_zero he] at h
  by_cases h1 : s.params.srcCap < s.regs.slen.toNat
  · exact .fault .illegal (by rw [h, checkSlen_fail h1]) (Or.inl ⟨rfl, Or.inl rfl⟩)
  · rw [checkSlen_pass (by omega)] at h
    by_cases h2 : s.regs.slen.toNat < s.regs.pos.toNat + s.regs.olen.toNat
    · exact .fault .read (by rw [h, checkStream_fail h2]) (Or.inr (Or.inl ⟨rfl, rfl⟩))
    · rw [checkStream_pass (by omega)] at h
      by_cases h3 : s.params.dstLen < s.regs.olen.toNat
      · exact .fault .resource (by rw [h, checkDst_fail h3]) (Or.inr (Or.inr (Or.inl ⟨rfl, Or.inr rfl⟩)))
      · rw [checkDst_pass (by omega), readSrc_legal (by omega) (by omega)] at h
        simp only at h
        rw [writeDst_legal (by simp; omega)] at h
        have hp := s.regs.slen.isLt
        refine .done _ h ?_
        have := Done.output (s := s) (i := .rdbuf) (j := s.job) (o := s.regs.olen.toNat)
          (q := s.regs.pos.toNat + s.regs.olen.toNat) (Or.inl rfl) (by omega) s.regs.olen.isLt (Or.inl ⟨rfl, rfl⟩)
          (by omega) (WrittenBelow.block (bs := s.cells .src s.regs.pos.toNat s.regs.olen.toNat) (by simp; omega)
            (by simp)) (by simp)
        simpa using this

theorem scaleSlots_answers {i : Instr} {s : State} {legal : Byte → Bool} {f : Nat → Nat} (he : s.regs.err = 0)
    (hi : i = .pal68 ∧ True ∨ i = .pal86 ∧ ∀ b, legal b = true) (h : exec i s = scaleSlots legal f s) :
    Answers i s := by
  have hi' : i = .pal68 ∨ i = .pal86 := hi.imp And.left And.left
  unfold scaleSlots at h
  rw [whenClear_zero he] at h
  by_cases h1 : Config.palSlots < s.regs.pstart.toNat + s.regs.pcnt.toNat
  · rw [if_pos h1] at h
    exact .fault .illegal h (Or.inl ⟨rfl, Or.inr (by rcases hi' with rfl | rfl <;> rfl)⟩)
  · have h2 : 3 * s.regs.pstart.toNat + 3 * s.regs.pcnt.toNat ≤ 768 := by
      have : Config.palSlots = 256 := rfl
      omega
    rw [if_neg h1] at h
    simp only [readPal_legal h2] at h
    by_cases h3 : (s.cells .pal (3 * s.regs.pstart.toNat) (3 * s.regs.pcnt.toNat)).all legal = true
    · rw [if_pos h3, writePal_legal (by simpa using h2)] at h
      exact .done _ h (.scale hi' (fun hw => Memory.writeBlock_wf hw _ _)
        (fun hd => Memory.writeBlock_inside hd (Or.inr (by simpa using h2))))
    · rw [if_neg h3] at h
      rcases hi with ⟨rfl, -⟩ | ⟨rfl, hall⟩
      · exact .fault .struct h (Or.inr (Or.inr (Or.inr ⟨rfl, Or.inr rfl⟩)))
      · exact absurd (List.all_eq_true.mpr (fun b _ => hall b)) h3

theorem bplx_answers {s : State} (he : s.regs.err = 0) : Answers .bplx s := by
  have h : exec .bplx s = execBplx s := rfl
  simp only [execBplx] at h
  rw [whenClear_zero he] at h
  by_cases h0 : legalPlanes s.regs.np = true
  · rw [if_pos h0] at h
    by_cases h1 : s.params.srcCap < s.regs.slen.toNat
    · exact .fault .illegal (by rw [h, checkSlen_fail h1]) (Or.inl ⟨rfl, Or.inl rfl⟩)
    · rw [checkSlen_pass (by omega)] at h
      by_cases h2 : s.regs.planesShort = true
      · rw [if_pos h2] at h
        exact .fault .read h (Or.inr (Or.inl ⟨rfl, rfl⟩))
      · rw [if_neg h2] at h
        by_cases h3 : s.params.dstLen < s.regs.width.toNat * s.regs.height.toNat
        · exact .fault .resource (by rw [h, checkDst_fail h3]) (Or.inr (Or.inr (Or.inl ⟨rfl, Or.inr rfl⟩)))
        · rw [checkDst_pass (by omega), pixels_legal (by omega) h2] at h
          simp only at h
          rw [writeDst_legal (by rw [rows_length, Nat.mul_comm]; omega)] at h
          have hlt : s.regs.width.toNat * s.regs.height.toNat < 2 ^ 32 := by
            have := Nat.mul_lt_mul'' s.regs.width.isLt s.regs.height.isLt
            omega
          refine .done _ h ?_
          have := Done.output (s := s) (i := .bplx) (j := s.job) (o := s.regs.width.toNat * s.regs.height.toNat)
            (q := s.regs.pos.toNat) (Or.inl rfl) (by omega) hlt (Or.inr (Or.inr (Or.inr ⟨Or.inl rfl, rfl⟩)))
            s.regs.pos.isLt
            (WrittenBelow.block (bs := (List.range s.regs.height.toNat).flatMap (fun y =>
              (List.range s.regs.width.toNat).map (fun xp => BitVec.ofNat 8 (s.pixelAt xp y))))
              (by rw [rows_length, Nat.mul_comm]; omega) (by rw [rows_length, Nat.mul_comm])) (by simp)
          simpa using this
  · rw [if_neg h0] at h
    exact .fault .illegal h (Or.inl ⟨rfl, Or.inl rfl⟩)

theorem adrgat_answers {s : State} (he : s.regs.err = 0) : Answers .adrgat s := by
  have h : exec .adrgat s = execAdrgat s := rfl
  simp only [execAdrgat] at h
  rw [whenClear_zero he] at h
  by_cases h1 : s.params.srcCap < s.regs.slen.toNat
  · exact .fault .illegal (by rw [h, checkSlen_fail h1]) (Or.inl ⟨rfl, Or.inl rfl⟩)
  · rw [checkSlen_pass (by omega)] at h
    by_cases h2 : s.regs.linesOutside = true
    · rw [if_pos h2] at h
      exact .fault .read h (Or.inr (Or.inl ⟨rfl, rfl⟩))
    · rw [if_neg h2] at h
      by_cases h3 : s.params.dstLen < s.regs.height.toNat * s.regs.columns.toNat
      · exact .fault .resource (by rw [h, checkDst_fail h3]) (Or.inr (Or.inr (Or.inl ⟨rfl, Or.inr rfl⟩)))
      · rw [checkDst_pass (by omega), scanlines_legal (by omega) h2] at h
        simp only at h
        rw [writeDst_legal (by rw [rows_length]; omega)] at h
        have hlt : s.regs.height.toNat * s.regs.columns.toNat < 2 ^ 32 := by
          have := Nat.mul_lt_mul'' s.regs.height.isLt s.regs.columns.isLt
          omega
        refine .done _ h ?_
        have := Done.output (s := s) (i := .adrgat) (j := s.job) (o := s.regs.height.toNat * s.regs.columns.toNat)
          (q := s.regs.pos.toNat) (Or.inl rfl) (by omega) hlt (Or.inr (Or.inr (Or.inr ⟨Or.inr rfl, rfl⟩)))
          s.regs.pos.isLt
          (WrittenBelow.block (bs := (List.range s.regs.height.toNat).flatMap (fun y =>
            (List.range s.regs.columns.toNat).map (fun i =>
              s.cell .src (s.regs.lineAddr y - s.regs.org.toNat + i))))
            (by rw [rows_length]; omega) (by rw [rows_length])) (by simp)
        simpa using this

/-! ## The run-length commands -/

theorem rlea_runs {s : State} (he : s.regs.err = 0) (hs : s.regs.slen.toNat ≤ s.params.srcCap)
    (hw : s.windowEnd ≤ s.regs.slen.toNat) (hd : s.regs.olen.toNat ≤ s.params.dstLen) :
    execRlea s = streamLoop s.regs.plen.toNat { s with job := some (.rla s.regs.pos.toNat 0) } := by
  unfold execRlea
  rw [whenClear_zero he, checkSlen_pass hs, checkStream_pass hw, checkDst_pass hd]; rfl

theorem rlebm_runs {s : State} (he : s.regs.err = 0) (hs : s.regs.slen.toNat ≤ s.params.srcCap)
    (hw : s.windowEnd ≤ s.regs.slen.toNat) :
    execRlebm s = streamLoop s.regs.plen.toNat { s with job := some (.rlbMeasure s.regs.pos.toNat 0) } := by
  unfold execRlebm
  rw [whenClear_zero he, checkSlen_pass hs, checkStream_pass hw]; rfl

theorem rlebf_runs {s : State} (he : s.regs.err = 0) (hs : s.regs.slen.toNat ≤ s.params.srcCap)
    (hw : s.windowEnd ≤ s.regs.slen.toNat) (hd : s.regs.olen.toNat ≤ s.params.dstLen) :
    execRlebf s = streamLoop s.regs.plen.toNat { s with job := some (.rlbFill s.regs.pos.toNat 0) } := by
  unfold execRlebf
  rw [whenClear_zero he, checkSlen_pass hs, checkStream_pass hw, checkDst_pass hd]; rfl

/-- The output index of a job; a measuring pass writes nothing. -/
def Job.out : Job → Nat
  | .rla _ o => o
  | .rlbMeasure _ _ => 0
  | .rlbFill _ o => o

/-- Two jobs of the same command. -/
def Job.alike : Job → Job → Prop
  | .rla _ _, .rla _ _ => True
  | .rlbMeasure _ _, .rlbMeasure _ _ => True
  | .rlbFill _ _, .rlbFill _ _ => True
  | .rla _ _, .rlbMeasure _ _ => False
  | .rla _ _, .rlbFill _ _ => False
  | .rlbMeasure _ _, .rla _ _ => False
  | .rlbMeasure _ _, .rlbFill _ _ => False
  | .rlbFill _ _, .rla _ _ => False
  | .rlbFill _ _, .rlbMeasure _ _ => False

/-- While the loop turns, `DST` is written below the output index only. -/
theorem turns_written {s f : State} {j : Job} (hj : s.job = some j) (h : Relation.ReflTransGen Turn s f)
    (hd : s.regs.olen.toNat ≤ s.params.dstLen ∨ ∃ p l, j = .rlbMeasure p l) :
    ∃ j', f.job = some j' ∧ j.alike j' ∧ WrittenBelow s f.dst j'.out ∧
      ((∃ p l, j = .rlbMeasure p l) → f.dst = s.dst) := by
  induction h with
  | refl =>
    refine ⟨j, hj, ?_, ⟨fun a _ => rfl, id, id⟩, fun _ => rfl⟩
    cases j <;> trivial
  | tail hsb hbc ih =>
    rename_i b c
    obtain ⟨jb, hb, hal, hwr, hm⟩ := ih
    have hfr := (turns_frame hsb).1
    have hregs : b.regs = s.regs := by rw [hfr]
    have hpar : b.params = s.params := by rw [hfr]
    obtain ⟨j1, d, j2, h1, hpr, rfl⟩ := hbc
    have : j1 = jb := by rw [h1] at hb; exact Option.some.inj hb
    subst this
    have step : ∀ (o n : Nat) (c : Byte), j1.out = o → o + n ≤ b.regs.olen.toNat →
        (∀ p l, j ≠ .rlbMeasure p l) → WrittenBelow s (b.dst.writeBlock o (List.replicate n c)) (o + n) := by
      intro o n c ho hn hnm
      have hd' : o + n ≤ s.params.dstLen := by
        rw [hregs] at hn
        rcases hd with hd | ⟨p, l, rfl⟩
        · omega
        · exact absurd rfl (hnm p l)
      refine ⟨fun a ha => ?_, fun hw => Memory.writeBlock_wf (hwr.form hw) _ _,
        fun hi => Memory.writeBlock_inside (hwr.inside hi) (Or.inr (by simpa using hd'))⟩
      rw [State.cell_of_writeBlock (s := { s with dst := b.dst }) (sp := .dst) rfl,
        if_neg (by simp only [List.length_replicate]; omega)]
      exact hwr.above a (by omega)
    cases hpr with
    | rla hp hw ho hn =>
      cases j with
      | rla p o => exact ⟨_, rfl, trivial, step _ _ _ rfl hn (by simp), by simp⟩
      | rlbMeasure p o => exact hal.elim
      | rlbFill p o => exact hal.elim
    | measure hp hw hn =>
      cases j with
      | rla p o => exact hal.elim
      | rlbMeasure p o => exact ⟨_, rfl, trivial, ⟨fun a _ => by
          show State.cell { s with dst := b.dst } .dst a = _
          rw [hm ⟨_, _, rfl⟩], fun hw => hwr.form hw, fun hi => hwr.inside hi⟩, hm⟩
      | rlbFill p o => exact hal.elim
    | fill hp hw hn =>
      cases j with
      | rla p o => exact hal.elim
      | rlbMeasure p o => exact hal.elim
      | rlbFill p o => exact ⟨_, rfl, trivial, step _ _ _ rfl hn (by simp), by simp⟩

/-- The state `raise STRUCT` leaves when the loop stands at `f`. -/
theorem smear_written {s f : State} {o : Nat} (hf : f = { s with dst := f.dst, job := f.job })
    (hw : WrittenBelow s f.dst o) (ho : o ≤ s.regs.olen.toNat) :
    ∃ d n, raiseStruct f = .next { s with regs := { s.regs with err := 2 }, dst := d, draws := n, job := none } ∧
      WrittenBelow s d s.regs.olen.toNat := by
  obtain ⟨d, n, h, hd⟩ := raiseStruct_next f
  have hr : f.regs = s.regs := by rw [hf]
  have hp : f.params = s.params := by rw [hf]
  refine ⟨d, n, ?_, ?_⟩
  · rw [h, hf]
  · rcases hd with rfl | ⟨-, bs, hb, rfl⟩
    · exact ⟨fun a ha => hw.above a (by omega), hw.form, hw.inside⟩
    · rw [hr, hp] at hb
      refine ⟨fun a ha => ?_, fun h => Memory.writeBlock_wf (hw.form h) _ _,
        fun h => Memory.writeBlock_inside (hw.inside h) (Or.inr (by omega))⟩
      rw [State.cell_of_writeBlock (s := { s with dst := f.dst }) (sp := .dst) rfl, if_neg (by omega)]
      exact hw.above a (by omega)

theorem rlea_answers {s : State} (he : s.regs.err = 0) : Answers .rlea s := by
  by_cases h1 : s.params.srcCap < s.regs.slen.toNat
  · exact .fault .illegal (by simp only [exec, execRlea]; rw [whenClear_zero he, checkSlen_fail h1])
      (Or.inl ⟨rfl, Or.inl rfl⟩)
  by_cases h2 : s.regs.slen.toNat < s.regs.pos.toNat + s.regs.plen.toNat
  · exact .fault .read
      (by simp only [exec, execRlea]; rw [whenClear_zero he, checkSlen_pass (by omega), checkStream_fail h2])
      (Or.inr (Or.inl ⟨rfl, rfl⟩))
  by_cases h3 : s.params.dstLen < s.regs.olen.toNat
  · exact .fault .resource
      (by
        simp only [exec, execRlea]
        rw [whenClear_zero he, checkSlen_pass (by omega), checkStream_pass (by omega), checkDst_fail h3])
      (Or.inr (Or.inr (Or.inl ⟨rfl, Or.inr rfl⟩)))
  have hrun : exec .rlea s = _ := rlea_runs he (by omega) (by unfold State.windowEnd; omega) (by omega)
  have hin : State.jobInside { s with job := some (.rla s.regs.pos.toNat 0) } :=
    ⟨he, Nat.le_of_not_lt h1, Nat.le_of_not_lt h2, le_refl _, Nat.le_add_right _ _, Nat.le_of_not_lt h3, Nat.zero_le _⟩
  obtain ⟨f, j', ht, hj', hjin, hend⟩ := streamLoop_ends s.regs.plen.toNat rfl hin
    (by show s.regs.pos.toNat + s.regs.plen.toNat - s.regs.pos.toNat ≤ _; omega)
  obtain ⟨j'', hj'', hal, hwr, -⟩ := turns_written rfl ht (Or.inl (by show s.regs.olen.toNat ≤ s.params.dstLen; omega))
  have hfr := (turns_frame ht).1
  rw [hj'] at hj''
  cases hj''
  cases j' with
  | rlbMeasure p l => exact hal.elim
  | rlbFill p o => exact hal.elim
  | rla p o =>
    have hr : f.regs = s.regs := by rw [hfr]
    have hp : f.params = s.params := by rw [hfr]
    have hwe : f.windowEnd = s.windowEnd := by simp [State.windowEnd, hr]
    simp only [State.jobInside, hj', hr, hp, hwe] at hjin
    obtain ⟨-, -, hw, hpos, hpw, -, hol⟩ := hjin
    have hwr' : WrittenBelow s f.dst o := ⟨hwr.above, hwr.form, hwr.inside⟩
    have hf' : f = { s with dst := f.dst, job := f.job } := by rw [hfr]
    rcases hend with ⟨hfin, hl⟩ | hl | ⟨⟨_, _, hc⟩, -⟩
    · have hoo : o = s.regs.olen.toNat := by
        unfold streamFetch at hfin
        rw [hj', hr] at hfin
        simp only at hfin
        split at hfin
        · omega
        · split at hfin
          · cases hfin
          · unfold packetAt at hfin
            split at hfin
            · cases hfin
            · split at hfin <;> cases hfin
      refine .done (finishJob f) (by rw [hrun, hl]) ?_
      have hslt := s.regs.slen.isLt
      have := Done.output (s := s) (i := .rlea) (d := f.dst) (o := o) (q := p) (j := none) (Or.inr rfl) (by omega)
        (by rw [hoo]; exact s.regs.olen.isLt) (Or.inr (Or.inr (Or.inl ⟨rfl, hpos, hpw⟩))) (by omega) hwr'
        (fun _ => hoo)
      have hfj : finishJob f = { s with
          dst := f.dst, job := none,
          regs := { s.regs with ocnt := BitVec.ofNat 32 o, pos := BitVec.ofNat 32 p } } := by
        unfold finishJob
        rw [hj']
        simp only [hr]
        rw [hf']
      rw [hfj]
      exact this
    · obtain ⟨d, n, hs, hd⟩ := smear_written hf' hwr' hol
      exact .smear d n (by rw [hrun, hl, hs]) (Or.inl rfl) hd
    · cases hc

theorem rlebf_answers {s : State} (he : s.regs.err = 0) : Answers .rlebf s := by
  by_cases h1 : s.params.srcCap < s.regs.slen.toNat
  · exact .fault .illegal (by simp only [exec, execRlebf]; rw [whenClear_zero he, checkSlen_fail h1])
      (Or.inl ⟨rfl, Or.inl rfl⟩)
  by_cases h2 : s.regs.slen.toNat < s.regs.pos.toNat + s.regs.plen.toNat
  · exact .fault .read
      (by simp only [exec, execRlebf]; rw [whenClear_zero he, checkSlen_pass (by omega), checkStream_fail h2])
      (Or.inr (Or.inl ⟨rfl, rfl⟩))
  by_cases h3 : s.params.dstLen < s.regs.olen.toNat
  · exact .fault .resource
      (by
        simp only [exec, execRlebf]
        rw [whenClear_zero he, checkSlen_pass (by omega), checkStream_pass (by omega), checkDst_fail h3])
      (Or.inr (Or.inr (Or.inl ⟨rfl, Or.inr rfl⟩)))
  have hrun : exec .rlebf s = _ := rlebf_runs he (by omega) (by unfold State.windowEnd; omega) (by omega)
  have hin : State.jobInside { s with job := some (.rlbFill s.regs.pos.toNat 0) } :=
    ⟨he, Nat.le_of_not_lt h1, Nat.le_of_not_lt h2, le_refl _, Nat.le_add_right _ _, Nat.le_of_not_lt h3, Nat.zero_le _⟩
  obtain ⟨f, j', ht, hj', hjin, hend⟩ := streamLoop_ends s.regs.plen.toNat rfl hin
    (by show s.regs.pos.toNat + s.regs.plen.toNat - s.regs.pos.toNat ≤ _; omega)
  obtain ⟨j'', hj'', hal, hwr, -⟩ := turns_written rfl ht (Or.inl (by show s.regs.olen.toNat ≤ s.params.dstLen; omega))
  have hfr := (turns_frame ht).1
  rw [hj'] at hj''
  cases hj''
  cases j' with
  | rlbMeasure p l => exact hal.elim
  | rla p o => exact hal.elim
  | rlbFill p o =>
    have hr : f.regs = s.regs := by rw [hfr]
    have hp : f.params = s.params := by rw [hfr]
    have hwe : f.windowEnd = s.windowEnd := by simp [State.windowEnd, hr]
    simp only [State.jobInside, hj', hr, hp, hwe] at hjin
    obtain ⟨-, -, hw, hpos, hpw, -, hol⟩ := hjin
    have hwr' : WrittenBelow s f.dst o := ⟨hwr.above, hwr.form, hwr.inside⟩
    have hf' : f = { s with dst := f.dst, job := f.job } := by rw [hfr]
    rcases hend with ⟨-, hl⟩ | hl | ⟨⟨_, _, hc⟩, -⟩
    · refine .done (finishJob f) (by rw [hrun, hl]) ?_
      have hslt := s.regs.slen.isLt
      have holt := s.regs.olen.isLt
      have := Done.output (s := s) (i := .rlebf) (d := f.dst) (o := o) (q := s.windowEnd) (j := none) (Or.inr rfl)
        (by omega) (by omega) (Or.inr (Or.inl ⟨rfl, rfl⟩)) (by omega) hwr' (by simp)
      have hfj : finishJob f = { s with
          dst := f.dst, job := none,
          regs := { s.regs with ocnt := BitVec.ofNat 32 o, pos := BitVec.ofNat 32 s.windowEnd } } := by
        unfold finishJob
        rw [hj']
        simp only [hr, hwe]
        rw [hf']
      rw [hfj]
      exact this
    · obtain ⟨d, n, hs, hd⟩ := smear_written hf' hwr' hol
      exact .smear d n (by rw [hrun, hl, hs]) (Or.inr rfl) hd
    · cases hc

theorem rlebm_answers {s : State} (he : s.regs.err = 0) : Answers .rlebm s := by
  by_cases h1 : s.params.srcCap < s.regs.slen.toNat
  · exact .fault .illegal (by simp only [exec, execRlebm]; rw [whenClear_zero he, checkSlen_fail h1])
      (Or.inl ⟨rfl, Or.inl rfl⟩)
  by_cases h2 : s.regs.slen.toNat < s.regs.pos.toNat + s.regs.plen.toNat
  · exact .fault .read
      (by simp only [exec, execRlebm]; rw [whenClear_zero he, checkSlen_pass (by omega), checkStream_fail h2])
      (Or.inr (Or.inl ⟨rfl, rfl⟩))
  have hrun : exec .rlebm s = _ := rlebm_runs he (by omega) (by unfold State.windowEnd; omega)
  have hin : State.jobInside { s with job := some (.rlbMeasure s.regs.pos.toNat 0) } :=
    ⟨he, Nat.le_of_not_lt h1, Nat.le_of_not_lt h2, le_refl _, Nat.le_add_right _ _, Nat.zero_le _⟩
  obtain ⟨f, j', ht, hj', hjin, hend⟩ := streamLoop_ends s.regs.plen.toNat rfl hin
    (by show s.regs.pos.toNat + s.regs.plen.toNat - s.regs.pos.toNat ≤ _; omega)
  obtain ⟨j'', hj'', hal, -, hdst⟩ := turns_written rfl ht (Or.inr ⟨_, _, rfl⟩)
  have hfr := (turns_frame ht).1
  rw [hj'] at hj''
  cases hj''
  cases j' with
  | rla p o => exact hal.elim
  | rlbFill p o => exact hal.elim
  | rlbMeasure p l =>
    have hd : f.dst = s.dst := hdst ⟨_, _, rfl⟩
    have hf' : f = { s with job := f.job } := by rw [hfr, hd]
    have hr : f.regs = s.regs := by rw [hf']
    simp only [State.jobInside, hj'] at hjin
    have fin : ∀ k, raise k f = raise k s := fun k => by unfold raise; rw [hf']
    rcases hend with ⟨-, hl⟩ | hl | ⟨-, hl⟩
    · refine .done (finishJob f) (by rw [hrun, hl]) ?_
      have hfj : finishJob f = { s with regs := { s.regs with mlen := BitVec.ofNat 32 l }, job := none } := by
        unfold finishJob
        rw [hj']
        simp only [hr]
        rw [hf']
      rw [hfj]
      exact .measure hjin.2.2.2.2.2
    · refine .fault .struct ?_ (Or.inr (Or.inr (Or.inr ⟨rfl, Or.inl rfl⟩)))
      rw [hrun, hl]
      unfold raiseStruct
      rw [hj']
      exact fin _
    · exact .fault .resource (by rw [hrun, hl, fin]) (Or.inr (Or.inr (Or.inl ⟨rfl, Or.inl rfl⟩)))

/-- Every command with `ERR` = 0 completes, faults before its first write, or leaves `DST` below `OLEN` unspecified. -/
theorem command_answers {i : Instr} {s : State} (hi : i.decoder = .command) (he : s.regs.err = 0) : Answers i s := by
  cases i with
  | nop => exact .done _ rfl .nop
  | reset => exact .done _ rfl .reset
  | clrerr => exact .done _ rfl .clrerr
  | rd8 => exact readInteger_answers he rfl rfl rfl
  | rd16le => exact readInteger_answers he rfl rfl rfl
  | rd16be => exact readInteger_answers he rfl rfl rfl
  | rd32le => exact readInteger_answers he rfl rfl rfl
  | rd32be => exact readInteger_answers he rfl rfl rfl
  | rdbuf => exact rdbuf_answers he
  | pal68 => exact scaleSlots_answers he (Or.inl ⟨rfl, trivial⟩) rfl
  | pal86 => exact scaleSlots_answers he (Or.inr ⟨rfl, fun _ => rfl⟩) rfl
  | rlea => exact rlea_answers he
  | rlebm => exact rlebm_answers he
  | rlebf => exact rlebf_answers he
  | bplx => exact bplx_answers he
  | adrmap => exact .done _ (by simp only [exec, execAdrmap]; rw [whenClear_zero he]) .address
  | adrgat => exact adrgat_answers he
  | run8 c n => cases hi
  | run16 c n => cases hi
  | raw c => cases hi
  | runb v n => cases hi
  | lit v => cases hi

end Sys2Proof.Machine
end

