-- ==== Sys2Proof/Laws/Packets.lean ====
section
/-! SUPPORT. Packet streams: the bytes and the output of a stream cut at its first packet, the fetch of that packet, its
execution, and the turns of the loop; and when a change of state that a run-length command does not see can be moved
through its loop. -/

namespace Sys2Proof.Machine

/-! ## Streams of packets -/

theorem streamBytes_cons (s : State) (i : Instr) (ps : List Instr) :
    streamBytes s (i :: ps) = encode s.regs.keys i ++ streamBytes s ps := rfl

theorem streamOutput_cons (s : State) (i : Instr) (ps : List Instr) :
    streamOutput s (i :: ps) = packetOutput s i ++ streamOutput s ps := rfl

theorem holds_append {s : State} {sp : Space} {p : Nat} {as bs : List Byte} (h : s.holds sp p (as ++ bs)) :
    s.holds sp p as ∧ s.holds sp (p + as.length) bs := by
  unfold State.holds at *
  rw [List.length_append, State.cells_append] at h
  exact List.append_inj h (State.cells_length _ _ _ _)

theorem encode_length_bounds (k : StreamKeys) (i : Instr) : 1 ≤ (encode k i).length ∧ (encode k i).length ≤ 4 := by
  cases i
  case runb v n => simp only [encode]; split <;> simp
  all_goals simp [encode]

/-- A packet whose bytes stand at `p` inside the window is fetched, given that its decoder reads it back. -/
theorem packetAt_encoded {s : State} {p : Nat} {d : Decoder} {i : Instr}
    (hdec : ∀ rest, decode d s.regs.keys (encode s.regs.keys i ++ rest) = .ok (i, rest))
    (hs : s.regs.slen.toNat ≤ s.params.srcCap) (hw : s.windowEnd ≤ s.regs.slen.toNat)
    (hh : s.holds .src p (encode s.regs.keys i)) (hp : p + (encode s.regs.keys i).length ≤ s.windowEnd) :
    packetAt d p s = .packet i := by
  have hl := encode_length_bounds s.regs.keys i
  rw [packetAt_inside hs hw (by omega)]
  obtain ⟨m, hm⟩ : ∃ m, min 4 (s.windowEnd - p) = (encode s.regs.keys i).length + m :=
    ⟨min 4 (s.windowEnd - p) - (encode s.regs.keys i).length, by omega⟩
  have hc : s.cells .src p (encode s.regs.keys i).length = encode s.regs.keys i := hh
  rw [hm, State.cells_append, hc, hdec]

/-- A packet of RLA puts out a run and its meaning is that run's emission. -/
theorem rla_packet_form (s : State) {i : Instr} (hi : i.decoder = .rla) :
    ∃ c n, packetOutput s i = List.replicate n c ∧ execPacket i s = rlaPacket c n (encode s.regs.keys i).length s := by
  cases i <;> simp [Instr.decoder] at hi
  · exact ⟨_, _, rfl, rfl⟩
  · exact ⟨_, _, rfl, rfl⟩
  · exact ⟨_, 1, rfl, rfl⟩

/-- A packet of RLB puts out a run and its meaning is the pass's action on it. -/
theorem rlb_packet_form (s : State) {i : Instr} (hi : i.decoder = .rlb) :
    ∃ v n, packetOutput s i = List.replicate n v ∧ execPacket i s = rlbPacket v n (encode s.regs.keys i).length s := by
  cases i <;> simp [Instr.decoder] at hi
  · refine ⟨_, _, rfl, ?_⟩
    simp only [encode, execPacket, execRunb]
    split <;> rfl
  · exact ⟨_, 1, rfl, rfl⟩

/-- The cells of `DST` after a run of `n` copies of `c` has been written at `o`. -/
theorem cell_of_run {s t : State} {o n : Nat} {c : Byte} (ht : t.dst = s.dst.writeBlock o (List.replicate n c))
    (a : Nat) : t.cell .dst a = if o ≤ a ∧ a < o + n then c else s.cell .dst a := by
  rw [State.cell_of_writeBlock (s := s) (sp := .dst) ht]
  simp only [List.length_replicate]
  split
  · rw [List.getElem?_replicate, if_pos (by omega)]; rfl
  · rfl

/-! ## The turns of the loop -/

theorem streamLoop_turn {k : Nat} {s t : State} (h : streamStep execPacket s = .next t) (ht : t.job ≠ none) :
    streamLoop (k + 1) s = streamLoop k t := by
  simp [streamLoop, h, ht]

theorem streamLoop_stop {k : Nat} {s t : State} (h : streamStep execPacket s = .next t) (ht : t.job = none) :
    streamLoop k s = .next t := by
  cases k <;> simp [streamLoop, h, ht]

/-- What the fetch finds is a packet, never a command. -/
theorem streamFetch_packet {s : State} {i : Instr} (h : streamFetch s = .packet i) : i.decoder ≠ .command := by
  have pk : ∀ d p, d ≠ .command → packetAt d p s = .packet i → i.decoder ≠ .command := by
    intro d p hd h
    unfold packetAt at h
    split at h
    · cases h
    · split at h
      · rename_i hdec
        cases h
        cases d
        · exact absurd rfl hd
        · rcases decodeRla_kind hdec with ⟨_, rfl⟩ | ⟨_, _, rfl⟩ | ⟨_, _, rfl⟩ <;> simp [Instr.decoder]
        · rcases decodeRlb_kind hdec with ⟨_, rfl⟩ | ⟨_, _, rfl⟩ <;> simp [Instr.decoder]
      · cases h
  unfold streamFetch at h
  split at h
  · cases h
  · split at h
    · cases h
    · split at h
      · cases h
      · exact pk _ _ (by simp) h
  · split at h
    · cases h
    · exact pk _ _ (by simp) h
  · split at h
    · cases h
    · exact pk _ _ (by simp) h

/-- The step's turn of the loop and the command's are the same. -/
theorem streamStep_exec (s : State) : streamStep exec s = streamStep execPacket s := by
  unfold streamStep
  split <;> try rfl
  rename_i i h
  have := streamFetch_packet h
  cases i <;> first | rfl | exact absurd rfl this

/-! ## Changes of state that the loop does not see -/

/-- `f` on the next state, the stops unchanged. -/
def mapNext (f : State → State) : Result → Result
  | .next t => .next (f t)
  | .fault r => .fault r
  | .refused r => .refused r

theorem mapNext_ite {f : State → State} {c : Prop} [Decidable c] {a b a' b' : Result} (h1 : a = mapNext f a')
    (h2 : b = mapNext f b') : (if c then a else b) = mapNext f (if c then a' else b') := by
  split <;> assumption

/-- A change that commutes with every turn commutes with the loop. -/
theorem streamLoop_commutes (f : State → State) (P : State → Prop) (hj : ∀ s, (f s).job = s.job)
    (hs : ∀ s, P s → streamStep execPacket (f s) = mapNext f (streamStep execPacket s))
    (hp : ∀ s t, P s → streamStep execPacket s = .next t → t.job ≠ none → P t) (k : Nat) {s : State} (h : P s) :
    streamLoop k (f s) = mapNext f (streamLoop k s) := by
  induction k generalizing s with
  | zero => exact hs s h
  | succ k ih =>
    simp only [streamLoop]
    rw [hs s h]
    cases hst : streamStep execPacket s with
    | next t =>
      simp only [mapNext, hj]
      by_cases htj : t.job = none
      · simp [htj]
      · simp only [htj, if_false]
        exact ih (hp s t h hst htj)
    | fault r => rfl
    | refused r => rfl

/-- A change that keeps what a turn looks at and writes commutes with the turn. -/
theorem streamStep_commutes (f : State → State) (s : State) (hfetch : streamFetch (f s) = streamFetch s)
    (hstruct : raiseStruct (f s) = mapNext f (raiseStruct s)) (hraise : ∀ k, raise k (f s) = mapNext f (raise k s))
    (hfinish : finishJob (f s) = f (finishJob s)) (hj : (f s).job = s.job) (hw : (f s).windowEnd = s.windowEnd)
    (ho : (f s).regs.olen = s.regs.olen) (hp : (f s).params = s.params) (hd : (f s).dst = s.dst)
    (hset : ∀ d j, { f s with dst := d, job := j } = f { s with dst := d, job := j }) :
    streamStep execPacket (f s) = mapNext f (streamStep execPacket s) := by
  have hrl : ∀ n, (f s).runLength n = s.runLength n := fun n => by simp [State.runLength, hp]
  have hjob : ∀ j, { f s with job := j } = f { s with job := j } := fun j => by rw [← hset s.dst j, ← hd]
  have hrun : ∀ (o : Nat) (bs : List Byte) (j : Job),
      (match (f s).writeDst o bs with
        | none => .fault .dstOutOfRange
        | some t => .next { t with job := some j } : Result) =
      mapNext f (match s.writeDst o bs with
        | none => .fault .dstOutOfRange
        | some t => .next { t with job := some j }) := by
    intro o bs j
    by_cases hc : bs.length = 0 ∨ o + bs.length ≤ s.params.dstLen
    · simp only [State.writeDst, hp, hd, hc, if_true, mapNext]
      have e := hset (s.dst.writeBlock o bs) (some j)
      dsimp only at e
      rw [hp] at e
      exact congrArg Host.Outcome.next e
    · simp only [State.writeDst, hp, hd, hc, if_false, mapNext]
  have hrla : ∀ c n l, rlaPacket c n l (f s) = mapNext f (rlaPacket c n l s) := by
    intro c n l
    unfold rlaPacket emitRla
    rw [hj]
    split <;> try rfl
    rw [hw, hstruct, ho]
    exact mapNext_ite rfl (mapNext_ite rfl (hrun _ _ _))
  have hrlb : ∀ c n l, rlbPacket c n l (f s) = mapNext f (rlbPacket c n l s) := by
    intro c n l
    unfold rlbPacket outFill outMeasure
    rw [hj]
    split <;> try rfl
    · rw [hw, hstruct]
      exact mapNext_ite rfl (mapNext_ite (hraise _) (congrArg Host.Outcome.next (hjob _)))
    · rw [hw, hstruct, ho]
      exact mapNext_ite rfl (mapNext_ite rfl (hrun _ _ _))
  unfold streamStep
  rw [hfetch]
  split
  · rfl
  · rw [hfinish]; rfl
  · exact hstruct
  · exact hstruct
  · rfl
  · rename_i i hi
    cases i <;> simp only [execPacket, execRun8, execRun16, execRaw, execRunb, execLit, hrl] <;>
      first | exact hrla _ _ _ | exact hrlb _ _ _ | rfl

end Sys2Proof.Machine
end

