-- ==== Sys2Proof/Laws/PerInstr.lean ====
section
/-! SUPPORT. Statements made per instruction, one lemma per constructor. `EncodeLength`: under any keys an instruction has
as many bytes as its format (30_encoding.md R90, R110). -/

namespace Sys2Proof.Laws.EncodeLength

/-- The encoding of `i` has `i.byteLength` bytes, whatever the keys hold. -/
def Statement (i : Instr) : Prop := ∀ k : StreamKeys, (encode k i).length = i.byteLength

theorem nop : Statement .nop := fun _ => rfl
theorem reset : Statement .reset := fun _ => rfl
theorem clrerr : Statement .clrerr := fun _ => rfl
theorem rd8 : Statement .rd8 := fun _ => rfl
theorem rd16le : Statement .rd16le := fun _ => rfl
theorem rd16be : Statement .rd16be := fun _ => rfl
theorem rd32le : Statement .rd32le := fun _ => rfl
theorem rd32be : Statement .rd32be := fun _ => rfl
theorem rdbuf : Statement .rdbuf := fun _ => rfl
theorem pal68 : Statement .pal68 := fun _ => rfl
theorem pal86 : Statement .pal86 := fun _ => rfl
theorem rlea : Statement .rlea := fun _ => rfl
theorem rlebm : Statement .rlebm := fun _ => rfl
theorem rlebf : Statement .rlebf := fun _ => rfl
theorem bplx : Statement .bplx := fun _ => rfl
theorem adrmap : Statement .adrmap := fun _ => rfl
theorem adrgat : Statement .adrgat := fun _ => rfl
theorem run8 (c n : Byte) : Statement (.run8 c n) := fun _ => rfl
theorem run16 (c : Byte) (n : Half) : Statement (.run16 c n) := fun _ => rfl
theorem raw (c : Byte) : Statement (.raw c) := fun _ => rfl
theorem runb (v n : Byte) : Statement (.runb v n) := fun k => by
  simp only [encode]
  split <;> rfl
theorem lit (v : Byte) : Statement (.lit v) := fun _ => rfl

end Sys2Proof.Laws.EncodeLength
end

