-- ==== Sys2Proof/Laws/Registers.lean ====
section
/-! SUPPORT. The register file by number: the reserved numbers, the fields of `BPLCTL`, and the registers no host write
reaches. -/

namespace Sys2Proof.Machine

/-- A reserved number reads as 0. -/
theorem readReg_reserved (r : Regs) (n : BitVec 8) (h : 32 ≤ n.toNat) : readReg r n = 0 := by
  unfold readReg
  split <;> first | rfl | omega

/-- A write of a reserved number stores nothing. -/
theorem writeReg_reserved (r : Regs) (n : BitVec 8) (v : Nat) (h : 32 ≤ n.toNat) : writeReg r n v = r := by
  unfold writeReg
  split <;> first | rfl | omega

/-- A register the host can write is not reserved. -/
theorem readWrite_lt (n : BitVec 8) (h : regAccess n = .readWrite) : n.toNat < 32 := by
  revert n; decide

/-- No host write changes `ERR`. -/
@[simp] theorem writeReg_err (r : Regs) (n : BitVec 8) (v : Nat) : (writeReg r n v).err = r.err := by
  unfold writeReg
  split <;> rfl

/-- `NP` is `BPLCTL` modulo 16. -/
theorem np_eq (r : Regs) : r.np = r.bplctl.toNat % 16 := by simp [Regs.np, BitVec.extractLsb'_toNat]

theorem bitord_eq (r : Regs) : r.bitord = decide (r.bplctl.toNat / 16 % 2 = 1) := by
  simp [Regs.bitord, BitVec.getLsbD, Nat.testBit_eq_decide_div_mod_eq]

theorem plord_eq (r : Regs) : r.plord = decide (r.bplctl.toNat / 32 % 2 = 1) := by
  simp [Regs.plord, BitVec.getLsbD, Nat.testBit_eq_decide_div_mod_eq]

theorem legalPlanes_iff (n : Nat) : legalPlanes n = true ↔ n = 1 ∨ n = 2 ∨ n = 4 ∨ n = 8 := by
  simp [legalPlanes, or_assoc]

end Sys2Proof.Machine
end

