-- ==== Sys2Proof/Tests/Slice0.lean ====
section
/-! SUPPORT. Tests. Every expected value is the spec's own: the encodings of 30_encoding.md and the vectors V-… of
95_test_vectors.md, named beside each test. The second half gives, for each statement that has hypotheses, a concrete
state and operands that meet them all, with the boundary values of its clauses. -/

namespace Sys2Proof.Tests

open Sys2Proof.Machine

/-! ## Helpers -/

/-- The result is a next state with the property. -/
def nextIs (r : Result) (p : State → Bool) : Bool :=
  match r with
  | .next t => p t
  | .fault _ => false
  | .refused _ => false

theorem nextIs_exists {r : Result} {p : State → Bool} (h : nextIs r p = true) : ∃ t, r = .next t ∧ p t = true := by
  cases r with
  | next t => exact ⟨t, rfl, h⟩
  | fault f => cases h
  | refused f => cases h

/-- `SRC` holds `src` from cell 0 and `SLEN` is its length; every other register as in `r`. -/
def load (src : List Byte) (r : Regs) : State :=
  { State.reset with src := blockCells 0 src, regs := { r with slen := BitVec.ofNat 32 src.length } }

/-- The common state of V-BIR. -/
def bir (pos olen : Word) : State := load [0x78, 0x56, 0x34, 0x12, 0x9A] { Regs.zero with pos := pos, olen := olen }

/-- The common state of V-RLA: the window is the whole stream. -/
def rla (window : List Byte) (olen : Word) : State :=
  load window { Regs.zero with plen := BitVec.ofNat 32 window.length, olen := olen, key1 := 0xFE, key2 := 0xFF }

/-- The common state of V-RLB. -/
def rlb (window : List Byte) (order : BitVec 1) (olen : Word) : State :=
  load window { Regs.zero with plen := BitVec.ofNat 32 window.length, olen := olen, esc := 0xC2, rlectl := order }

/-- V-BPL-3: two planes of four pixels. -/
def bpl (ctl : BitVec 6) (width : Half) : State :=
  load [0xB0, 0xC0] { Regs.zero with
    bplctl := ctl, width := width, height := 1, linebits := 8, plb := #v[0, 1, 0, 0, 0, 0, 0, 0] }

/-- Palette slots from slot 0, and the range a scaling command converts. -/
def pal (cells : List Byte) (start : Byte) (count : BitVec 9) : State :=
  { State.reset with pal := blockCells 0 cells, regs := { Regs.zero with pstart := start, pcnt := count } }

/-- A descrambler configuration over a stream of `src`. -/
def adr (src : List Byte) (base columns y height org : Half) : State :=
  load src { Regs.zero with base := base, columns := columns, y := y, height := height, org := org }

/-- The host's next access. -/
def asks (s : State) (a : HostAccess) : State := { s with inbox := [a] }

/-- `ERR` holds `e`. -/
def withErr (s : State) (e : BitVec 3) : State := { s with regs := { s.regs with err := e } }

/-! ## Well-formedness: each check refuses an ill-formed term (30_encoding.md R112, R97) -/

theorem test_raw_key1_refused : Instr.wellFormed ⟨0xFE, 0xFF, 0, 0⟩ (.raw 0xFE) = false := by decide
theorem test_raw_key2_refused : Instr.wellFormed ⟨0xFE, 0xFF, 0, 0⟩ (.raw 0xFF) = false := by decide
theorem test_run16_equal_keys_refused : Instr.wellFormed ⟨0xAA, 0xAA, 0, 0⟩ (.run16 1 2) = false := by decide
theorem test_lit_esc_refused : Instr.wellFormed ⟨0, 0, 0xC2, 0⟩ (.lit 0xC2) = false := by decide

/-! ## Decoding: a word of every row, from R91, R95 to R97, R101, R102 -/

theorem test_decode_nop : decodeTableWord 8 0x00 = some .nop := by decide
theorem test_decode_reset : decodeTableWord 8 0x01 = some .reset := by decide
theorem test_decode_clrerr : decodeTableWord 8 0x02 = some .clrerr := by decide
theorem test_decode_rd8 : decodeTableWord 8 0x10 = some .rd8 := by decide
theorem test_decode_rd16le : decodeTableWord 8 0x11 = some .rd16le := by decide
theorem test_decode_rd16be : decodeTableWord 8 0x12 = some .rd16be := by decide
theorem test_decode_rd32le : decodeTableWord 8 0x13 = some .rd32le := by decide
theorem test_decode_rd32be : decodeTableWord 8 0x14 = some .rd32be := by decide
theorem test_decode_rdbuf : decodeTableWord 8 0x15 = some .rdbuf := by decide
theorem test_decode_pal68 : decodeTableWord 8 0x20 = some .pal68 := by decide
theorem test_decode_pal86 : decodeTableWord 8 0x21 = some .pal86 := by decide
theorem test_decode_rlea : decodeTableWord 8 0x30 = some .rlea := by decide
theorem test_decode_rlebm : decodeTableWord 8 0x40 = some .rlebm := by decide
theorem test_decode_rlebf : decodeTableWord 8 0x41 = some .rlebf := by decide
theorem test_decode_bplx : decodeTableWord 8 0x50 = some .bplx := by decide
theorem test_decode_adrmap : decodeTableWord 8 0x60 = some .adrmap := by decide
theorem test_decode_adrgat : decodeTableWord 8 0x61 = some .adrgat := by decide
/-- `FE 07 03`, the first byte in bits 7:0. -/
theorem test_decode_run8 : decodeTableWord 24 0x0307FE = some (.run8 0x07 0x03) := by decide
/-- `FF 09 01 00`, the count big-endian. -/
theorem test_decode_run16 : decodeTableWord 32 0x000109FF = some (.run16 0x09 0x0100) := by decide
theorem test_decode_raw : decode .rla ⟨0xFE, 0xFF, 0, 0⟩ [0x05] = .ok (.raw 0x05, []) := by decide
theorem test_decode_lit : decode .rlb ⟨0, 0, 0xC2, 0⟩ [0x01] = .ok (.lit 0x01, []) := by decide
theorem test_decode_runb_count_value :
    decode .rlb ⟨0, 0, 0xC2, 0⟩ [0xC2, 0x03, 0x07] = .ok (.runb 0x07 0x03, []) := by decide
theorem test_decode_runb_value_count :
    decode .rlb ⟨0, 0, 0xC2, 1⟩ [0xC2, 0x03, 0x07] = .ok (.runb 0x03 0x07, []) := by decide
/-- R94: with equal keys the first line wins. -/
theorem test_decode_equal_keys : decode .rla ⟨0xAA, 0xAA, 0, 0⟩ [0xAA, 0xAA, 0x03, 0x01] =
    .ok (.run8 0xAA 0x03, [0x01]) := by decide
/-- R93: a reserved code. -/
theorem test_decode_reserved : decodeTableWord 8 0x7F = none := by decide

/-- R112: the pseudo-instructions' bytes. -/
theorem test_pseudo : (pseudoDbl 5).flatMap (encode ⟨0xFE, 0xFF, 0xC2, 0⟩) = [5, 5] ∧
    (pseudoKeyLit2 ⟨0xFE, 0xFF, 0xC2, 0⟩).flatMap (encode ⟨0xFE, 0xFF, 0xC2, 0⟩) = [0xFE, 0xFF, 1] ∧
    (pseudoEscLit ⟨0xFE, 0xFF, 0xC2, 0⟩).flatMap (encode ⟨0xFE, 0xFF, 0xC2, 0⟩) = [0xC2, 1, 0xC2] := by decide

/-! ## The step from reset runs the word that is placed -/

/-- RD8 right after reset: `SLEN` = 0, `READ` (70_reset_and_hazards.md R281). -/
theorem test_first_step_rd8 : nextIs (step (State.reset.withFetchWord 8 0x10))
    (fun t => t.regs.err = 1 ∧ t.job = none) = true := by decide
/-- BPLX right after reset: `NP` = 0, `ILLEGAL` (R281). -/
theorem test_first_step_bplx : nextIs (step (State.reset.withFetchWord 8 0x50)) (fun t => t.regs.err = 5) = true := by
  decide
/-- A reserved code (V-SYS-1). -/
theorem test_first_step_reserved : nextIs (step (State.reset.withFetchWord 8 0x7F)) (fun t => t.regs.err = 5) = true := by
  decide
/-- `FE 07 03` outputs `07 07 07` (R171). -/
theorem test_first_step_run8 : nextIs (step (State.reset.withFetchWord 24 0x0307FE))
    (fun t => t.cells .dst 0 3 = [7, 7, 7] ∧ t.job = some (.rla 3 3)) = true := by decide
/-- `FF 09 00 02`: a 16-bit count below 256 (R99). -/
theorem test_first_step_run16 : nextIs (step (State.reset.withFetchWord 32 0x020009FF))
    (fun t => t.cells .dst 0 2 = [9, 9] ∧ t.job = some (.rla 4 2)) = true := by decide

/-! ## Memory -/

theorem test_write_keeps_form : Memory.writeBlock [(1, 0x11), (5, 0x55)] 3 [0xAA, 0xBB, 0xCC] =
    [(1, 0x11), (3, 0xAA), (4, 0xBB), (5, 0xCC)] := by decide
theorem test_lookup_unwritten : Memory.lookup [(1, 0x11), (5, 0x55)] 3 = none := by decide

/-! ## System commands (V-SYS-4, V-SYS-6; P3) -/

theorem test_nop_under_error : nextIs (exec .nop (withErr (bir 3 0) 1)) (fun t => t = withErr (bir 3 0) 1) = true := by
  decide
/-- V-SYS-6. -/
theorem test_reset : nextIs (exec .reset (withErr { rla [0x05] 17 with dst := [(0, 0x55)] } 2))
    (fun t => t.regs = Regs.zero ∧ t.cell .dst 0 = 0x55) = true := by decide
/-- R242's example: `ERR` = 1, `POS` = 3. -/
theorem test_clrerr : nextIs (exec .clrerr (withErr (bir 3 0) 1)) (fun t => t = bir 3 0) = true := by decide

/-! ## The binary reader -/

/-- V-BIR-1. -/
theorem test_rd8 : nextIs (exec .rd8 (bir 0 0)) (fun t => t.regs.val = 0x78 ∧ t.regs.pos = 1) = true := by decide
/-- V-BIR-6c. -/
theorem test_rd8_at_end : nextIs (exec .rd8 (bir 5 0)) (fun t => t.regs.err = 1 ∧ t.regs.pos = 5) = true := by decide
/-- V-BIR-2. -/
theorem test_rd16le : nextIs (exec .rd16le (bir 0 0)) (fun t => t.regs.val = 0x5678 ∧ t.regs.pos = 2) = true := by decide
/-- V-BIR-6a. -/
theorem test_rd16le_short : nextIs (exec .rd16le (bir 4 0)) (fun t => t.regs.err = 1 ∧ t.regs.pos = 4) = true := by decide
/-- V-BIR-3. -/
theorem test_rd16be : nextIs (exec .rd16be (bir 0 0)) (fun t => t.regs.val = 0x7856 ∧ t.regs.pos = 2) = true := by decide
/-- V-BIR-5b. -/
theorem test_rd16be_unsigned : nextIs (exec .rd16be (bir 3 0)) (fun t => t.regs.val = 0x129A ∧ t.regs.pos = 5) = true := by
  decide
/-- V-BIR-4. -/
theorem test_rd32le : nextIs (exec .rd32le (bir 0 0)) (fun t => t.regs.val = 0x12345678 ∧ t.regs.pos = 4) = true := by
  decide
/-- V-BIR-5a. -/
theorem test_rd32le_odd : nextIs (exec .rd32le (bir 1 0)) (fun t => t.regs.val = 0x9A123456 ∧ t.regs.pos = 5) = true := by
  decide
/-- V-BIR-5. -/
theorem test_rd32be : nextIs (exec .rd32be (bir 0 0)) (fun t => t.regs.val = 0x78563412 ∧ t.regs.pos = 4) = true := by
  decide
/-- V-BIR-9. -/
theorem test_rdbuf : nextIs (exec .rdbuf (bir 1 3)) (fun t =>
    t.dst = [(0, 0x56), (1, 0x34), (2, 0x12)] ∧ t.regs.ocnt = 3 ∧ t.regs.pos = 4) = true := by decide
/-- V-BIR-12. -/
theorem test_rdbuf_past_end : nextIs (exec .rdbuf (bir 6 0)) (fun t => t.regs.err = 1) = true := by decide

/-! ## The palette scaler -/

/-- V-PAL-3. -/
theorem test_pal68 : nextIs (exec .pal68 (pal [63, 32, 1, 9] 0 1)) (fun t => t.cells .pal 0 4 = [255, 129, 4, 9]) = true := by
  decide
/-- V-PAL-6, its slot moved to 0. -/
theorem test_pal68_struct : nextIs (exec .pal68 (pal [10, 64, 3] 0 1)) (fun t =>
    t.regs.err = 2 ∧ t.cells .pal 0 3 = [10, 64, 3]) = true := by decide
/-- V-PAL-4. -/
theorem test_pal86 : nextIs (exec .pal86 (pal [255, 129, 4] 0 1)) (fun t => t.cells .pal 0 3 = [63, 31, 0]) = true := by
  decide
/-- V-PAL-7. -/
theorem test_pal86_range : nextIs (exec .pal86 (pal [] 255 2)) (fun t => t.regs.err = 5) = true := by decide
/-- The table of 41_palette_scaler.md R150. -/
theorem test_scale68_table : (List.range 64).map scale68 =
    [0, 4, 8, 12, 16, 20, 24, 28] ++ [32, 36, 40, 44, 48, 52, 56, 60] ++ [64, 68, 72, 76, 80, 85, 89, 93] ++
    [97, 101, 105, 109, 113, 117, 121, 125] ++ [129, 133, 137, 141, 145, 149, 153, 157] ++
    [161, 165, 170, 174, 178, 182, 186, 190] ++ [194, 198, 202, 206, 210, 214, 218, 222] ++
    [226, 230, 234, 238, 242, 246, 250, 255] := by decide
/-- V-PAL-2. -/
theorem test_scale86 : [0, 4, 5, 8, 9, 127, 128, 129, 130, 250, 251, 254, 255].map scale86 =
    [0, 0, 1, 1, 2, 31, 31, 31, 32, 61, 62, 62, 63] := by decide

/-! ## RLE decoder A -/

/-- V-RLA-3. -/
theorem test_rlea_collision : nextIs (exec .rlea (rla [0xFE, 0xFE, 1, 0xFF, 0xFF, 0, 1, 0xFE, 0xFF, 2] 4)) (fun t =>
    t.cells .dst 0 4 = [0xFE, 0xFF, 0xFF, 0xFF] ∧ t.regs.ocnt = 4 ∧ t.regs.pos = 10) = true := by decide
/-- V-RLA-7b: the trailing zero-count packet is not consumed. -/
theorem test_rlea_stops : nextIs (exec .rlea (rla [8, 0xFE, 7, 0] 1)) (fun t =>
    t.cells .dst 0 1 = [8] ∧ t.regs.pos = 1 ∧ t.regs.err = 0) = true := by decide
/-- V-RLA-6: not clipped. -/
theorem test_run8_overshoot : nextIs (exec (.run8 7 5) { rla [0xFE, 7, 5] 3 with job := some (.rla 0 0) })
    (fun t => t.regs.err = 2) = true := by decide
/-- V-RLA-5a. -/
theorem test_run16_truncated : nextIs (exec .rlea (rla [0xFF, 7, 0] 3)) (fun t => t.regs.err = 2) = true := by decide
/-- R167's example: byte `05`. -/
theorem test_raw : nextIs (exec (.raw 5) { rla [5, 5] 2 with job := some (.rla 1 1) }) (fun t =>
    t.dst = [(1, 5)] ∧ t.job = some (.rla 2 2)) = true := by decide

/-! ## RLE decoder B -/

/-- V-RLB-2. -/
theorem test_rlebm_value_count : nextIs (exec .rlebm (rlb [1, 0xC2, 3, 7, 2] 1 0)) (fun t =>
    t.regs.mlen = 9 ∧ t.regs.pos = 0 ∧ t.dst = []) = true := by decide
/-- V-RLB-4a. -/
theorem test_rlebm_truncated : nextIs (exec .rlebm (rlb [4, 0xC2] 0 0)) (fun t => t.regs.err = 2) = true := by decide
/-- V-RLB-1. -/
theorem test_rlebf : nextIs (exec .rlebf (rlb [1, 0xC2, 3, 7, 2] 0 5)) (fun t =>
    t.cells .dst 0 5 = [1, 7, 7, 7, 2] ∧ t.regs.ocnt = 5 ∧ t.regs.pos = 5) = true := by decide
/-- V-RLB-9: `OLEN` above the output is no fault. -/
theorem test_rlebf_partial : nextIs (exec .rlebf (rlb [1, 0xC2, 3, 7, 2] 0 10)) (fun t =>
    t.regs.err = 0 ∧ t.regs.ocnt = 5 ∧ t.dst.length = 5) = true := by decide
/-- V-RLB-5: a zero count puts out nothing. -/
theorem test_runb_zero : nextIs (exec (.runb 9 0) { rlb [0xC2, 0, 9, 6] 0 1 with job := some (.rlbFill 0 0) }) (fun t =>
    t.dst = [] ∧ t.job = some (.rlbFill 3 0)) = true := by decide
/-- R186's example: byte `01`. -/
theorem test_lit : nextIs (exec (.lit 1) { rlb [1] 0 1 with job := some (.rlbMeasure 0 0) }) (fun t =>
    t.job = some (.rlbMeasure 1 1)) = true := by decide

/-! ## The bit-plane unpacker -/

/-- V-BPL-3. -/
theorem test_bplx : nextIs (exec .bplx (bpl 0x02 4)) (fun t => t.cells .dst 0 4 = [3, 2, 1, 1] ∧ t.regs.ocnt = 4) = true := by
  decide
/-- V-BPL-4. -/
theorem test_bplx_plord : nextIs (exec .bplx (bpl 0x22 4)) (fun t => t.cells .dst 0 4 = [3, 1, 2, 2]) = true := by decide

/-! ## The address descrambler -/

/-- V-ADR-13: `t` is not truncated early. -/
theorem test_adrmap : nextIs (exec .adrmap (adr [] 0xFFFF 0xFFFF 0xFFFF 0 0)) (fun t => t.regs.addr = 0xF800) = true := by
  decide
/-- V-ADR-7: bit 11 moves to bit 14. -/
theorem test_adrmap_page : nextIs (exec .adrmap (adr [] 0x07D0 80 8 0 0)) (fun t => t.regs.addr = 0x4020) = true := by
  decide
/-- V-ADR-20. -/
theorem test_adrgat_below_origin : nextIs (exec .adrgat (adr [1, 2] 0xC000 1 0 1 0xC001)) (fun t => t.regs.err = 1) = true := by
  decide
/-- R228: scanline 0 from `SRC[0x0000 ..]`. -/
theorem test_adrgat : nextIs (exec .adrgat (adr [0x10, 0x20] 0xC000 2 0 1 0xC000)) (fun t =>
    t.cells .dst 0 2 = [0x10, 0x20] ∧ t.regs.ocnt = 2) = true := by decide

/-! ## The host port (V-SYS-2, V-SYS-5, V-SYS-7 to V-SYS-9) -/

theorem test_short_circuit : nextIs (step (asks (withErr (bir 0 0) 5) (.writeReg 0x00 0x10))) (fun t =>
    t = withErr (bir 0 0) 5) = true := by decide
theorem test_key_keeps_low_bits : nextIs (step (asks (bir 0 0) (.writeReg 0x09 0x1FF))) (fun t => t.regs.key1 = 0xFF) = true := by
  decide
theorem test_read_only_ignored : nextIs (step (asks (bir 0 0) (.writeReg 0x01 7))) (fun t => t = bir 0 0) = true := by decide
theorem test_pos_written_under_error : nextIs (step (asks (withErr (bir 0 0) 1) (.writeReg 0x02 99))) (fun t =>
    t.regs.pos = 99 ∧ t.regs.err = 1) = true := by decide
theorem test_read_register : nextIs (step (asks (bir 3 0) (.readReg 0x03))) (fun t => t.reply = some 5) = true := by decide

/-- The first lines of a host program (R111), run access by access. -/
theorem test_host_program : nextIs (step { State.reset with inbox := hostLoad [0x12] ++ hostSet 0x03 1 }) (fun t =>
    t.cell .src 0 = 0x12 ∧ t.regs.slen = 0 ∧ nextIs (step t) (fun u => u.regs.slen = 1 ∧ u.inbox = []) = true) = true := by
  decide
theorem test_host_command : hostCommand .rd16be = [.writeReg 0x00 0x12] ∧ pseudoSeek 7 = [.writeReg 0x02 7] := by decide

/-! ## Witnesses: a state and operands that meet the hypotheses of each statement, named after it -/

/-- The next state of a run that is known to give one, with its property as a proposition. -/
theorem next_of {r : Result} (p : State → Prop) [DecidablePred p] (h : nextIs r (fun t => decide (p t)) = true) :
    ∃ t, r = .next t ∧ p t := by
  obtain ⟨t, h1, h2⟩ := nextIs_exists h
  exact ⟨t, h1, of_decide_eq_true h2⟩

theorem witness_DecodeInvertsEncode : ∀ i ∈ [Instr.run16 0xFF 0xFFFF, .raw 0, .run8 0xFE 0, .rd8],
    i.wellFormed ⟨0xFE, 0xFF, 0, 0⟩ = true := by decide

theorem witness_DecodedBytesAreTheEncoding :
    decode .rlb ⟨0, 0, 0xC2, 1⟩ [0xC2, 0xC2, 0x01, 0x05] = .ok (.runb 0xC2 0x01, [0x05]) := by decide

/-- The clauses of FirstByteFixesPacketLength where the bytes just suffice and where one is missing. -/
theorem witness_FirstByteFixesPacketLength :
    decode .rla ⟨0xFE, 0xFF, 0, 0⟩ [0xFE, 7] = .error .truncated ∧
    decode .rla ⟨0xFE, 0xFF, 0, 0⟩ [0xFF, 7, 0] = .error .truncated ∧
    decode .rla ⟨0xFE, 0xFF, 0, 0⟩ [0xFE, 7, 3] = .ok (.run8 7 3, []) ∧
    decode .rlb ⟨0, 0, 0xC2, 0⟩ [0xC2, 3] = .error .truncated := by decide

theorem witness_StepRunsIssuedCommand :
    (asks (bir 0 0) (.writeReg 0x00 0x110)).job = none ∧
    (asks (bir 0 0) (.writeReg 0x00 0x110)).inbox = [.writeReg 0x00 0x110] ∧
    decodeCommand (BitVec.ofNat 8 0x110) = .ok .rd8 := by decide

theorem witness_StepRunsFetchedPacket_rla :
    let s := { rla [0xFE, 7, 3] 3 with job := some (.rla 0 0) }
    0 < s.regs.olen.toNat ∧ 0 < s.windowEnd ∧ s.readSrc 0 (min 4 (s.windowEnd - 0)) = some [0xFE, 7, 3] ∧
    decode .rla s.regs.keys [0xFE, 7, 3] = .ok (.run8 7 3, []) := by decide

theorem witness_StepRunsFetchedPacket_rlb : ∀ j ∈ [Job.rlbMeasure 0 0, .rlbFill 0 0],
    let s := { rlb [0xC2, 3, 7] 0 3 with job := some j }
    0 < s.windowEnd ∧ s.readSrc 0 (min 4 (s.windowEnd - 0)) = some [0xC2, 3, 7] ∧
    decode .rlb s.regs.keys [0xC2, 3, 7] = .ok (.runb 7 3, []) := by decide

/-- The ends of every reserved range of R93, and the two values of `ERR` the clauses speak of. -/
theorem witness_ReservedCodeRaisesIllegal :
    (∀ v ∈ [0x03, 0x0F, 0x16, 0x1F, 0x22, 0x2F, 0x31, 0x3F, 0x42, 0x4F, 0x51, 0x5F, 0x62, 0xFF],
      (0x03 ≤ v % 256 ∧ v % 256 ≤ 0x0F ∨ 0x16 ≤ v % 256 ∧ v % 256 ≤ 0x1F ∨ 0x22 ≤ v % 256 ∧ v % 256 ≤ 0x2F ∨
        0x31 ≤ v % 256 ∧ v % 256 ≤ 0x3F ∨ 0x42 ≤ v % 256 ∧ v % 256 ≤ 0x4F ∨ 0x51 ≤ v % 256 ∧ v % 256 ≤ 0x5F ∨
        0x62 ≤ v % 256) ∧ (asks (bir 0 0) (.writeReg 0x00 v)).job = none ∧
      (asks (bir 0 0) (.writeReg 0x00 v)).regs.err = 0) ∧
    (asks (withErr (bir 0 0) 1) (.writeReg 0x00 0x7F)).regs.err ≠ 0 := by decide

/-- Each clause of HostAccessEffects, at the last cell that exists and the first that does not. -/
theorem witness_HostAccessEffects :
    (bir 0 0).job = none ∧ (bir 0 0).inbox = [] ∧
    (asks (bir 0 0) (.readReg 0xFF)).inbox = [.readReg 0xFF] ∧
    (asks (bir 0 0) (.readCell .src 65535)).inbox = [.readCell .src 65535] ∧ 65535 < (bir 0 0).spaceSize .src ∧
    (asks (bir 0 0) (.writeCell .pal 767 1)).inbox = [.writeCell .pal 767 1] ∧ 767 < (bir 0 0).spaceSize .pal ∧
    (asks (bir 0 0) (.writeCell .pal 768 1)).inbox = [.writeCell .pal 768 1] ∧ (bir 0 0).spaceSize .pal ≤ 768 ∧
    (asks (bir 0 0) (.readCell .dst 65536)).inbox = [.readCell .dst 65536] ∧ (bir 0 0).spaceSize .dst ≤ 65536 := by
  decide

/-- The four kinds of register number at their ends. -/
theorem witness_RegisterWritesKeepLowBits :
    regAccess 0x02 = .readWrite ∧ regAccess 0x1F = .readWrite ∧ regAccess 0x01 = .readOnly ∧ regAccess 0x1D = .readOnly ∧
    regAccess 0x00 = .writeOnly ∧ regAccess 0x20 = .reserved ∧ regAccess 0xFF = .reserved ∧
    (asks (bir 0 0) (.writeReg 0x20 5)).job = none ∧ (asks (bir 0 0) (.writeReg 0x20 5)).inbox = [.writeReg 0x20 5] := by
  decide

theorem witness_ShortCircuitSkipsCommands :
    Instr.rlea.decoder = .command ∧ Instr.rlea.runsAlways = false ∧ (withErr (bir 0 0) 1).regs.err ≠ 0 ∧
    (asks (withErr (bir 0 0) 1) (.writeReg 0x00 0x03)).job = none ∧ 0x03 % 256 ≠ 0 ∧ 0x03 % 256 ≠ 1 ∧ 0x03 % 256 ≠ 2 := by
  decide

/-- One faulting run of each shape of FaultKeepsTheRest: before the first write, and mid-stream. -/
theorem witness_FaultKeepsTheRest :
    (∃ t, exec .rd8 (bir 5 0) = .next t ∧ t.regs.err ≠ 0 ∧ ¬ (t.regs.err = 2 ∧ (Instr.rd8 = .rlea ∨ Instr.rd8 = .rlebf))) ∧
    (∃ t, exec .rlea (rla [0xFF, 7, 0] 3) = .next t ∧ t.regs.err ≠ 0) ∧
    (bir 5 0).regs.err = 0 ∧ (rla [0xFF, 7, 0] 3).regs.err = 0 :=
  ⟨next_of _ (by decide), next_of _ (by decide), by decide, by decide⟩

/-- Every outcome FaultKindsOfEachCommand allows happens. -/
theorem witness_FaultKindsOfEachCommand :
    (∃ t, exec .rd8 (bir 0 0) = .next t ∧ t.regs.err = 0) ∧
    (∃ t, exec .rd8 (bir 5 0) = .next t ∧ t.regs.err = 1) ∧
    (∃ t, exec .pal68 (pal [10, 64, 3] 0 1) = .next t ∧ t.regs.err = 2) ∧
    (∃ t, exec .rlea (rla [] 65537) = .next t ∧ t.regs.err = 4) ∧
    (∃ t, exec .bplx (bpl 0x03 4) = .next t ∧ t.regs.err = 5) :=
  ⟨next_of _ (by decide), next_of _ (by decide), next_of _ (by decide), next_of _ (by decide), next_of _ (by decide)⟩

/-- Both clauses of ReaderPrologueFaults at the first value that faults. -/
theorem witness_ReaderPrologueFaults :
    let s := { bir 0 0 with params := ⟨4, 65536, 0⟩ }
    s.regs.err = 0 ∧ s.job = none ∧ s.params.srcCap < s.regs.slen.toNat ∧
    (bir 2 0).regs.slen.toNat ≤ (bir 2 0).params.srcCap ∧ (bir 2 0).regs.slen.toNat < (bir 2 0).regs.pos.toNat + 4 := by
  decide

/-- The three clauses of StreamCommandPrologueFaults at the first value that faults. -/
theorem witness_StreamCommandPrologueFaults :
    let s := { rlb [1, 2, 3] 0 4 with params := ⟨2, 65536, 0⟩ }
    let u := rlb [1, 2, 3] 0 4
    let v := { u with regs := { u.regs with pos := 1 } }
    let w := { u with params := ⟨65536, 3, 0⟩ }
    s.regs.err = 0 ∧ s.job = none ∧ s.params.srcCap < s.regs.slen.toNat ∧
    v.regs.err = 0 ∧ v.job = none ∧ v.regs.slen.toNat ≤ v.params.srcCap ∧
    v.regs.slen.toNat < v.regs.pos.toNat + v.regs.plen.toNat ∧
    w.regs.err = 0 ∧ w.job = none ∧ w.regs.slen.toNat ≤ w.params.srcCap ∧
    w.regs.pos.toNat + w.regs.plen.toNat ≤ w.regs.slen.toNat ∧ w.params.dstLen < w.regs.olen.toNat := by decide

/-- The four clauses of BplxPrologueFaults: a bad plane count, `SLEN` above capacity, one byte missing, one cell
missing. -/
theorem witness_BplxPrologueFaults :
    (bpl 0x03 4).regs.err = 0 ∧ (bpl 0x03 4).job = none ∧ (bpl 0x03 4).regs.bplctl.toNat % 16 = 3 ∧
    (bpl 0x02 4).regs.bplctl.toNat % 16 = 2 ∧
    ({ bpl 0x02 4 with params := ⟨1, 65536, 0⟩ } : State).params.srcCap < (bpl 0x02 4).regs.slen.toNat ∧
    (0 < (bpl 0x02 9).regs.width.toNat ∧ 0 < (bpl 0x02 9).regs.height.toNat ∧
      (bpl 0x02 9).regs.slen.toNat < ((bpl 0x02 9).regs.plb[1]?.getD 0).toNat + (0 * 8 + (9 - 1)) / 8 + 1) ∧
    ({ bpl 0x02 8 with params := ⟨65536, 7, 0⟩ } : State).params.dstLen < 8 * 1 := by decide

/-- The three clauses of AdrgatPrologueFaults (V-ADR-20 for `A < ORG`). -/
theorem witness_AdrgatPrologueFaults :
    (adr [1, 2] 0xC000 1 0 1 0xC001).regs.err = 0 ∧ (adr [1, 2] 0xC000 1 0 1 0xC001).job = none ∧
    ({ adr [1, 2] 0xC000 1 0 1 0xC001 with params := ⟨1, 65536, 0⟩ } : State).params.srcCap < 2 ∧
    (scramble 0xC000 1 0 < 0xC001) ∧
    (let s := { adr [1, 2] 0xC000 2 0 1 0xC000 with params := ⟨65536, 1, 0⟩ };
      s.regs.slen.toNat ≤ s.params.srcCap ∧ ¬ scramble 0xC000 2 0 < 0xC000 ∧
      ¬ s.regs.slen.toNat < scramble 0xC000 2 0 - 0xC000 + 2 ∧ s.params.dstLen < 1 * 2) := by decide

/-- The reads of IntegerReadsDeliver that just fit, one for each width. -/
theorem witness_IntegerReadsDeliver :
    (bir 1 0).regs.err = 0 ∧ (bir 1 0).regs.slen.toNat ≤ (bir 1 0).params.srcCap ∧
    (bir 4 0).regs.pos.toNat + 1 ≤ (bir 4 0).regs.slen.toNat ∧ (bir 3 0).regs.pos.toNat + 2 ≤ (bir 3 0).regs.slen.toNat ∧
    (bir 1 0).regs.pos.toNat + 4 ≤ (bir 1 0).regs.slen.toNat := by decide

/-- The four clauses of RdbufCopiesStreamBytes at their first value, the last two one cell apart. -/
theorem witness_RdbufCopiesStreamBytes :
    let u := bir 1 4
    let s := { u with params := ⟨4, 65536, 0⟩ }
    let v := bir 1 5
    let w := { u with params := ⟨65536, 3, 0⟩ }
    let x := { u with params := ⟨65536, 4, 0⟩ }
    s.regs.err = 0 ∧ s.job = none ∧ s.params.srcCap < s.regs.slen.toNat ∧
    v.regs.slen.toNat ≤ v.params.srcCap ∧ v.regs.slen.toNat < v.regs.pos.toNat + v.regs.olen.toNat ∧
    w.regs.slen.toNat ≤ w.params.srcCap ∧ w.regs.pos.toNat + w.regs.olen.toNat ≤ w.regs.slen.toNat ∧
    w.params.dstLen < w.regs.olen.toNat ∧ x.regs.olen.toNat ≤ x.params.dstLen := by decide

theorem witness_ByteReadsAgreeWithWordReads : ∃ t u, (bir 3 0).regs.err = 0 ∧ exec .rd8 (bir 3 0) = .next t ∧
    t.regs.err = 0 ∧ exec .rd8 t = .next u ∧ u.regs.err = 0 := by
  obtain ⟨t, h1, h2, h3⟩ := next_of (r := exec .rd8 (bir 3 0))
    (fun t => t.regs.err = 0 ∧ nextIs (exec .rd8 t) (fun u => u.regs.err = 0) = true) (by decide)
  obtain ⟨u, h4, h5⟩ := nextIs_exists h3
  exact ⟨t, u, rfl, h1, h2, h4, of_decide_eq_true h5⟩

/-- The three clauses of Pal68ScalesItsSlots: a range one slot too long, a channel of 64, and a channel of 63. -/
theorem witness_Pal68ScalesItsSlots :
    (pal [] 255 2).regs.err = 0 ∧ (pal [] 255 2).job = none ∧ 256 < (255 : Byte).toNat + (2 : BitVec 9).toNat ∧
    63 < ((pal [10, 64, 3] 0 1).cell .pal 1).toNat ∧
    (pal [63, 0, 63] 0 1).regs.pstart.toNat + (pal [63, 0, 63] 0 1).regs.pcnt.toNat ≤ 256 ∧
    (∀ a, 0 ≤ a → a < 3 → ((pal [63, 0, 63] 0 1).cell .pal a).toNat ≤ 63) :=
  ⟨by decide, by decide, by decide, by decide, by decide, fun a _ h => by interval_cases a <;> decide⟩

theorem witness_Pal86ScalesItsSlots :
    (pal [] 255 2).regs.err = 0 ∧ (pal [] 255 2).job = none ∧ 256 < (255 : Byte).toNat + (2 : BitVec 9).toNat ∧
    (255 : Byte).toNat + (1 : BitVec 9).toNat ≤ 256 := by decide

/-- A packet that just fits the window and the picture, of each of the three forms. -/
theorem witness_RlaPacketsEmitTheirRun :
    let s := { rla [0xFE, 7, 3] 3 with job := some (.rla 0 0) }
    let u := { rla [0xFF, 7, 0, 0] 0 with job := some (.rla 0 0) }
    let v := { rla [5, 5] 2 with job := some (.rla 1 1) }
    s.regs.olen.toNat ≤ s.params.dstLen ∧ 0 + 3 ≤ s.windowEnd ∧ 0 + 3 ≤ s.regs.olen.toNat ∧
    u.regs.olen.toNat ≤ u.params.dstLen ∧ 0 + 4 ≤ u.windowEnd ∧ 0 + u.params.zeroCount ≤ u.regs.olen.toNat ∧
    v.regs.olen.toNat ≤ v.params.dstLen ∧ 1 + 1 ≤ v.windowEnd ∧ 1 + 1 ≤ v.regs.olen.toNat := by decide

/-- One byte short of the window, and one byte past the picture. -/
theorem witness_RlaPacketsRaiseStruct :
    (let s := { rla [0xFE, 7] 3 with job := some (.rla 0 0) };
      s.windowEnd < 0 + 3) ∧
    (let s := { rla [0xFE, 7, 4] 3 with job := some (.rla 0 0) };
      s.regs.olen.toNat < 0 + s.runLength 4) := by decide

theorem witness_PacketsOutsideTheirDecoderAreRefused :
    (Instr.raw 5).decoder = .rla ∧ (bir 0 0).job = none ∧ (Instr.lit 5).decoder = .rlb ∧
    ({ bir 0 0 with job := some (.rla 0 0) } : State).job ≠ some (.rlbMeasure 0 0) := by decide

/-- V-RLA-2's shape: the packets make `OLEN` bytes and two bytes of the window are left. -/
theorem witness_RleaDecodesPacketStreams :
    let s := rla [0xFE, 7, 3, 9, 9] 3
    let ps := [Instr.run8 7 3]
    s.regs.err = 0 ∧ s.regs.slen.toNat ≤ s.params.srcCap ∧ s.windowEnd ≤ s.regs.slen.toNat ∧
    s.regs.olen.toNat ≤ s.params.dstLen ∧ isStreamOf .rla s ps ∧ s.holds .src s.regs.pos.toNat (streamBytes s ps) ∧
    (streamBytes s ps).length ≤ s.regs.plen.toNat ∧ (streamOutput s ps).length = s.regs.olen.toNat ∧
    (∀ qs rs, ps = qs ++ rs → rs ≠ [] → (streamOutput s qs).length < s.regs.olen.toNat) := by
  refine ⟨rfl, by decide, by decide, by decide, ?_, by unfold State.holds; decide, by decide, by decide, ?_⟩
  · intro i hi
    rw [List.mem_singleton.mp hi]
    decide
  · intro qs rs h hr
    cases qs with
    | nil => decide
    | cons q qs =>
      have := (List.append_eq_nil_iff.mp (List.cons.inj h).2.symm).2
      exact absurd this hr

/-- V-RLA-3's packets. -/
theorem witness_RleaInvertsTheEncoder :
    let s := rla [0xFE, 0xFE, 1, 0xFF, 0xFF, 0, 1, 0xFE, 0xFF, 2] 4
    let ps := [Instr.run8 0xFE 1, .run16 0xFF 1, .run8 0xFF 2]
    s.regs.err = 0 ∧ s.regs.slen.toNat ≤ s.params.srcCap ∧ s.windowEnd ≤ s.regs.slen.toNat ∧
    s.regs.olen.toNat ≤ s.params.dstLen ∧ isStreamOf .rla s ps ∧ (∀ i ∈ ps, packetOutput s i ≠ []) ∧
    s.holds .src s.regs.pos.toNat (streamBytes s ps) ∧ s.regs.plen.toNat = (streamBytes s ps).length ∧
    s.regs.olen.toNat = (streamOutput s ps).length := by
  unfold isStreamOf State.holds
  decide

/-- Both parts of RleaCompletesWithOlenBytes: V-RLA-9 (`OLEN` = 0), and V-RLA-4 (three bytes of four). -/
theorem witness_RleaCompletesWithOlenBytes :
    (∃ t, exec .rlea (rla [9, 9, 9] 0) = .next t ∧ t.regs.err = 0 ∧ (rla [9, 9, 9] 0).regs.olen = 0) ∧
    (let s := rla [1, 2, 3] 4;
      let ps := [Instr.raw 1, .raw 2, .raw 3]
      s.regs.err = 0 ∧ s.regs.slen.toNat ≤ s.params.srcCap ∧ s.windowEnd ≤ s.regs.slen.toNat ∧
      s.regs.olen.toNat ≤ s.params.dstLen ∧ isStreamOf .rla s ps ∧
      s.holds .src s.regs.pos.toNat (streamBytes s ps) ∧ (streamBytes s ps).length = s.regs.plen.toNat ∧
      (streamOutput s ps).length < s.regs.olen.toNat) := by
  refine ⟨next_of _ (by decide), ?_⟩
  unfold isStreamOf State.holds
  decide

/-- An escape whose packet is one byte short, in each decoder and pass. -/
theorem witness_TruncatedPacketRaisesStruct :
    (let s := { rla [0xFE, 7] 3 with job := some (.rla 0 0) };
      s.regs.slen.toNat ≤ s.params.srcCap ∧ s.windowEnd ≤ s.regs.slen.toNat ∧ 0 < s.windowEnd ∧ 0 < s.regs.olen.toNat ∧
      s.cell .src 0 = s.regs.key1 ∧ s.windowEnd < 0 + 3) ∧
    (let s := { rla [0xFF, 7, 0] 3 with job := some (.rla 0 0) };
      s.cell .src 0 ≠ s.regs.key1 ∧ s.cell .src 0 = s.regs.key2 ∧ s.windowEnd < 0 + 4 ∧ 0 < s.regs.olen.toNat) ∧
    (∀ j ∈ [Job.rlbMeasure 0 0, .rlbFill 0 0],
      let s := { rlb [0xC2, 7] 0 3 with job := some j }
      s.regs.slen.toNat ≤ s.params.srcCap ∧ s.windowEnd ≤ s.regs.slen.toNat ∧ 0 < s.windowEnd ∧
      s.cell .src 0 = s.regs.esc ∧ s.windowEnd < 0 + 3) := by decide

theorem witness_RleDecodersShareNoKeys :
    (∃ t, exec .rlea (rla [0xFE, 7, 3] 3) = .next t ∧ t.regs.err = 0) ∧
    (∃ t, exec .rlebm (rlb [0xC2, 3, 7] 0 3) = .next t ∧ t.regs.err = 0) ∧
    (∃ t, exec .rlebf (rlb [0xC2, 3, 7] 0 3) = .next t ∧ t.regs.err = 0) :=
  ⟨next_of _ (by decide), next_of _ (by decide), next_of _ (by decide)⟩

/-- A `SRC` that differs in the byte after the window. -/
theorem witness_RleCommandsReadOnlyTheWindow :
    let s := { rla [0xFE, 7, 3, 1] 3 with regs := { (rla [0xFE, 7, 3, 1] 3).regs with plen := 3 } }
    let m : Memory := [(0, 0xFE), (1, 7), (2, 3), (3, 0x55)]
    m ≠ s.src ∧ (∀ a < s.windowEnd, State.cell { s with src := m } .src a = s.cell .src a) ∧
    nextIs (exec .rlea s) (fun t => t.regs.err = 0) = true := by decide

theorem witness_RleCommandsAreTheirPacketSteps :
    let s := rla [0xFE, 7, 3] 3
    s.regs.err = 0 ∧ s.regs.slen.toNat ≤ s.params.srcCap ∧ s.windowEnd ≤ s.regs.slen.toNat ∧
    s.regs.olen.toNat ≤ s.params.dstLen := by decide

/-- The three clauses of RlbPacketsMeasureTheirRun: the length just fits, is one too long, and the packet is cut. -/
theorem witness_RlbPacketsMeasureTheirRun :
    (let s := { rlb [1] 0 0 with job := some (.rlbMeasure 0 (2 ^ 32 - 2)) };
      0 + 1 ≤ s.windowEnd ∧ 2 ^ 32 - 2 + 1 ≤ 2 ^ 32 - 1) ∧
    (let s := { rlb [1] 0 0 with job := some (.rlbMeasure 0 (2 ^ 32 - 1)) };
      0 + 1 ≤ s.windowEnd ∧ 2 ^ 32 - 1 < 2 ^ 32 - 1 + 1) ∧
    (let s := { rlb [0xC2, 1] 0 0 with job := some (.rlbMeasure 0 0) };
      s.windowEnd < 0 + 3) := by decide

/-- Both clauses of RlbPacketsFillTheirRun: the run just fits, the packet is cut, and (V-RLB-8) `LIT 02` passes the
capacity. -/
theorem witness_RlbPacketsFillTheirRun :
    (let s := { rlb [0xC2, 3, 7] 0 3 with job := some (.rlbFill 0 0) };
      s.regs.olen.toNat ≤ s.params.dstLen ∧ 0 + 3 ≤ s.windowEnd ∧ 0 + s.runLength 3 ≤ s.regs.olen.toNat) ∧
    (let s := { rlb [0xC2, 3] 0 3 with job := some (.rlbFill 0 0) };
      s.regs.olen.toNat ≤ s.params.dstLen ∧ s.windowEnd < 0 + 3) ∧
    (let s := { rlb [1, 0xC2, 3, 7, 2] 0 4 with job := some (.rlbFill 4 4) };
      s.regs.olen.toNat ≤ s.params.dstLen ∧ s.regs.olen.toNat < 4 + 1) := by decide

/-- The first clause of RlebmMeasuresPacketStreams: V-RLB-5. -/
theorem witness_RlebmMeasuresPacketStreams :
    let s := rlb [0xC2, 0, 9, 6] 0 0
    let ps := [Instr.runb 9 0, .lit 6]
    s.regs.err = 0 ∧ s.job = none ∧ s.regs.slen.toNat ≤ s.params.srcCap ∧ s.windowEnd ≤ s.regs.slen.toNat ∧
    isStreamOf .rlb s ps ∧ s.holds .src s.regs.pos.toNat (streamBytes s ps) ∧
    (streamBytes s ps).length = s.regs.plen.toNat ∧ (streamOutput s ps).length ≤ 2 ^ 32 - 1 := by
  unfold isStreamOf State.holds
  decide

/-- The second clause: one zero-count packet where `ZERO_COUNT` = 2^32. -/
theorem witness_RlebmMeasuresPacketStreams_overflow :
    let s := { rlb [0xC2, 0, 9] 0 0 with params := ⟨65536, 65536, 2 ^ 32⟩ }
    let ps := [Instr.runb 9 0]
    s.regs.err = 0 ∧ s.job = none ∧ s.regs.slen.toNat ≤ s.params.srcCap ∧ s.windowEnd ≤ s.regs.slen.toNat ∧
    isStreamOf .rlb s ps ∧ s.holds .src s.regs.pos.toNat (streamBytes s ps) ∧
    (streamBytes s ps).length = s.regs.plen.toNat ∧ 2 ^ 32 - 1 < (streamOutput s ps).length := by
  refine ⟨by decide, by decide, by decide, by decide, ?_, ?_, by decide, ?_⟩
  · unfold isStreamOf
    decide
  · unfold State.holds
    decide
  · show 2 ^ 32 - 1 < (List.replicate (2 ^ 32) (9 : Byte) ++ []).length
    rw [List.append_nil, List.length_replicate]
    omega

/-- The first clause of RlebfFillsPacketStreams: V-RLB-1. -/
theorem witness_RlebfFillsPacketStreams :
    let s := rlb [1, 0xC2, 3, 7, 2] 0 5
    let ps := [Instr.lit 1, .runb 7 3, .lit 2]
    s.regs.err = 0 ∧ s.job = none ∧ s.regs.slen.toNat ≤ s.params.srcCap ∧ s.windowEnd ≤ s.regs.slen.toNat ∧
    s.regs.olen.toNat ≤ s.params.dstLen ∧ isStreamOf .rlb s ps ∧
    s.holds .src s.regs.pos.toNat (streamBytes s ps) ∧ (streamBytes s ps).length = s.regs.plen.toNat ∧
    (streamOutput s ps).length ≤ s.regs.olen.toNat := by
  unfold isStreamOf State.holds
  decide

/-- The second clause: V-RLB-8, one cell too few. -/
theorem witness_RlebfFillsPacketStreams_overflow :
    let s := rlb [1, 0xC2, 3, 7, 2] 0 4
    let ps := [Instr.lit 1, .runb 7 3, .lit 2]
    s.regs.err = 0 ∧ s.job = none ∧ s.regs.slen.toNat ≤ s.params.srcCap ∧ s.windowEnd ≤ s.regs.slen.toNat ∧
    s.regs.olen.toNat ≤ s.params.dstLen ∧ isStreamOf .rlb s ps ∧
    s.holds .src s.regs.pos.toNat (streamBytes s ps) ∧ (streamBytes s ps).length = s.regs.plen.toNat ∧
    s.regs.olen.toNat < (streamOutput s ps).length := by
  unfold isStreamOf State.holds
  decide

/-- Program P2's two passes on V-RLB-1's window. -/
theorem witness_MeasureEqualsFill :
    let s := rlb [1, 0xC2, 3, 7, 2] 0 0
    let u := rlb [1, 0xC2, 3, 7, 2] 0 5
    ∃ t, exec .rlebm s = .next t ∧ t.regs.err = 0 ∧ u.regs.err = 0 ∧ u.params = s.params ∧ u.regs.pos = s.regs.pos ∧
      u.regs.plen = s.regs.plen ∧ u.regs.slen = s.regs.slen ∧ u.regs.esc = s.regs.esc ∧
      u.regs.rlectl = s.regs.rlectl ∧ (∀ a, s.regs.pos.toNat ≤ a → a < s.windowEnd → u.cell .src a = s.cell .src a) ∧
      u.regs.olen = t.regs.mlen ∧ t.regs.mlen.toNat ≤ u.params.dstLen := by
  obtain ⟨t, h1, h2, h3⟩ := next_of (r := exec .rlebm (rlb [1, 0xC2, 3, 7, 2] 0 0))
    (fun t => t.regs.err = 0 ∧ t.regs.mlen = 5) (by decide)
  exact ⟨t, h1, h2, rfl, rfl, rfl, rfl, rfl, rfl, rfl, fun _ _ _ => rfl, h3.symm, by rw [h3]; decide⟩

/-- V-BPL-3, whose planes just fit, and an empty picture (V-BPL-13), whose planes need no byte. -/
theorem witness_BplxUnpacksPixels :
    (bpl 0x02 4).regs.err = 0 ∧ (bpl 0x02 4).regs.slen.toNat ≤ (bpl 0x02 4).params.srcCap ∧
    (bpl 0x02 4).regs.bplctl.toNat % 16 = 2 ∧
    (∀ p < 2, ((bpl 0x02 4).regs.plb[p]?.getD 0).toNat + ((1 - 1) * 8 + (4 - 1)) / 8 + 1 ≤ (bpl 0x02 4).regs.slen.toNat) ∧
    4 * 1 ≤ (bpl 0x02 4).params.dstLen ∧ ¬ 0 < (bpl 0x02 0).regs.width.toNat ∧ (bpl 0x02 0).regs.err = 0 := by decide

theorem witness_BplxOutputsBelowPlaneLimit :
    (bpl 0x02 4).regs.err = 0 ∧ (∃ t, exec .bplx (bpl 0x02 4) = .next t ∧ t.regs.err = 0) ∧
    3 < (bpl 0x02 4).regs.width.toNat * (bpl 0x02 4).regs.height.toNat :=
  ⟨rfl, next_of _ (by decide), by decide⟩

theorem witness_AdrmapComputesScrambledAddress : (adr [] 0xFFFF 0xFFFF 0xFFFF 0 0).regs.err = 0 := rfl

/-- Each of the four cases in which the unmasked formula differs (V-ADR-7, V-ADR-9, V-ADR-13). -/
theorem witness_UnmaskedFormulaIsNotTheScramble :
    (0x07D0 + (8 >>> 3) * 80).testBit 11 = true ∧ (0x3800 + (0 >>> 3) * 0).testBit 12 = true ∧
    (0x3800 + (0 >>> 3) * 0).testBit 13 = true ∧ 65536 ≤ 0xFFFF + (0xFFFF >>> 3) * 0xFFFF := by decide

theorem witness_ExampleScreenIsScatteredInjectively :
    scramble 0xC000 80 0 + 0 = 0xC000 ∧ scramble 0xC000 80 199 + 79 = 0xFFCF := by decide

/-- One scanline that just lies in the image, and no column at all (V-ADR-23). -/
theorem witness_AdrgatGathersScanlines :
    let s := adr [0x10, 0x20] 0xC000 2 0 1 0xC000
    s.regs.err = 0 ∧ s.regs.slen.toNat ≤ s.params.srcCap ∧ s.regs.height.toNat = 1 ∧
    s.regs.org.toNat ≤ scramble 0xC000 2 0 ∧ scramble 0xC000 2 0 - s.regs.org.toNat + 2 ≤ s.regs.slen.toNat ∧
    1 * 2 ≤ s.params.dstLen ∧ ¬ 0 < (adr [] 0xC000 0 0 1 0xC000).regs.columns.toNat := by decide

/-- The invariant holds of a state with a run-length command part-way (after the first packet of V-RLA-3). -/
theorem invariant_midstream :
    Inv { rla [0xFE, 0xFE, 1, 0xFF, 0xFF, 0, 1] 4 with job := some (.rla 3 1), dst := [(0, 0xFE)] } where
  form := fun sp => by cases sp <;> decide
  inside := fun sp => by
    cases sp <;> (intro c hc; simp [State.mem, rla, load, State.reset, blockCells] at hc)
    · rcases hc with h | h | h | h | h | h | h <;> subst h <;> decide
    · subst hc; decide
  capacity := by decide
  err := by decide
  job := by
    show _ ∧ _
    decide

theorem witness_StepKeepsInvariant : ∃ s t, Inv s ∧ step s = .next t := by
  obtain ⟨t, h, -⟩ := nextIs_exists (p := fun _ => true)
    (r := step { rla [0xFE, 0xFE, 1, 0xFF, 0xFF, 0, 1] 4 with job := some (.rla 3 1), dst := [(0, 0xFE)] }) (by decide)
  exact ⟨_, t, invariant_midstream, h⟩

theorem witness_InvariantStatesStepSafely : ∃ s : State, Inv s ∧ s.nextAccessValid :=
  ⟨_, invariant_midstream, fun h => by cases h⟩

theorem witness_EveryCommandCompletes : Instr.rlea.decoder = .command ∧ (rla [0xFF, 7, 0] 3).job = none := by decide

theorem witness_InstructionsWriteOnlyTheirMemory :
    (∃ t, exec .rlebm (rlb [1] 0 0) = .next t ∧ t.regs.err = 0) ∧ Instr.rlebm.decoder = .command ∧
    Instr.rlebm.writesDst = false ∧ Instr.rlebm.writesPal = false :=
  ⟨next_of _ (by decide), by decide, by decide, by decide⟩

theorem witness_RegistersWrittenOnlyByTheirCommands :
    (∃ t, exec .pal68 (pal [63, 32, 1] 0 1) = .next t ∧ t.regs.err = 0) ∧ Instr.pal68.decoder = .command ∧
    Instr.pal68 ≠ .reset ∧ Instr.pal68.readsInteger = false ∧ Instr.pal68.writesDst = false :=
  ⟨next_of _ (by decide), by decide, by decide, by decide, by decide⟩

theorem witness_PositionAdvanceOfEachCommand :
    (∃ t, exec .rlebf (rlb [1] 0 1) = .next t ∧ t.regs.err = 0) ∧
    (∃ t, exec .rd32le (bir 2 0) = .next t ∧ t.regs.err ≠ 0) ∧ (rlb [1] 0 1).regs.err = 0 ∧ (bir 2 0).regs.err = 0 :=
  ⟨next_of _ (by decide), next_of _ (by decide), rfl, rfl⟩

theorem witness_OutputCommandsWriteAPrefixOfDst :
    Instr.rlebf.writesDst = true ∧ (rlb [1] 0 2).regs.err = 0 ∧
    ∃ t, exec .rlebf (rlb [1] 0 2) = .next t ∧ t.regs.err = 0 :=
  ⟨by decide, rfl, next_of _ (by decide)⟩

theorem witness_MeasuringAndGatheringAreIdempotent :
    (∃ t, exec .rlebm (rlb [1] 0 0) = .next t ∧ t.regs.err = 0) ∧
    (∃ t, exec .adrgat (adr [1, 2] 0xC000 1 0 1 0xC001) = .next t ∧ t.regs.err ≠ 0) ∧
    (rlb [1] 0 0).job = none ∧ (rlb [1] 0 0).regs.err = 0 :=
  ⟨next_of _ (by decide), next_of _ (by decide), rfl, rfl⟩

end Sys2Proof.Tests
end

/-! PROOFS. The scope statements (00_scope.md R4, R5, R8): a run-length command is a run of packet steps, a packet has
a meaning only inside its own decoder, and neither decoder looks at the other's keys. -/

namespace Sys2Proof.Machine

/-! ## Steps and packets -/

/-- While a run-length command runs, a step is one turn of its decode loop. -/
theorem step_of_job_ne_none {s : State} (hj : s.job ≠ none) : step s = streamStep exec s := by
  obtain ⟨j, hj⟩ := Option.ne_none_iff_exists'.mp hj
  simp [step, hj]

theorem packetAt_of_decode {s : State} {d : Decoder} {p : Nat} {bs rest : List Byte} {i : Instr}
    (hread : s.readSrc p (min 4 (s.windowEnd - p)) = some bs) (hdec : decode d s.regs.keys bs = .ok (i, rest)) :
    packetAt d p s = .packet i := by
  simp [packetAt, hread, hdec]

theorem streamStep_of_packet {run : Instr → State → Result} {s : State} {i : Instr}
    (h : streamFetch s = .packet i) : streamStep run s = run i s := by
  simp [streamStep, h]

/-- The dispatch gives a packet the meaning the decode loop gives it. -/
theorem exec_eq_execPacket {i : Instr} (hi : i.decoder ≠ .command) (s : State) : exec i s = execPacket i s := by
  cases i
  case run8 | run16 | raw | runb | lit => rfl
  all_goals exact absurd rfl hi

theorem rlaPacket_refused {s : State} (h : ∀ p o, s.job ≠ some (.rla p o)) (c : Byte) (n len : Nat) :
    rlaPacket c n len s = .refused .packetOutsideDecoder := by
  unfold rlaPacket
  split
  · exact absurd ‹_› (h _ _)
  all_goals rfl

theorem rlbPacket_refused {s : State} (h : ∀ p n, s.job ≠ some (.rlbMeasure p n) ∧ s.job ≠ some (.rlbFill p n))
    (v : Byte) (n len : Nat) : rlbPacket v n len s = .refused .packetOutsideDecoder := by
  unfold rlbPacket
  split
  · exact absurd ‹_› (h _ _).1
  · exact absurd ‹_› (h _ _).2
  all_goals rfl

/-! ## The decode loop as a run of the machine -/

theorem run_one (s : State) : Host.Core.run Sys2Proof.core 1 s = step s := by
  have hstep : Sys2Proof.core.step s = step s := rfl
  simp only [Host.Core.run, hstep]
  cases step s <;> rfl

theorem run_succ_of_step {s t : State} (h : step s = .next t) (k : Nat) :
    Host.Core.run Sys2Proof.core (k + 1) s = Host.Core.run Sys2Proof.core k t := by
  have hstep : Sys2Proof.core.step s = .next t := h
  simp only [Host.Core.run, hstep]

/-- The loop is as many steps of the machine as it takes turns. -/
theorem streamLoop_eq_run (k : Nat) {s : State} (hj : s.job ≠ none) :
    ∃ m ≤ k + 1, streamLoop k s = Host.Core.run Sys2Proof.core m s := by
  induction k generalizing s with
  | zero => exact ⟨1, Nat.le_refl 1, by rw [run_one, step_of_job_ne_none hj, streamStep_exec]; rfl⟩
  | succ k ih =>
    have hstep : step s = streamStep execPacket s := by rw [step_of_job_ne_none hj, streamStep_exec]
    cases h : streamStep execPacket s with
    | next t =>
      by_cases ht : t.job = none
      · exact ⟨1, by omega, by rw [streamLoop_stop h ht, run_one, hstep, h]⟩
      · obtain ⟨m, hm, hrun⟩ := ih ht
        exact ⟨m + 1, by omega, by rw [streamLoop_turn h ht, run_succ_of_step (hstep.trans h), hrun]⟩
    | fault r => exact ⟨1, by omega, by simp [streamLoop, run_one, hstep, h]⟩
    | refused r => exact ⟨1, by omega, by simp [streamLoop, run_one, hstep, h]⟩

/-! ## The decoder of a running command -/

/-- The decoder a run-length command reads its packets with. -/
def Job.decoder : Job → Decoder
  | .rla _ _ => .rla
  | .rlbMeasure _ _ => .rlb
  | .rlbFill _ _ => .rlb

/-- If a run-length command runs, it is one of decoder `d`. -/
def State.runsOnly (s : State) (d : Decoder) : Prop := ∀ j, s.job = some j → j.decoder = d

theorem runsOnly_of_job_none {s : State} (h : s.job = none) (d : Decoder) : s.runsOnly d := by
  simp [State.runsOnly, h]

theorem runsOnly_of_job_some {s : State} {j : Job} {d : Decoder} (h : s.job = some j) (hd : j.decoder = d) :
    s.runsOnly d := by
  simp [State.runsOnly, h, hd]

theorem raiseStruct_job {s t : State} (h : raiseStruct s = .next t) : t.job = none := by
  obtain ⟨d, n, hs, -⟩ := raiseStruct_next s
  cases hs.symm.trans h
  rfl

/-- A packet of RLA leaves RLA running or nothing. -/
theorem rlaPacket_keeps_decoder {c : Byte} {n len : Nat} {s t : State} {d : Decoder} (hs : s.runsOnly d)
    (h : rlaPacket c n len s = .next t) : t.runsOnly d := by
  unfold rlaPacket emitRla at h
  split at h
  · rename_i p o hj
    cases hs _ hj
    split at h
    · exact runsOnly_of_job_none (raiseStruct_job h) _
    · split at h
      · exact runsOnly_of_job_none (raiseStruct_job h) _
      · split at h
        · cases h
        · cases h; exact runsOnly_of_job_some rfl rfl
  all_goals cases h

/-- A packet of RLB leaves RLB running or nothing. -/
theorem rlbPacket_keeps_decoder {v : Byte} {n len : Nat} {s t : State} {d : Decoder} (hs : s.runsOnly d)
    (h : rlbPacket v n len s = .next t) : t.runsOnly d := by
  unfold rlbPacket outMeasure outFill at h
  split at h
  · rename_i p l hj
    cases hs _ hj
    split at h
    · exact runsOnly_of_job_none (raiseStruct_job h) _
    · split at h
      · cases h; exact runsOnly_of_job_none rfl _
      · cases h; exact runsOnly_of_job_some rfl rfl
  · rename_i p o hj
    cases hs _ hj
    split at h
    · exact runsOnly_of_job_none (raiseStruct_job h) _
    · split at h
      · exact runsOnly_of_job_none (raiseStruct_job h) _
      · split at h
        · cases h
        · cases h; exact runsOnly_of_job_some rfl rfl
  all_goals cases h

theorem execPacket_keeps_decoder {i : Instr} {s t : State} {d : Decoder} (hs : s.runsOnly d)
    (h : execPacket i s = .next t) : t.runsOnly d := by
  cases i
  case run8 | run16 | raw => exact rlaPacket_keeps_decoder hs h
  case runb | lit => exact rlbPacket_keeps_decoder hs h
  all_goals cases h

/-- A turn of the decode loop does not change the decoder. -/
theorem streamStep_keeps_decoder {s t : State} {d : Decoder} (hs : s.runsOnly d)
    (h : streamStep execPacket s = .next t) : t.runsOnly d := by
  unfold streamStep at h
  split at h
  · cases h; exact hs
  · cases h; exact runsOnly_of_job_none (finishJob_job s) d
  · exact runsOnly_of_job_none (raiseStruct_job h) d
  · exact runsOnly_of_job_none (raiseStruct_job h) d
  · cases h
  · exact execPacket_keeps_decoder hs h

/-! ## Other values in the key registers -/

/-- The state with its key registers replaced by what `g` makes of them. -/
def rekey (g : StreamKeys → StreamKeys) (s : State) : State :=
  { s with regs := { s.regs with
    key1 := (g s.regs.keys).key1, key2 := (g s.regs.keys).key2,
    esc := (g s.regs.keys).esc, rlectl := (g s.regs.keys).order } }

@[simp] theorem rekey_keys (g : StreamKeys → StreamKeys) (s : State) : (rekey g s).regs.keys = g s.regs.keys := rfl

theorem raise_rekey (g : StreamKeys → StreamKeys) (k : ErrKind) (s : State) :
    raise k (rekey g s) = mapNext (rekey g) (raise k s) := rfl

theorem raiseStruct_rekey (g : StreamKeys → StreamKeys) (s : State) :
    raiseStruct (rekey g s) = mapNext (rekey g) (raiseStruct s) := by
  simp only [raiseStruct, show (rekey g s).job = s.job from rfl]
  split <;> rfl

theorem finishJob_rekey (g : StreamKeys → StreamKeys) (s : State) :
    finishJob (rekey g s) = rekey g (finishJob s) := by
  simp only [finishJob, show (rekey g s).job = s.job from rfl]
  split <;> rfl

theorem packetAt_rekey {g : StreamKeys → StreamKeys} {d : Decoder} (hg : ∀ k, decode d (g k) = decode d k) (p : Nat)
    (s : State) : packetAt d p (rekey g s) = packetAt d p s := by
  simp only [packetAt, rekey_keys, hg]
  rfl

section SameDecode

variable {g : StreamKeys → StreamKeys} {d : Decoder} (hg : ∀ k, decode d (g k) = decode d k)
include hg

/-- The fetch of decoder `d` finds the same under keys that `d` decodes alike. -/
theorem streamFetch_rekey {s : State} (hs : s.runsOnly d) : streamFetch (rekey g s) = streamFetch s := by
  simp only [streamFetch, show (rekey g s).job = s.job from rfl]
  split
  · rfl
  all_goals
    rename_i hj
    cases hs _ hj
    simp only [Job.decoder] at hg
    rw [packetAt_rekey hg]
    rfl

theorem streamStep_rekey {s : State} (hs : s.runsOnly d) :
    streamStep execPacket (rekey g s) = mapNext (rekey g) (streamStep execPacket s) :=
  streamStep_commutes (rekey g) s (streamFetch_rekey hg hs) (raiseStruct_rekey g s) (fun k => raise_rekey g k s)
    (finishJob_rekey g s) rfl rfl rfl rfl rfl (fun _ _ => rfl)

theorem runJob_rekey {j : Job} (hj : j.decoder = d) (s : State) :
    runJob j (rekey g s) = mapNext (rekey g) (runJob j s) := by
  subst hj
  exact streamLoop_commutes (rekey g) (State.runsOnly · j.decoder) (fun _ => rfl)
    (fun _ hs => streamStep_rekey hg hs) (fun _ _ hs h _ => streamStep_keeps_decoder hs h) s.regs.plen.toNat
    (s := { s with job := some j }) (runsOnly_of_job_some rfl rfl)

end SameDecode

/-- The checks that RLEA, RLEBM and RLEBF share do not look at the keys. -/
theorem prologue_rekey {g : StreamKeys → StreamKeys} {s : State} {body body' : Result}
    (h : body' = mapNext (rekey g) body) :
    (whenClear (rekey g s) <| checkSlen (rekey g s) <| checkStream (rekey g s) s.regs.plen.toNat body') =
      mapNext (rekey g) (whenClear s <| checkSlen s <| checkStream s s.regs.plen.toNat body) :=
  mapNext_ite (mapNext_ite rfl (mapNext_ite rfl h)) rfl

theorem checkDst_rekey {g : StreamKeys → StreamKeys} {s : State} {n : Nat} {body body' : Result}
    (h : body' = mapNext (rekey g) body) :
    checkDst (rekey g s) n body' = mapNext (rekey g) (checkDst s n body) :=
  mapNext_ite rfl h

theorem execRlea_rekey {g : StreamKeys → StreamKeys} (hg : ∀ k, decode .rla (g k) = decode .rla k) (s : State) :
    execRlea (rekey g s) = mapNext (rekey g) (execRlea s) :=
  prologue_rekey (checkDst_rekey (runJob_rekey hg rfl s))

theorem execRlebm_rekey {g : StreamKeys → StreamKeys} (hg : ∀ k, decode .rlb (g k) = decode .rlb k) (s : State) :
    execRlebm (rekey g s) = mapNext (rekey g) (execRlebm s) :=
  prologue_rekey (runJob_rekey hg rfl s)

theorem execRlebf_rekey {g : StreamKeys → StreamKeys} (hg : ∀ k, decode .rlb (g k) = decode .rlb k) (s : State) :
    execRlebf (rekey g s) = mapNext (rekey g) (execRlebf s) :=
  prologue_rekey (checkDst_rekey (runJob_rekey hg rfl s))

/-! ## The statements -/

/-- Settles O37: past its prologue a command is its decode loop, and the loop is a run of the machine. -/
theorem rleCommandsAreTheirPacketSteps : Obligations.RleCommandsAreTheirPacketSteps := by
  unfold Obligations.RleCommandsAreTheirPacketSteps
  intro s he hs hw
  refine ⟨fun hd => ?_, ?_, fun hd => ?_⟩
  · rw [show exec .rlea s = execRlea s from rfl, rlea_runs he hs hw hd]
    exact streamLoop_eq_run _ (by simp)
  · rw [show exec .rlebm s = execRlebm s from rfl, rlebm_runs he hs hw]
    exact streamLoop_eq_run _ (by simp)
  · rw [show exec .rlebf s = execRlebf s from rfl, rlebf_runs he hs hw hd]
    exact streamLoop_eq_run _ (by simp)

/-- Settles O35: replacing the keys of the other decoder commutes with the command. -/
theorem rleDecodersShareNoKeys : Obligations.RleDecodersShareNoKeys := by
  unfold Obligations.RleDecodersShareNoKeys
  intro s a b o
  refine ⟨fun t ht => ?_, ?_⟩
  · exact (execRlea_rekey (g := fun k => { k with esc := a, order := o }) (fun _ => rfl) s).trans
      (congrArg (mapNext _) ht)
  · rintro i t (rfl | rfl) ht
    · exact (execRlebm_rekey (g := fun k => { k with key1 := a, key2 := b }) (fun _ => rfl) s).trans
        (congrArg (mapNext _) ht)
    · exact (execRlebf_rekey (g := fun k => { k with key1 := a, key2 := b }) (fun _ => rfl) s).trans
        (congrArg (mapNext _) ht)

/-- Settles O6: with the loop's condition true, the fetch is the decoding of the window's bytes at the pointer. -/
theorem stepRunsFetchedPacket : Obligations.StepRunsFetchedPacket := by
  unfold Obligations.StepRunsFetchedPacket
  intro s d p n bs rest i hjob hp hread hdec
  have hpacket := packetAt_of_decode hread hdec
  have hfetch : streamFetch s = .packet i := by
    rcases hjob with ⟨hj, ho, rfl⟩ | ⟨hj, rfl⟩ | ⟨hj, rfl⟩
    · simp [streamFetch, hj, Nat.not_le.mpr ho, Nat.not_le.mpr hp, hpacket]
    · simp [streamFetch, hj, Nat.not_le.mpr hp, hpacket]
    · simp [streamFetch, hj, Nat.not_le.mpr hp, hpacket]
  have hrunning : s.job ≠ none := by
    rcases hjob with ⟨hj, -⟩ | ⟨hj, -⟩ | ⟨hj, -⟩ <;> simp [hj]
  rw [step_of_job_ne_none hrunning, streamStep_of_packet hfetch]

/-- Settles O30: every packet's meaning is its decoder's emission of a run, which looks at the job first. -/
theorem packetsOutsideTheirDecoderAreRefused : Obligations.PacketsOutsideTheirDecoderAreRefused := by
  unfold Obligations.PacketsOutsideTheirDecoderAreRefused
  intro i s
  refine ⟨fun hi hjob => ?_, fun hi hjob => ?_⟩
  · obtain ⟨c, n, -, hex⟩ := rla_packet_form s hi
    rw [exec_eq_execPacket (by simp [hi]), hex, rlaPacket_refused hjob]
  · obtain ⟨v, n, -, hex⟩ := rlb_packet_form s hi
    rw [exec_eq_execPacket (by simp [hi]), hex, rlbPacket_refused hjob]

end Sys2Proof.Machine

/-! PROOFS. The state (10_state.md): what reset holds, what each command may write, and the invariant every step keeps.
`command_leaves` extends `command_answers` to every value of `ERR`; the statements are case splits on it. -/

namespace Sys2Proof.Machine

/-! ## What a command leaves, whatever `ERR` holds -/

/-- The state a command leaves when it answers one: it was skipped, it completed, it faulted before its first write, or
it faulted with `DST` written below `OLEN`. -/
inductive Leaves (i : Instr) (s : State) : State → Prop where
  | skipped (he : s.regs.err ≠ 0) : Leaves i s s
  | done {t : State} (hd : Done s i t) : Leaves i s t
  | raised {k : ErrKind} (hk : CanRaise i k) : Leaves i s { s with regs := { s.regs with err := k.code }, job := none }
  | smeared {d : Memory} {n : Nat} (hi : i = .rlea ∨ i = .rlebf) (hd : WrittenBelow s d s.regs.olen.toNat) :
      Leaves i s { s with regs := { s.regs with err := 2 }, dst := d, draws := n, job := none }

theorem exec_skipped {i : Instr} {s : State} (hi : i.decoder = .command) (hr : i.runsAlways = false)
    (he : s.regs.err ≠ 0) : exec i s = .next s := by
  cases i
  case nop | reset | clrerr => cases hr
  case run8 | run16 | raw | runb | lit => cases hi
  all_goals exact whenClear_set he _

theorem done_of_runsAlways {i : Instr} {s t : State} (hr : i.runsAlways = true) (h : exec i s = .next t) :
    Done s i t := by
  cases i
  case nop => cases h; exact .nop
  case reset => cases h; exact .reset
  case clrerr => cases h; exact .clrerr
  all_goals cases hr

theorem command_leaves {i : Instr} {s t : State} (hi : i.decoder = .command) (h : exec i s = .next t) :
    Leaves i s t := by
  by_cases he : s.regs.err = 0
  · cases command_answers hi he with
    | done u hu hd => cases hu.symm.trans h; exact .done hd
    | fault k hu hk => cases hu.symm.trans h; exact .raised hk
    | smear d n hu hs hd => cases hu.symm.trans h; exact .smeared hs hd
  · cases hr : i.runsAlways with
    | false => cases (exec_skipped hi hr he).symm.trans h; exact .skipped he
    | true => exact .done (done_of_runsAlways hr h)

/-! ## Which command an outcome belongs to -/

theorem readsInteger_of_intWidth {i : Instr} {n : Nat} (h : intWidth i = some n) : i.readsInteger = true := by
  cases i
  case rd8 | rd16le | rd16be | rd32le | rd32be => rfl
  all_goals cases h

theorem writesDst_iff (i : Instr) :
    i.writesDst = true ↔ i = .rdbuf ∨ i = .rlea ∨ i = .rlebf ∨ i = .bplx ∨ i = .adrgat := by
  simp [Instr.writesDst, or_assoc]

theorem intWidth_of_writesDst {i : Instr} (h : i.writesDst = true) : intWidth i = none := by
  rcases (writesDst_iff i).mp h with rfl | rfl | rfl | rfl | rfl <;> rfl

theorem decoder_of_writesDst {i : Instr} (h : i.writesDst = true) : i.decoder = .command := by
  rcases (writesDst_iff i).mp h with rfl | rfl | rfl | rfl | rfl <;> rfl

theorem PosAfter.writesDst {i : Instr} {s : State} {q : Nat} (h : PosAfter i s q) : i.writesDst = true := by
  rcases h with ⟨rfl, -⟩ | ⟨rfl, -⟩ | ⟨rfl, -⟩ | ⟨rfl | rfl, -⟩ <;> rfl

/-- BPLX and ADRGAT read the stream at addresses of their own and leave `POS`. -/
theorem PosAfter.eq_pos {i : Instr} {s : State} {q : Nat} (h : PosAfter i s q) (h1 : i ≠ .rdbuf) (h2 : i ≠ .rlea)
    (h3 : i ≠ .rlebf) : BitVec.ofNat 32 q = s.regs.pos := by
  rcases h with ⟨hi, -⟩ | ⟨hi, -⟩ | ⟨hi, -⟩ | ⟨-, rfl⟩
  · exact absurd hi h1
  · exact absurd hi h3
  · exact absurd hi h2
  · simp

/-! ## Memories -/

/-- What a packet may write: the registers, `DST`, the job and the model's counter of draws. -/
def PacketWrites (s t : State) : Prop :=
  ∃ r d j n, t = { s with regs := r, dst := d, job := j, draws := n }

theorem raiseStruct_writes {s t : State} (h : raiseStruct s = .next t) : PacketWrites s t := by
  obtain ⟨d, n, hs, -⟩ := raiseStruct_next s
  cases hs.symm.trans h
  exact ⟨_, _, _, _, rfl⟩

theorem writeDst_writes {s u : State} {o : Nat} {bs : List Byte} (h : s.writeDst o bs = some u) (j : Option Job) :
    PacketWrites s { u with job := j } := by
  obtain ⟨-, rfl⟩ := writeDst_some h
  exact ⟨_, _, _, _, rfl⟩

theorem rlaPacket_writes {c : Byte} {n len : Nat} {s t : State} (h : rlaPacket c n len s = .next t) :
    PacketWrites s t := by
  unfold rlaPacket emitRla at h
  split at h
  · split at h
    · exact raiseStruct_writes h
    · split at h
      · exact raiseStruct_writes h
      · split at h
        · cases h
        · cases h; exact writeDst_writes ‹_› _
  all_goals cases h

theorem rlbPacket_writes {v : Byte} {n len : Nat} {s t : State} (h : rlbPacket v n len s = .next t) :
    PacketWrites s t := by
  unfold rlbPacket outMeasure outFill at h
  split at h
  · split at h
    · exact raiseStruct_writes h
    · split at h <;> (cases h; exact ⟨_, _, _, _, rfl⟩)
  · split at h
    · exact raiseStruct_writes h
    · split at h
      · exact raiseStruct_writes h
      · split at h
        · cases h
        · cases h; exact writeDst_writes ‹_› _
  all_goals cases h

theorem execPacket_writes {i : Instr} {s t : State} (h : execPacket i s = .next t) : PacketWrites s t := by
  cases i
  case run8 | run16 | raw => exact rlaPacket_writes h
  case runb | lit => exact rlbPacket_writes h
  all_goals cases h

/-- No command writes `SRC`, the parameters or what belongs to the host. -/
theorem Leaves.src_params_host_eq {i : Instr} {s t : State} (h : Leaves i s t) :
    t.src = s.src ∧ t.params = s.params ∧ t.inbox = s.inbox ∧ t.reply = s.reply := by
  cases h with
  | done hd => cases hd <;> exact ⟨rfl, rfl, rfl, rfl⟩
  | skipped | raised | smeared => exact ⟨rfl, rfl, rfl, rfl⟩

theorem Leaves.pal_eq {i : Instr} {s t : State} (h : Leaves i s t) (hi : i.writesPal = false) : t.pal = s.pal := by
  cases h with
  | done hd =>
    cases hd with
    | scale hp => rcases hp with rfl | rfl <;> cases hi
    | nop | reset | clrerr | integer | output | measure | address => rfl
  | skipped | raised | smeared => rfl

theorem Leaves.dst_eq {i : Instr} {s t : State} (h : Leaves i s t) (hi : i.writesDst = false) : t.dst = s.dst := by
  cases h with
  | done hd =>
    cases hd with
    | output _ _ _ hq => simp [hq.writesDst] at hi
    | nop | reset | clrerr | integer | scale | measure | address => rfl
  | smeared hs => rcases hs with rfl | rfl <;> cases hi
  | skipped | raised => rfl

/-! ## Registers -/

/-- `r` with the registers that commands write taken from `q`. -/
def Regs.withResults (r q : Regs) : Regs :=
  { r with err := q.err, pos := q.pos, val := q.val, mlen := q.mlen, ocnt := q.ocnt, addr := q.addr }

/-- But for `POS` no register the host can write is among them. -/
theorem readReg_withResults (r q : Regs) {n : BitVec 8} (hn : n ≠ 0x02) (ha : regAccess n = .readWrite) :
    readReg (r.withResults q) n = readReg r n := by
  have number : n = BitVec.ofNat 8 n.toNat := by simp
  unfold readReg
  split
  case h_1 h | h_4 h | h_7 h | h_8 h | h_29 h =>
    rw [number, h] at ha
    exact absurd ha (by decide)
  case h_2 h =>
    rw [h] at number
    exact absurd number hn
  all_goals rfl

theorem Leaves.regs_eq {i : Instr} {s t : State} (h : Leaves i s t) (hi : i ≠ .reset) :
    t.regs = s.regs.withResults t.regs := by
  cases h with
  | done hd =>
    cases hd with
    | reset => exact absurd rfl hi
    | nop | clrerr | integer | scale | output | measure | address => rfl
  | skipped | raised | smeared => rfl

/-- Each result register is written by its own commands only. -/
theorem Leaves.results_eq {i : Instr} {s t : State} (h : Leaves i s t) (hr : i ≠ .reset) :
    (i.readsInteger = false → t.regs.val = s.regs.val) ∧
    (i ≠ .rlebm → t.regs.mlen = s.regs.mlen) ∧
    (i.writesDst = false → t.regs.ocnt = s.regs.ocnt) ∧
    (i ≠ .adrmap → t.regs.addr = s.regs.addr) ∧
    (i.readsInteger = false → i ≠ .rdbuf → i ≠ .rlea → i ≠ .rlebf → t.regs.pos = s.regs.pos) := by
  cases h with
  | done hd =>
    cases hd with
    | reset => exact absurd rfl hr
    | integer hn => simp [readsInteger_of_intWidth hn]
    | output _ _ _ hq => simpa [hq.writesDst] using fun _ => hq.eq_pos
    | nop | clrerr | scale | measure | address => simp [returnFromFault]
  | skipped | raised | smeared => simp

/-! ## Faults and completion -/

theorem ErrKind.code_ne_zero (k : ErrKind) : k.code ≠ 0 := by cases k <;> decide

theorem Done.err_eq_zero {i : Instr} {s t : State} (h : Done s i t) (he : s.regs.err = 0) : t.regs.err = 0 := by
  cases h with
  | reset | clrerr => rfl
  | nop | integer | scale | output | measure | address => exact he

/-- Without fault a command that was not skipped completed. -/
theorem Leaves.done_of_err {i : Instr} {s t : State} (h : Leaves i s t) (he : s.regs.err = 0) (ht : t.regs.err = 0) :
    Done s i t := by
  cases h with
  | skipped hs => exact absurd he hs
  | done hd => exact hd
  | raised => exact absurd ht (ErrKind.code_ne_zero _)
  | smeared => exact absurd ht (show (2 : BitVec 3) ≠ 0 by decide)

theorem Leaves.pos_eq_of_fault {i : Instr} {s t : State} (h : Leaves i s t) (he : s.regs.err = 0)
    (ht : t.regs.err ≠ 0) : t.regs.pos = s.regs.pos := by
  cases h with
  | done hd => exact absurd (hd.err_eq_zero he) ht
  | skipped | raised | smeared => rfl

theorem Done.pos_of_integer {i : Instr} {s t : State} {n : Nat} (h : Done s i t) (hi : intWidth i = some n) :
    t.regs.pos.toNat = s.regs.pos.toNat + n := by
  cases h with
  | integer hn hp =>
    cases hn.symm.trans hi
    have := s.regs.slen.isLt
    simp only [BitVec.toNat_ofNat]
    omega
  | scale hp => rcases hp with rfl | rfl <;> cases hi
  | output _ _ _ hq => simp [intWidth_of_writesDst hq.writesDst] at hi
  | nop | reset | clrerr | measure | address => cases hi

/-- What an output command that completes leaves: `OCNT` and `POS` are the ends of what it wrote and read. -/
theorem Done.of_writesDst {i : Instr} {s t : State} (h : Done s i t) (hi : i.writesDst = true) :
    t.regs.ocnt.toNat ≤ s.params.dstLen ∧ WrittenBelow s t.dst t.regs.ocnt.toNat ∧ PosAfter i s t.regs.pos.toNat := by
  cases h with
  | output _ ho ho' hq hq' hd =>
    simp only [BitVec.toNat_ofNat, Nat.mod_eq_of_lt ho', Nat.mod_eq_of_lt hq']
    exact ⟨ho, hd, hq⟩
  | integer hn => simp [intWidth_of_writesDst hi] at hn
  | scale hp => rcases hp with rfl | rfl <;> cases hi
  | nop | reset | clrerr | measure | address => cases hi

/-! ## The invariant -/

/-- A memory write that keeps the form and the bounds keeps the invariant, between commands. -/
theorem Inv.setMem {s : State} (h : Inv s) (hj : s.job = none) {sp : Space} {m : Memory} (hf : m.wf)
    (hi : m.inside (s.spaceSize sp)) : Inv (s.setMem sp m) where
  form sp' := by
    by_cases hsp : sp' = sp
    · subst hsp; simpa using hf
    · simpa [setMem_mem_other s sp sp' m hsp] using h.form sp'
  inside sp' := by
    by_cases hsp : sp' = sp
    · subst hsp; simpa using hi
    · simpa [setMem_mem_other s sp sp' m hsp] using h.inside sp'
  capacity := by simpa using h.capacity
  err := by simpa using h.err
  job := by simp [State.jobInside, hj]

/-- A change of the registers, `DST`, the job and the draws keeps the invariant where it keeps what the invariant says
of them. -/
theorem Inv.update {s : State} (h : Inv s) {r : Regs} {d : Memory} {j : Option Job} {n : Nat} (hf : d.wf)
    (hi : d.inside s.params.dstLen) (he : legalErr r.err = true)
    (hj : State.jobInside { s with regs := r, dst := d, job := j, draws := n }) :
    Inv { s with regs := r, dst := d, job := j, draws := n } where
  form
    | .src => h.form .src
    | .dst => hf
    | .pal => h.form .pal
  inside
    | .src => h.inside .src
    | .dst => hi
    | .pal => h.inside .pal
  capacity := h.capacity
  err := he
  job := hj

/-- The same with `DST` kept and no run-length command left. -/
theorem Inv.setRegs {s : State} (h : Inv s) {r : Regs} {j : Option Job} (hj : j = none) (he : legalErr r.err = true) :
    Inv { s with regs := r, job := j } :=
  h.update (n := s.draws) (h.form .dst) (h.inside .dst) he (by simp [State.jobInside, hj])

/-- The host's list and the last reply are not in the invariant. -/
theorem Inv.setPort {s : State} (h : Inv s) (l : List HostAccess) (w : Option Word) :
    Inv { s with inbox := l, reply := w } :=
  ⟨h.form, h.inside, h.capacity, h.err, h.job⟩

theorem legalErr_code {k : ErrKind} (h : k ≠ .semantic) : legalErr k.code = true := by
  cases k
  case semantic => exact absurd rfl h
  all_goals rfl

theorem CanRaise.ne_semantic {i : Instr} {k : ErrKind} (h : CanRaise i k) : k ≠ .semantic := by
  rcases h with ⟨rfl, -⟩ | ⟨rfl, -⟩ | ⟨rfl, -⟩ | ⟨rfl, -⟩ <;> simp

/-! ### Between run-length commands -/

theorem Inv.of_leaves {i : Instr} {s t : State} (h : Inv s) (hj : s.job = none) (hl : Leaves i s t) : Inv t := by
  cases hl with
  | skipped => exact h
  | raised hk => exact h.setRegs rfl (legalErr_code hk.ne_semantic)
  | smeared _ hd => exact h.update (hd.form (h.form .dst)) (hd.inside (h.inside .dst)) rfl trivial
  | done hd =>
    cases hd with
    | nop => exact h
    | reset | clrerr => exact h.setRegs hj rfl
    | integer | address => exact h.setRegs hj h.err
    | measure => exact h.setRegs rfl h.err
    | scale _ hf hi => exact h.setMem hj (sp := .pal) (hf (h.form .pal)) (hi (h.inside .pal))
    | output hjob _ _ _ _ hd =>
      refine h.update (n := s.draws) (hd.form (h.form .dst)) (hd.inside (h.inside .dst)) h.err ?_
      rcases hjob with rfl | rfl <;> simp [State.jobInside, hj]

theorem decoder_of_decodeCommand {c : Byte} {i : Instr} (h : decodeCommand c = .ok i) : i.decoder = .command := by
  unfold decodeCommand at h
  split at h
  · rename_i row hrow
    cases h
    have table : ∀ row ∈ commandTable, row.2.decoder = .command := by decide
    exact table row (List.mem_of_find?_eq_some hrow)
  · cases h

theorem Inv.of_issue {c : Byte} {s t : State} (h : Inv s) (hj : s.job = none) (ht : issue exec c s = .next t) :
    Inv t := by
  unfold issue at ht
  split at ht
  · rename_i i hi
    exact h.of_leaves hj (command_leaves (decoder_of_decodeCommand hi) ht)
  · unfold whenClear at ht
    split at ht
    · cases ht; exact h.setRegs rfl rfl
    · cases ht; exact h

theorem Inv.of_hostAccess {a : HostAccess} {s t : State} (h : Inv s) (hj : s.job = none)
    (ht : hostAccess exec a s = .next t) : Inv t := by
  cases a with
  | writeReg n v =>
    simp only [hostAccess] at ht
    split at ht
    · exact h.of_issue hj ht
    · cases ht
      exact h.setRegs hj (by rw [writeReg_err]; exact h.err)
  | readReg n => cases ht; exact h.setPort _ _
  | writeCell sp i b =>
    simp only [hostAccess] at ht
    split at ht
    · cases ht
      exact h.setMem hj (Memory.writeBlock_wf (h.form sp) _ _)
        (Memory.writeBlock_inside (h.inside sp) (Or.inr ‹i < s.spaceSize sp›))
    · cases ht
  | readCell sp i =>
    simp only [hostAccess] at ht
    split at ht
    · cases ht; exact h.setPort _ _
    · cases ht

/-! ### While a run-length command runs -/

/-- Completion writes registers and ends the command. -/
theorem finishJob_eq (s : State) : finishJob s = { s with regs := (finishJob s).regs, job := none } := by
  rcases hj : s.job with _ | j
  · cases s; subst hj; rfl
  · cases j <;> simp [finishJob, hj]

theorem Inv.of_raiseStruct {s t : State} (h : Inv s) (ht : raiseStruct s = .next t) : Inv t := by
  obtain ⟨d, n, hs, hd⟩ := raiseStruct_next s
  cases hs.symm.trans ht
  rcases hd with rfl | ⟨-, bs, hb, rfl⟩
  · exact h.update (h.form .dst) (h.inside .dst) rfl trivial
  · exact h.update (Memory.writeBlock_wf (h.form .dst) _ _)
      (Memory.writeBlock_inside (h.inside .dst) (Or.inr (show 0 + bs.length ≤ s.params.dstLen by omega))) rfl trivial

/-- A run inside the output window of a running command keeps the form and the bounds of `DST`. -/
theorem Progress.dst_kept {s : State} {j j' : Job} {d : Memory} (hp : Progress s j d j') (hj : s.job = some j)
    (h : Inv s) : d.wf ∧ d.inside s.params.dstLen := by
  have run : ∀ {o n : Nat} {c : Byte}, o + n ≤ s.params.dstLen →
      (s.dst.writeBlock o (List.replicate n c)).wf ∧
      (s.dst.writeBlock o (List.replicate n c)).inside s.params.dstLen := fun hn =>
    ⟨Memory.writeBlock_wf (h.form .dst) _ _,
      Memory.writeBlock_inside (size := s.params.dstLen) (h.inside .dst) (Or.inr (by simpa using hn))⟩
  have hin := h.job
  cases hp with
  | measure => exact ⟨h.form .dst, h.inside .dst⟩
  | rla _ _ _ hn | fill _ _ hn =>
    simp only [State.jobInside, hj] at hin
    obtain ⟨-, -, -, -, -, hd, -⟩ := hin
    exact run (Nat.le_trans hn hd)

theorem Inv.of_streamStep {s t : State} {j : Job} (h : Inv s) (hj : s.job = some j)
    (ht : streamStep execPacket s = .next t) : Inv t := by
  rcases streamStep_turn hj h.job with ⟨-, hs⟩ | hs | ⟨-, hs⟩ | ⟨d, j', hs, hp⟩
  · cases hs.symm.trans ht
    rw [finishJob_eq]
    exact h.setRegs rfl (by rw [finishJob_err]; exact h.err)
  · exact h.of_raiseStruct (hs.symm.trans ht)
  · cases hs.symm.trans ht; exact h.setRegs rfl rfl
  · cases hs.symm.trans ht
    obtain ⟨hf, hi⟩ := hp.dst_kept hj h
    exact h.update (n := s.draws) hf hi h.err (hp.inside hj h.job)

/-! ## The statements -/

/-- Settles O51: a step is one turn of the decode loop or one access of the host, and each keeps the invariant. -/
theorem stepKeepsInvariant : Obligations.StepKeepsInvariant := by
  unfold Obligations.StepKeepsInvariant
  intro s t h ht
  unfold step at ht
  split at ht
  · rename_i j hj
    rw [streamStep_exec] at ht
    exact h.of_streamStep hj ht
  · rename_i hj
    split at ht
    · cases ht; exact h
    · rename_i a rest _
      exact Inv.of_hostAccess (s := { s with inbox := rest }) (h.setPort rest s.reply) hj ht

/-- Settles O55: packets write `DST` and no other memory, and a command's outcomes are listed by `command_leaves`. -/
theorem instructionsWriteOnlyTheirMemory : Obligations.InstructionsWriteOnlyTheirMemory := by
  unfold Obligations.InstructionsWriteOnlyTheirMemory
  intro i s t ht
  by_cases hi : i.decoder = .command
  · have hl := command_leaves hi ht
    obtain ⟨hsrc, hparams, hinbox, hreply⟩ := hl.src_params_host_eq
    exact ⟨hsrc, hparams, hinbox, hreply, hl.pal_eq, fun _ => hl.dst_eq⟩
  · rw [exec_eq_execPacket hi] at ht
    obtain ⟨r, d, j, n, rfl⟩ := execPacket_writes ht
    exact ⟨rfl, rfl, rfl, rfl, fun _ => rfl, fun h => absurd h hi⟩

/-- Settles O56: a command's results change their own registers, and no control register is one of them. -/
theorem registersWrittenOnlyByTheirCommands : Obligations.RegistersWrittenOnlyByTheirCommands := by
  unfold Obligations.RegistersWrittenOnlyByTheirCommands
  intro i s t hi hr ht
  have hl := command_leaves hi ht
  obtain ⟨hval, hmlen, hocnt, haddr, hpos⟩ := hl.results_eq hr
  refine ⟨hval, hmlen, hocnt, haddr, hpos, fun n hn ha => ?_⟩
  rw [hl.regs_eq hr]
  exact readReg_withResults _ _ hn ha

/-- Settles O57: without fault the command completed, and a read moves `POS` by what it took. -/
theorem positionAdvanceOfEachCommand : Obligations.PositionAdvanceOfEachCommand := by
  unfold Obligations.PositionAdvanceOfEachCommand
  intro i s t hi he ht
  have hl := command_leaves hi ht
  refine ⟨hl.pos_eq_of_fault he, fun herr => ?_⟩
  have hd := hl.done_of_err he herr
  refine ⟨?_, ?_, ?_, ?_, ?_, ?_, fun h1 h2 h3 h4 hr => ?_⟩
  · rintro rfl; exact hd.pos_of_integer rfl
  · rintro (rfl | rfl) <;> exact hd.pos_of_integer rfl
  · rintro (rfl | rfl) <;> exact hd.pos_of_integer rfl
  · rintro rfl
    obtain ⟨-, -, hpos⟩ := hd.of_writesDst rfl
    simpa [PosAfter] using hpos
  · rintro rfl
    obtain ⟨-, -, hpos⟩ := hd.of_writesDst rfl
    simpa [PosAfter, State.windowEnd] using hpos
  · rintro rfl
    cases ht
    rfl
  · obtain ⟨-, -, -, -, hpos⟩ := hl.results_eq hr
    exact hpos h1 h2 h3 h4

/-- Settles O58: without fault an output command completed, and it wrote `DST` below `OCNT` only. -/
theorem outputCommandsWriteAPrefixOfDst : Obligations.OutputCommandsWriteAPrefixOfDst := by
  unfold Obligations.OutputCommandsWriteAPrefixOfDst
  intro i s t hi he ht herr
  have hd := (command_leaves (decoder_of_writesDst hi) ht).done_of_err he herr
  obtain ⟨hocnt, hwritten, -⟩ := hd.of_writesDst hi
  exact ⟨hocnt, fun a ha => hwritten.above a ha⟩

/-- Settles O10: every register field is 0 at reset, and no memory lists a cell. -/
theorem powerOnRegistersReadZero : Obligations.PowerOnRegistersReadZero := by
  unfold Obligations.PowerOnRegistersReadZero
  refine ⟨fun n => ?_, fun sp a => ?_⟩
  · unfold readReg
    split <;> rfl
  · cases sp <;> rfl

/-- Settles O52: at reset the memories are empty and no command runs. -/
theorem resetMeetsInvariant : Obligations.ResetMeetsInvariant where
  form sp := by cases sp <;> exact List.Pairwise.nil
  inside sp := by cases sp <;> exact List.forall_mem_nil _
  capacity := by decide
  err := rfl
  job := trivial

end Sys2Proof.Machine

/-! PROOFS. Memory (20_memory.md): what one access of the host does, that no step leaves its spaces, that word reads
combine byte reads, and which commands can be run again. -/

namespace Sys2Proof.Machine

/-! ## Steps between commands -/

theorem step_of_inbox_nil {s : State} (hj : s.job = none) (hi : s.inbox = []) : step s = .next s := by
  simp [step, hj, hi]

theorem step_of_inbox_cons {s : State} {a : HostAccess} {rest : List HostAccess} (hj : s.job = none)
    (hi : s.inbox = a :: rest) : step s = hostAccess exec a { s with inbox := rest } := by
  simp [step, hj, hi]

/-- What belongs to the host is in no cell. -/
theorem State.cell_setPort (s : State) (l : List HostAccess) (w : Option Word) (sp : Space) (a : Nat) :
    State.cell { s with inbox := l, reply := w } sp a = s.cell sp a := by
  cases sp <;> rfl

/-- The cells after one cell of a space has been written. -/
theorem cell_setMem_writeBlock (s : State) (sp sp' : Space) (a a' : Nat) (b : Byte) :
    (s.setMem sp ((s.mem sp).writeBlock a [b])).cell sp' a' = if sp' = sp ∧ a' = a then b else s.cell sp' a' := by
  by_cases hsp : sp' = sp
  · subst hsp
    rw [State.cell_of_writeBlock (setMem_mem_self s sp' _)]
    by_cases ha : a' = a
    · subst ha; simp
    · rw [if_neg (by simp only [List.length_singleton]; omega), if_neg (by simp [ha])]
  · simp only [hsp, false_and, if_false]
    simp only [State.cell, setMem_mem_other s sp sp' _ hsp]

/-! ## Safe steps -/

/-- A command never stops the model, whatever the state. -/
theorem command_next {i : Instr} (hi : i.decoder = .command) (s : State) : ∃ t, exec i s = .next t := by
  by_cases he : s.regs.err = 0
  · cases command_answers hi he with
    | done t h => exact ⟨t, h⟩
    | fault k h => exact ⟨_, h⟩
    | smear d n h => exact ⟨_, h⟩
  · cases hr : i.runsAlways with
    | false => exact ⟨s, exec_skipped hi hr he⟩
    | true =>
      cases i
      case nop | reset | clrerr => exact ⟨_, rfl⟩
      all_goals cases hr

theorem issue_next (c : Byte) (s : State) : ∃ t, issue exec c s = .next t := by
  unfold issue
  split
  · exact command_next (decoder_of_decodeCommand ‹_›) s
  · unfold whenClear
    split <;> exact ⟨_, rfl⟩

/-- An access of a cell that exists, or of any register, does not stop the model. -/
theorem hostAccess_next {a : HostAccess} {s : State} (h : a.valid s = true) : ∃ t, hostAccess exec a s = .next t := by
  cases a with
  | writeReg n v =>
    simp only [hostAccess]
    split
    · exact issue_next _ s
    · exact ⟨_, rfl⟩
  | readReg n => exact ⟨_, rfl⟩
  | writeCell sp i b => exact ⟨_, if_pos (of_decide_eq_true h)⟩
  | readCell sp i => exact ⟨_, if_pos (of_decide_eq_true h)⟩

/-- A turn of the decode loop from inside the bounds does not stop the model. -/
theorem streamStep_next {s : State} {j : Job} (hj : s.job = some j) (hin : s.jobInside) :
    ∃ t, streamStep execPacket s = .next t := by
  rcases streamStep_turn hj hin with ⟨-, h⟩ | h | ⟨-, h⟩ | ⟨d, j', h, -⟩
  · exact ⟨_, h⟩
  · obtain ⟨d, n, hs, -⟩ := raiseStruct_next s
    exact ⟨_, h.trans hs⟩
  · exact ⟨_, h⟩
  · exact ⟨_, h⟩

/-! ## Checks that were passed -/

theorem raise_err_ne_zero {k : ErrKind} {s t : State} (h : raise k s = .next t) : t.regs.err ≠ 0 := by
  cases h
  exact ErrKind.code_ne_zero k

theorem checkSlen_passed {s t : State} {body : Result} (h : checkSlen s body = .next t) (ht : t.regs.err = 0) :
    s.regs.slen.toNat ≤ s.params.srcCap ∧ body = .next t := by
  unfold checkSlen at h
  split at h
  · exact absurd ht (raise_err_ne_zero h)
  · exact ⟨by omega, h⟩

theorem checkStream_passed {s t : State} {n : Nat} {body : Result} (h : checkStream s n body = .next t)
    (ht : t.regs.err = 0) : s.regs.pos.toNat + n ≤ s.regs.slen.toNat ∧ body = .next t := by
  unfold checkStream at h
  split at h
  · exact absurd ht (raise_err_ne_zero h)
  · exact ⟨by omega, h⟩

theorem checkDst_passed {s t : State} {n : Nat} {body : Result} (h : checkDst s n body = .next t)
    (ht : t.regs.err = 0) : n ≤ s.params.dstLen ∧ body = .next t := by
  unfold checkDst at h
  split at h
  · exact absurd ht (raise_err_ne_zero h)
  · exact ⟨by omega, h⟩

/-! ## Integer reads -/

/-- `VAL` holds `v` and `POS` has moved by the `n` bytes it was read from (40_binary_reader.md R132). -/
def State.afterRead (s : State) (n v : Nat) : State :=
  { s with regs := { s.regs with val := BitVec.ofNat 32 v, pos := BitVec.ofNat 32 (s.regs.pos.toNat + n) } }

section afterRead

variable (s : State) (n v : Nat)

@[simp] theorem afterRead_err : (s.afterRead n v).regs.err = s.regs.err := rfl
@[simp] theorem afterRead_val : (s.afterRead n v).regs.val = BitVec.ofNat 32 v := rfl
@[simp] theorem afterRead_pos : (s.afterRead n v).regs.pos = BitVec.ofNat 32 (s.regs.pos.toNat + n) := rfl
@[simp] theorem afterRead_slen : (s.afterRead n v).regs.slen = s.regs.slen := rfl
@[simp] theorem afterRead_cell (sp : Space) (a : Nat) : (s.afterRead n v).cell sp a = s.cell sp a := by cases sp <;> rfl

/-- A read inside the stream moves `POS` without wrap: the sum is within `SLEN`. -/
theorem afterRead_pos_toNat (hp : s.regs.pos.toNat + n ≤ s.regs.slen.toNat) :
    (s.afterRead n v).regs.pos.toNat = s.regs.pos.toNat + n := by
  have := s.regs.slen.isLt
  rw [afterRead_pos, BitVec.toNat_ofNat, Nat.mod_eq_of_lt (by omega)]

end afterRead

/-- A read inside the stream delivers the value of its bytes. -/
theorem readInteger_legal {s : State} {n : Nat} {value : List Byte → Nat} (he : s.regs.err = 0)
    (hs : s.regs.slen.toNat ≤ s.params.srcCap) (hp : s.regs.pos.toNat + n ≤ s.regs.slen.toNat) :
    readInteger n value s = .next (s.afterRead n (value (s.cells .src s.regs.pos.toNat n))) := by
  unfold readInteger
  rw [whenClear_zero he, checkSlen_pass hs, checkStream_pass hp, readSrc_legal hp hs]
  rfl

/-- A read that completes was inside the stream. -/
theorem readInteger_completed {s t : State} {n : Nat} {value : List Byte → Nat} (he : s.regs.err = 0)
    (h : readInteger n value s = .next t) (ht : t.regs.err = 0) :
    s.regs.slen.toNat ≤ s.params.srcCap ∧ s.regs.pos.toNat + n ≤ s.regs.slen.toNat ∧
    t = s.afterRead n (value (s.cells .src s.regs.pos.toNat n)) := by
  have hread := h
  unfold readInteger at hread
  rw [whenClear_zero he] at hread
  obtain ⟨hs, hread⟩ := checkSlen_passed hread ht
  obtain ⟨hp, -⟩ := checkStream_passed hread ht
  cases (readInteger_legal he hs hp).symm.trans h
  exact ⟨hs, hp, rfl⟩

theorem leValue_one (s : State) (a : Nat) : leValue (s.cells .src a 1) = (s.cell .src a).toNat := rfl

theorem leValue_two (s : State) (a : Nat) :
    leValue (s.cells .src a 2) = (s.cell .src a).toNat + 256 * (s.cell .src (a + 1)).toNat := rfl

theorem beValue_two (s : State) (a : Nat) :
    beValue (s.cells .src a 2) = 256 * (s.cell .src a).toNat + (s.cell .src (a + 1)).toNat :=
  Nat.add_comm _ _

/-! ## Commands run again: the measuring pass -/

/-- The state with `MLEN` = `w`. -/
def State.withMlen (w : Word) (s : State) : State := { s with regs := { s.regs with mlen := w } }

@[simp] theorem withMlen_job (w : Word) (s : State) : (s.withMlen w).job = s.job := rfl

/-- What a measuring pass answers in place of `t` when `MLEN` held `w` before it: a pass that completes has overwritten
it, any other has kept it. -/
def afterMlen (w : Word) (t : State) : State := if t.job = none ∧ t.regs.err = 0 then t else t.withMlen w

theorem afterMlen_completed {t : State} (hj : t.job = none) (he : t.regs.err = 0) (w : Word) : afterMlen w t = t :=
  if_pos ⟨hj, he⟩

theorem afterMlen_running {t : State} (hj : t.job ≠ none) (w : Word) : afterMlen w t = t.withMlen w :=
  if_neg fun h => hj h.1

theorem afterMlen_faulted {t : State} (he : t.regs.err ≠ 0) (w : Word) : afterMlen w t = t.withMlen w :=
  if_neg fun h => he h.2

theorem afterMlen_job (w : Word) (t : State) : (afterMlen w t).job = t.job := by
  unfold afterMlen
  split <;> rfl

theorem raise_withMlen (w : Word) (k : ErrKind) (s : State) :
    raise k (s.withMlen w) = mapNext (afterMlen w) (raise k s) := by
  simp only [raise, mapNext, afterMlen_faulted (t := { s with regs := { s.regs with err := k.code }, job := none })
    (ErrKind.code_ne_zero k)]
  rfl

section Measuring

variable {s : State} {p l : Nat} (hj : s.job = some (.rlbMeasure p l))
include hj

theorem raiseStruct_withMlen (w : Word) : raiseStruct (s.withMlen w) = mapNext (afterMlen w) (raiseStruct s) := by
  simp only [raiseStruct, withMlen_job, hj, raise_withMlen]

theorem rlbPacket_withMlen (w : Word) (v : Byte) (n len : Nat) :
    rlbPacket v n len (s.withMlen w) = mapNext (afterMlen w) (rlbPacket v n len s) := by
  rw [rlbPacket_measures hj, rlbPacket_measures (s := s.withMlen w) hj]
  refine mapNext_ite (raise_withMlen w _ s) (mapNext_ite (raise_withMlen w _ s) ?_)
  rw [mapNext, afterMlen_running (by simp)]
  rfl

theorem execPacket_withMlen (w : Word) (i : Instr) :
    execPacket i (s.withMlen w) = mapNext (afterMlen w) (execPacket i s) := by
  have refused : ∀ c n len, rlaPacket c n len (s.withMlen w) = mapNext (afterMlen w) (rlaPacket c n len s) := by
    intro c n len
    rw [rlaPacket_refused (s := s) (by simp [hj]), rlaPacket_refused (by simp [hj]), mapNext]
  cases i
  case run8 | run16 | raw => exact refused _ _ _
  case runb | lit => exact rlbPacket_withMlen hj w _ _ _
  all_goals rfl

theorem finishJob_withMlen (w : Word) (he : s.regs.err = 0) :
    finishJob (s.withMlen w) = afterMlen w (finishJob s) := by
  rw [afterMlen_completed (finishJob_job s) ((finishJob_err s).trans he)]
  simp only [finishJob, withMlen_job, hj]
  rfl

/-- A turn of a measuring pass does not look at `MLEN`, and overwrites it when the pass completes. -/
theorem streamStep_withMlen (w : Word) (he : s.regs.err = 0) :
    streamStep execPacket (s.withMlen w) = mapNext (afterMlen w) (streamStep execPacket s) := by
  unfold streamStep
  rw [show streamFetch (s.withMlen w) = streamFetch s from rfl]
  cases streamFetch s with
  | idle => exact congrArg Host.Outcome.next (afterMlen_running (by simp [hj]) w).symm
  | finish => exact congrArg Host.Outcome.next (finishJob_withMlen hj w he)
  | exhausted | truncated => exact raiseStruct_withMlen hj w
  | outside => rfl
  | packet i => exact execPacket_withMlen hj w i

end Measuring

/-- A measuring pass is running, inside its bounds. -/
def State.measures (s : State) : Prop := s.jobInside ∧ ∃ p l, s.job = some (.rlbMeasure p l)

theorem State.measures.err {s : State} (h : s.measures) : s.regs.err = 0 := by
  obtain ⟨hin, p, l, hj⟩ := h
  simp only [State.jobInside, hj] at hin
  exact hin.1

/-- A measuring pass that goes on is a measuring pass. -/
theorem streamStep_keeps_measures {s t : State} (h : s.measures) (ht : streamStep execPacket s = .next t)
    (htj : t.job ≠ none) : t.measures := by
  obtain ⟨hin, p, l, hj⟩ := h
  rcases streamStep_turn_measure hj hin with ⟨-, hs⟩ | hs | hs | ⟨d, j', hs, hp⟩
  · cases hs.symm.trans ht; exact absurd (finishJob_job s) htj
  · exact absurd (raiseStruct_job (hs.symm.trans ht)) htj
  · cases hs.symm.trans ht; exact absurd rfl htj
  · cases hs.symm.trans ht
    refine ⟨hp.inside hj hin, ?_⟩
    cases hp
    exact ⟨_, _, rfl⟩

theorem streamLoop_withMlen (w : Word) (k : Nat) {s : State} (h : s.measures) :
    streamLoop k (s.withMlen w) = mapNext (afterMlen w) (streamLoop k s) := by
  have running : ∀ {s : State}, s.measures → afterMlen w s = s.withMlen w := by
    rintro s ⟨-, p, l, hj⟩
    exact afterMlen_running (by simp [hj]) w
  rw [← running h]
  refine streamLoop_commutes (afterMlen w) State.measures (afterMlen_job w) (fun s hs => ?_)
    (fun s t => streamStep_keeps_measures) k h
  have he := hs.err
  rw [running hs]
  obtain ⟨-, p, l, hj⟩ := hs
  exact streamStep_withMlen hj w he

/-- RLEBM that completes changes `MLEN` only, and answers the same whatever `MLEN` held. -/
theorem rlebm_twice {s t : State} (hj : s.job = none) (he : s.regs.err = 0) (h : exec .rlebm s = .next t)
    (ht : t.regs.err = 0) : exec .rlebm t = .next t := by
  obtain ⟨l, rfl⟩ : ∃ w, t = s.withMlen w := by
    cases (command_leaves rfl h).done_of_err he ht with
    | measure => exact ⟨_, by rw [State.withMlen, hj]⟩
    | integer hn => cases hn
    | scale hi => rcases hi with hi | hi <;> cases hi
    | output _ _ _ hq => cases hq.writesDst
  have hchecks : s.regs.slen.toNat ≤ s.params.srcCap ∧ s.windowEnd ≤ s.regs.slen.toNat := by
    have hr : (whenClear s <| checkSlen s <| checkStream s s.regs.plen.toNat <|
      runJob (.rlbMeasure s.regs.pos.toNat 0) s) = .next _ := h
    rw [whenClear_zero he] at hr
    obtain ⟨hs, hr⟩ := checkSlen_passed hr ht
    obtain ⟨hw, -⟩ := checkStream_passed hr ht
    exact ⟨hs, hw⟩
  obtain ⟨hs, hw⟩ := hchecks
  have hm : State.measures { s with job := some (.rlbMeasure s.regs.pos.toNat 0) } :=
    ⟨⟨he, hs, hw, Nat.le_refl _, Nat.le_add_right _ _, Nat.zero_le _⟩, _, _, rfl⟩
  have hrun : exec .rlebm s = _ := rlebm_runs he hs hw
  calc exec .rlebm (s.withMlen l)
      = streamLoop s.regs.plen.toNat
          (State.withMlen l { s with job := some (.rlbMeasure s.regs.pos.toNat 0) }) := rlebm_runs he hs hw
    _ = mapNext (afterMlen l) (exec .rlebm s) := by rw [streamLoop_withMlen l _ hm, hrun]
    _ = .next (s.withMlen l) := by rw [h, mapNext, afterMlen_completed (t := s.withMlen l) hj ht]

/-! ## Commands run again: ADRMAP and the commands that gather -/

theorem adrmap_twice {s t : State} (he : s.regs.err = 0) (h : exec .adrmap s = .next t) :
    exec .adrmap t = .next t := by
  have hs : ∀ {u : State}, u.regs.err = 0 → exec .adrmap u = .next { u with regs := { u.regs with
      addr := BitVec.ofNat 16 (scramble u.regs.base.toNat u.regs.columns.toNat u.regs.y.toNat) } } :=
    fun hu => whenClear_zero hu _
  cases (hs he).symm.trans h
  exact hs he

/-- `bs` written to `DST` from cell 0, and `OCNT` set to their number. -/
def State.putOut (s : State) (bs : List Byte) : State :=
  { s with dst := s.dst.writeBlock 0 bs, regs := { s.regs with ocnt := BitVec.ofNat 32 bs.length } }

theorem putOut_twice (s : State) (bs : List Byte) : (s.putOut bs).putOut bs = s.putOut bs := by
  simp [State.putOut, Memory.writeBlock_twice]

/-- The picture BPLX unpacks (44_bitplane_unpacker.md R210). -/
def State.picture (s : State) : List Byte :=
  (List.range s.regs.height.toNat).flatMap fun y =>
    (List.range s.regs.width.toNat).map fun xp => BitVec.ofNat 8 (s.pixelAt xp y)

theorem picture_length (s : State) : s.picture.length = s.regs.width.toNat * s.regs.height.toNat := by
  rw [State.picture, rows_length, Nat.mul_comm]

theorem pixels_eq_picture {s : State} (hs : s.regs.slen.toNat ≤ s.params.srcCap)
    (hp : ¬ s.regs.planesShort = true) : s.pixels = some s.picture := pixels_legal hs hp

/-- The registers let BPLX past its checks (44_bitplane_unpacker.md R209). -/
structure State.BplxReady (s : State) : Prop where
  clear : s.regs.err = 0
  planes : legalPlanes s.regs.np = true
  slen : s.regs.slen.toNat ≤ s.params.srcCap
  stream : ¬ s.regs.planesShort = true
  room : s.regs.width.toNat * s.regs.height.toNat ≤ s.params.dstLen

theorem State.BplxReady.exec_eq {s : State} (h : s.BplxReady) : exec .bplx s = .next (s.putOut s.picture) := by
  obtain ⟨he, hn, hs, hp, hd⟩ := h
  rw [← picture_length] at hd
  show execBplx s = _
  unfold execBplx
  rw [whenClear_zero he, if_pos hn, checkSlen_pass hs, if_neg hp, ← picture_length, checkDst_pass hd,
    pixels_eq_picture hs hp]
  simp only [writeDst_legal (show 0 + s.picture.length ≤ s.params.dstLen by omega)]
  rfl

theorem bplx_ready {s t : State} (he : s.regs.err = 0) (h : exec .bplx s = .next t) (ht : t.regs.err = 0) :
    s.BplxReady := by
  replace h : execBplx s = .next t := h
  unfold execBplx at h
  rw [whenClear_zero he] at h
  split at h
  · rename_i hn
    obtain ⟨hs, h⟩ := checkSlen_passed h ht
    split at h
    · exact absurd ht (raise_err_ne_zero h)
    · rename_i hp
      obtain ⟨hd, -⟩ := checkDst_passed h ht
      exact ⟨he, hn, hs, hp, hd⟩
  · exact absurd ht (raise_err_ne_zero h)

/-- BPLX neither reads nor checks what it writes. -/
theorem bplx_twice {s t : State} (he : s.regs.err = 0) (h : exec .bplx s = .next t) (ht : t.regs.err = 0) :
    exec .bplx t = .next t := by
  have hr := bplx_ready he h ht
  cases hr.exec_eq.symm.trans h
  have hr' : (s.putOut s.picture).BplxReady := ⟨hr.clear, hr.planes, hr.slen, hr.stream, hr.room⟩
  rw [hr'.exec_eq, show (s.putOut s.picture).picture = s.picture from rfl, putOut_twice]

/-- The bytes ADRGAT gathers (45_address_descrambler.md R225, R228). -/
def State.gathered (s : State) : List Byte :=
  (List.range s.regs.height.toNat).flatMap fun y =>
    (List.range s.regs.columns.toNat).map fun i => s.cell .src (s.regs.lineAddr y - s.regs.org.toNat + i)

theorem gathered_length (s : State) : s.gathered.length = s.regs.height.toNat * s.regs.columns.toNat :=
  rows_length _ _ _

theorem scanlines_eq_gathered {s : State} (hs : s.regs.slen.toNat ≤ s.params.srcCap)
    (hl : ¬ s.regs.linesOutside = true) : s.scanlines = some s.gathered := scanlines_legal hs hl

/-- The registers let ADRGAT past its checks (45_address_descrambler.md R227). -/
structure State.AdrgatReady (s : State) : Prop where
  clear : s.regs.err = 0
  slen : s.regs.slen.toNat ≤ s.params.srcCap
  stream : ¬ s.regs.linesOutside = true
  room : s.regs.height.toNat * s.regs.columns.toNat ≤ s.params.dstLen

theorem State.AdrgatReady.exec_eq {s : State} (h : s.AdrgatReady) :
    exec .adrgat s = .next (s.putOut s.gathered) := by
  obtain ⟨he, hs, hl, hd⟩ := h
  rw [← gathered_length] at hd
  show execAdrgat s = _
  unfold execAdrgat
  rw [whenClear_zero he, checkSlen_pass hs, if_neg hl, ← gathered_length, checkDst_pass hd,
    scanlines_eq_gathered hs hl]
  simp only [writeDst_legal (show 0 + s.gathered.length ≤ s.params.dstLen by omega)]
  rfl

theorem adrgat_ready {s t : State} (he : s.regs.err = 0) (h : exec .adrgat s = .next t) (ht : t.regs.err = 0) :
    s.AdrgatReady := by
  replace h : execAdrgat s = .next t := h
  unfold execAdrgat at h
  rw [whenClear_zero he] at h
  obtain ⟨hs, h⟩ := checkSlen_passed h ht
  split at h
  · exact absurd ht (raise_err_ne_zero h)
  · rename_i hl
    obtain ⟨hd, -⟩ := checkDst_passed h ht
    exact ⟨he, hs, hl, hd⟩

/-- ADRGAT neither reads nor checks what it writes. -/
theorem adrgat_twice {s t : State} (he : s.regs.err = 0) (h : exec .adrgat s = .next t) (ht : t.regs.err = 0) :
    exec .adrgat t = .next t := by
  have hr := adrgat_ready he h ht
  cases hr.exec_eq.symm.trans h
  have hr' : (s.putOut s.gathered).AdrgatReady := ⟨hr.clear, hr.slen, hr.stream, hr.room⟩
  rw [hr'.exec_eq, show (s.putOut s.gathered).gathered = s.gathered from rfl, putOut_twice]

/-! ## The statements -/

/-- Settles O53: a running command is inside its bounds, so its turn does not stop; between commands the step is one
access of the host. -/
theorem invariantStatesStepSafely : Obligations.InvariantStatesStepSafely := by
  unfold Obligations.InvariantStatesStepSafely
  intro s h hvalid
  unfold safeStep
  cases hj : s.job with
  | some j =>
    rw [step_of_job_ne_none (by simp [hj]), streamStep_exec]
    exact streamStep_next hj h.job
  | none =>
    cases hi : s.inbox with
    | nil => exact ⟨s, step_of_inbox_nil hj hi⟩
    | cons a rest =>
      rw [step_of_inbox_cons hj hi]
      have hv : a.valid { s with inbox := rest } = a.valid s := by cases a <;> rfl
      exact hostAccess_next (hv.trans (hvalid hj a rest hi))

/-- Settles O23: both byte reads were in the stream, so the word read is, and its value is that of the two bytes. -/
theorem byteReadsAgreeWithWordReads : Obligations.ByteReadsAgreeWithWordReads := by
  unfold Obligations.ByteReadsAgreeWithWordReads
  intro s t u he hst ht htu hu
  obtain ⟨hs, hp, rfl⟩ := readInteger_completed he hst ht
  obtain ⟨-, hp', rfl⟩ := readInteger_completed ht htu hu
  have hb := (s.cell .src s.regs.pos.toNat).isLt
  have hb' := (s.cell .src (s.regs.pos.toNat + 1)).isLt
  simp only [leValue_one, afterRead_pos_toNat s 1 _ hp, afterRead_slen] at hp' ⊢
  refine ⟨⟨_, readInteger_legal he hs hp', he, ?_, ?_⟩, ⟨_, readInteger_legal he hs hp', he, ?_, ?_⟩⟩
  · rw [afterRead_pos, afterRead_pos, afterRead_pos_toNat s 1 _ hp]
  · simp only [afterRead_val, afterRead_cell, leValue_two, BitVec.toNat_ofNat]
    omega
  · rw [afterRead_pos, afterRead_pos, afterRead_pos_toNat s 1 _ hp]
  · simp only [afterRead_val, afterRead_cell, beValue_two, BitVec.toNat_ofNat]
    omega

/-- Settles O59: a run that faulted is skipped, and one that completed is completed again by the same result. -/
theorem measuringAndGatheringAreIdempotent : Obligations.MeasuringAndGatheringAreIdempotent := by
  unfold Obligations.MeasuringAndGatheringAreIdempotent
  intro i s t hi hj he h
  by_cases ht : t.regs.err = 0
  · rcases hi with rfl | rfl | rfl | rfl
    · exact rlebm_twice hj he h ht
    · exact bplx_twice he h ht
    · exact adrmap_twice he h
    · exact adrgat_twice he h ht
  · rcases hi with rfl | rfl | rfl | rfl <;> exact exec_skipped rfl rfl ht

/-- Settles O8: between commands the step is the access at the head of the list. -/
theorem hostAccessEffects : Obligations.HostAccessEffects := by
  unfold Obligations.HostAccessEffects
  intro s rest hj
  refine ⟨step_of_inbox_nil hj, fun a => step_of_inbox_cons hj, fun n hi => step_of_inbox_cons hj hi,
    fun sp a hi ha => ?_, fun sp a b hi ha => ?_, fun sp a b hi ha => ?_⟩
  · rw [step_of_inbox_cons hj hi]
    exact if_pos ha
  · rw [step_of_inbox_cons hj hi]
    refine ⟨_, if_pos ha, ?_⟩
    refine ⟨by simp, by simpa using hj, by simp, by simp, by simp, fun sp' a' => ?_⟩
    rw [cell_setMem_writeBlock, State.cell_setPort s rest s.reply]
  · rcases hi with hi | hi
    all_goals
      rw [step_of_inbox_cons hj hi]
      exact if_neg (Nat.not_lt.mpr ha)

end Sys2Proof.Machine

/-! PROOFS. Encodings (30_encoding.md): decoding inverts encoding, a decoded string is an encoding and its first byte
fixes its length; the command issue; the values the integer reads assemble (R104); the pixels BPLX assembles (R106). -/

namespace Sys2Proof

/-! ## Host commands: one byte, matched whole -/

/-- A row of the command table is a command and its one-byte encoding. -/
theorem commandTable_row (k : StreamKeys) : ∀ row ∈ commandTable,
    [row.1] = encode k row.2 ∧ row.2.wellFormed k = true ∧ row.2.decoder = .command := by
  simp [commandTable, encode, Instr.wellFormed, Instr.decoder]

/-- What the command issue decodes stands in the table. -/
theorem mem_commandTable_of_decodeCommand {c : Byte} {i : Instr} (h : decodeCommand c = .ok i) :
    (c, i) ∈ commandTable := by
  unfold decodeCommand at h
  split at h
  · rename_i row hrow
    cases h
    have hcode : row.1 = c := by simpa using List.find?_some hrow
    exact hcode ▸ List.mem_of_find?_eq_some hrow
  · cases h

/-- A command is decoded from its code and from nothing else. -/
theorem decode_command_ok {k : StreamKeys} {bs rest : List Byte} {i : Instr}
    (h : decode .command k bs = .ok (i, rest)) : ∃ c, bs = c :: rest ∧ decodeCommand c = .ok i := by
  cases bs with
  | nil => cases h
  | cons c tail =>
    simp only [decode] at h
    split at h
    · rename_i hc
      cases h
      exact ⟨c, rfl, hc⟩
    · cases h

/-! ## Packets: what each front of a byte string decodes as -/

section Packets

variable (k : StreamKeys)

theorem decodeRla_run8 (c n : Byte) (rest : List Byte) :
    decodeRla k (k.key1 :: c :: n :: rest) = .ok (.run8 c n, rest) := by
  simp [decodeRla]

theorem decodeRla_run16 (h : k.key2 ≠ k.key1) (c nh nl : Byte) (rest : List Byte) :
    decodeRla k (k.key2 :: c :: nh :: nl :: rest) = .ok (.run16 c (nh ++ nl), rest) := by
  simp [decodeRla, h]

theorem decodeRla_raw {c : Byte} (h1 : c ≠ k.key1) (h2 : c ≠ k.key2) (rest : List Byte) :
    decodeRla k (c :: rest) = .ok (.raw c, rest) := by
  simp [decodeRla, h1, h2]

theorem encode_runb_count_value (h : k.order = 0) (v n : Byte) : encode k (.runb v n) = [k.esc, n, v] := if_pos h

theorem encode_runb_value_count (h : k.order ≠ 0) (v n : Byte) : encode k (.runb v n) = [k.esc, v, n] := if_neg h

theorem decodeRlb_runb (v n : Byte) (rest : List Byte) :
    decodeRlb k (encode k (.runb v n) ++ rest) = .ok (.runb v n, rest) := by
  by_cases h : k.order = 0
  · rw [encode_runb_count_value k h]
    simp only [decodeRlb, List.cons_append, List.nil_append, h, if_true]
  · rw [encode_runb_value_count k h]
    simp only [decodeRlb, List.cons_append, List.nil_append, h, if_true, if_false]

theorem decodeRlb_lit {v : Byte} (h : v ≠ k.esc) (rest : List Byte) :
    decodeRlb k (v :: rest) = .ok (.lit v, rest) := by
  simp [decodeRlb, h]

/-- A 16-bit count is its high byte followed by its low byte (20_memory.md R62). -/
theorem highByte_append_lowByte (n : Half) : n.extractLsb' 8 8 ++ n.extractLsb' 0 8 = n := by
  rw [BitVec.extractLsb'_append_extractLsb'_eq_extractLsb' (by decide)]
  exact BitVec.extractLsb'_eq_self

theorem highByte_append (nh nl : Byte) : (nh ++ nl : Half).extractLsb' 8 8 = nh :=
  BitVec.extractLsb'_append_eq_left

theorem lowByte_append (nh nl : Byte) : (nh ++ nl : Half).extractLsb' 0 8 = nl :=
  BitVec.extractLsb'_append_eq_right

/-- Decoding inverts encoding. -/
theorem decode_encode {i : Instr} (hw : i.wellFormed k = true) (rest : List Byte) :
    decode i.decoder k (encode k i ++ rest) = .ok (i, rest) := by
  cases i
  case run8 c n => exact decodeRla_run8 k c n rest
  case run16 c n =>
    have h : k.key2 ≠ k.key1 := by simpa [Instr.wellFormed] using hw
    exact (decodeRla_run16 k h c _ _ rest).trans (by rw [highByte_append_lowByte])
  case raw c =>
    obtain ⟨h1, h2⟩ : c ≠ k.key1 ∧ c ≠ k.key2 := by simpa [Instr.wellFormed] using hw
    exact decodeRla_raw k h1 h2 rest
  case runb v n => exact decodeRlb_runb k v n rest
  case lit v => exact decodeRlb_lit k (by simpa [Instr.wellFormed] using hw) rest
  all_goals rfl

/-! ## Fronts of byte strings: a packet or the beginning of one -/

/-- The length of RLA's packet with first byte `b` (30_encoding.md R94, R110). -/
def rlaLength (b : Byte) : Nat := if b = k.key1 then 3 else if b = k.key2 then 4 else 1

/-- The length of RLB's packet with first byte `b` (30_encoding.md R100, R110). -/
def rlbLength (b : Byte) : Nat := if b = k.esc then 3 else 1

/-- The byte string is a well-formed packet of `d`, `len` bytes long, and what follows it. -/
def StartsWithPacket (d : Decoder) (len : Nat) (bs : List Byte) : Prop :=
  ∃ i, i.decoder = d ∧ i.wellFormed k = true ∧ (encode k i).length = len ∧ ∃ rest, bs = encode k i ++ rest

/-- What RLA finds at the front of a byte string: a packet of the length its first byte fixes, or one cut short. -/
theorem rla_front (b : Byte) (tail : List Byte) :
    (b :: tail).length < rlaLength k b ∧ decodeRla k (b :: tail) = .error .truncated ∨
      StartsWithPacket k .rla (rlaLength k b) (b :: tail) := by
  unfold rlaLength
  by_cases h1 : b = k.key1
  · subst h1
    rw [if_pos rfl]
    match tail with
    | c :: n :: rest => exact .inr ⟨.run8 c n, rfl, rfl, rfl, rest, rfl⟩
    | [_] | [] => exact .inl ⟨by simp, by simp [decodeRla]⟩
  · rw [if_neg h1]
    by_cases h2 : b = k.key2
    · subst h2
      rw [if_pos rfl]
      match tail with
      | c :: nh :: nl :: rest =>
        refine .inr ⟨.run16 c (nh ++ nl), rfl, by simpa [Instr.wellFormed] using h1, rfl, rest, ?_⟩
        simp only [encode, highByte_append, lowByte_append, List.cons_append, List.nil_append]
      | [_, _] | [_] | [] => exact .inl ⟨by simp, by simp [decodeRla, h1]⟩
    · rw [if_neg h2]
      exact .inr ⟨.raw b, rfl, by simp [Instr.wellFormed, h1, h2], rfl, tail, rfl⟩

/-- What RLB finds at the front of a byte string. -/
theorem rlb_front (b : Byte) (tail : List Byte) :
    (b :: tail).length < rlbLength k b ∧ decodeRlb k (b :: tail) = .error .truncated ∨
      StartsWithPacket k .rlb (rlbLength k b) (b :: tail) := by
  unfold rlbLength
  by_cases h : b = k.esc
  · subst h
    rw [if_pos rfl]
    match tail with
    | b1 :: b2 :: rest =>
      by_cases ho : k.order = 0
      · exact .inr ⟨.runb b2 b1, rfl, rfl, Laws.EncodeLength.runb b2 b1 k, rest,
          by rw [encode_runb_count_value k ho]; rfl⟩
      · exact .inr ⟨.runb b1 b2, rfl, rfl, Laws.EncodeLength.runb b1 b2 k, rest,
          by rw [encode_runb_value_count k ho]; rfl⟩
    | [_] | [] => exact .inl ⟨by simp, by simp [decodeRlb]⟩
  · rw [if_neg h]
    exact .inr ⟨.lit b, rfl, by simpa [Instr.wellFormed] using h, rfl, tail, rfl⟩

/-- A packet at the front is cut off exactly. -/
theorem StartsWithPacket.decode_eq {d : Decoder} {len : Nat} {bs : List Byte} (h : StartsWithPacket k d len bs) :
    len ≤ bs.length ∧ ∃ i, i.decoder = d ∧ i.wellFormed k = true ∧ bs = encode k i ++ bs.drop len ∧
      decode d k bs = .ok (i, bs.drop len) := by
  obtain ⟨i, rfl, hw, rfl, rest, rfl⟩ := h
  rw [List.drop_left]
  exact ⟨by simp, i, rfl, hw, rfl, decode_encode k hw rest⟩

end Packets

/-- The converse of `decode_encode` for the packets, from what stands at the front. -/
theorem decoded_of_front {k : StreamKeys} {d : Decoder} {len : Nat} {bs rest : List Byte} {i : Instr}
    (hfront : bs.length < len ∧ decode d k bs = .error .truncated ∨ StartsWithPacket k d len bs)
    (h : decode d k bs = .ok (i, rest)) : bs = encode k i ++ rest ∧ i.wellFormed k = true ∧ i.decoder = d := by
  rcases hfront with ⟨-, hcut⟩ | hpacket
  · cases hcut.symm.trans h
  · obtain ⟨-, j, hd, hw, hbs, hdec⟩ := hpacket.decode_eq
    cases hdec.symm.trans h
    exact ⟨hbs, hw, hd⟩

/-- Whether a packet is cut depends on the length alone. -/
theorem length_decides_front {k : StreamKeys} {d : Decoder} {len : Nat} {bs : List Byte}
    (hfront : bs.length < len ∧ decode d k bs = .error .truncated ∨ StartsWithPacket k d len bs) :
    if bs.length < len then decode d k bs = .error .truncated else ∃ i, decode d k bs = .ok (i, bs.drop len) := by
  rcases hfront with ⟨hlen, hcut⟩ | hpacket
  · rwa [if_pos hlen]
  · obtain ⟨hlen, i, -, -, -, hdec⟩ := hpacket.decode_eq
    rw [if_neg (Nat.not_lt.mpr hlen)]
    exact ⟨i, hdec⟩

/-- Bytes that decode are the encoding of the instruction and what follows it. -/
theorem encode_of_decode {d : Decoder} {k : StreamKeys} {bs rest : List Byte} {i : Instr}
    (h : decode d k bs = .ok (i, rest)) : bs = encode k i ++ rest ∧ i.wellFormed k = true ∧ i.decoder = d := by
  cases d with
  | command =>
    obtain ⟨c, rfl, hc⟩ := decode_command_ok h
    obtain ⟨henc, hw, hdec⟩ := commandTable_row k _ (mem_commandTable_of_decodeCommand hc)
    exact ⟨congrArg (· ++ rest) henc, hw, hdec⟩
  | rla =>
    cases bs with
    | nil => cases h
    | cons b tail => exact decoded_of_front (rla_front k b tail) h
  | rlb =>
    cases bs with
    | nil => cases h
    | cons b tail => exact decoded_of_front (rlb_front k b tail) h

/-! ## Reserved codes -/

/-- The codes outside the command table (30_encoding.md R93). -/
abbrev reservedCode (n : Nat) : Prop :=
  0x03 ≤ n ∧ n ≤ 0x0F ∨ 0x16 ≤ n ∧ n ≤ 0x1F ∨ 0x22 ≤ n ∧ n ≤ 0x2F ∨ 0x31 ≤ n ∧ n ≤ 0x3F ∨ 0x42 ≤ n ∧ n ≤ 0x4F ∨
    0x51 ≤ n ∧ n ≤ 0x5F ∨ 0x62 ≤ n

theorem commandTable_not_reserved : ∀ row ∈ commandTable, ¬ reservedCode row.1.toNat := by decide

theorem decodeCommand_reserved {c : Byte} (h : reservedCode c.toNat) : ∃ e, decodeCommand c = .error e := by
  cases hc : decodeCommand c with
  | ok i => exact absurd h (commandTable_not_reserved _ (mem_commandTable_of_decodeCommand hc))
  | error e => exact ⟨e, rfl⟩

end Sys2Proof

namespace Sys2Proof.Machine

/-! ## The command issue (30_encoding.md R92) -/

section Issue

variable {run : Instr → State → Result} {s : State} {v : Nat}

theorem hostAccess_writeCmd : hostAccess run (.writeReg 0x00 v) s = issue run (BitVec.ofNat 8 v) s := by
  simp only [hostAccess, if_true]

theorem issue_command {c : Byte} {i : Instr} (h : decodeCommand c = .ok i) : issue run c s = run i s := by
  simp only [issue, h]

theorem issue_reserved {c : Byte} (h : reservedCode c.toNat) : issue run c s = whenClear s (raise .illegal s) := by
  obtain ⟨e, he⟩ := decodeCommand_reserved h
  simp only [issue, he]

end Issue

/-! ## Values of integer reads (30_encoding.md R104) -/

section Values

variable (s : State) (a : Nat)

theorem leValue_four : leValue (s.cells .src a 4) =
    16777216 * (s.cell .src (a + 3)).toNat + 65536 * (s.cell .src (a + 2)).toNat +
      256 * (s.cell .src (a + 1)).toNat + (s.cell .src a).toNat := by
  show (s.cell .src a).toNat + 256 * ((s.cell .src (a + 1)).toNat +
    256 * ((s.cell .src (a + 2)).toNat + 256 * ((s.cell .src (a + 3)).toNat + 256 * 0))) = _
  omega

theorem beValue_four : beValue (s.cells .src a 4) =
    16777216 * (s.cell .src a).toNat + 65536 * (s.cell .src (a + 1)).toNat +
      256 * (s.cell .src (a + 2)).toNat + (s.cell .src (a + 3)).toNat := by
  show (s.cell .src (a + 3)).toNat + 256 * ((s.cell .src (a + 2)).toNat +
    256 * ((s.cell .src (a + 1)).toNat + 256 * ((s.cell .src a).toNat + 256 * 0))) = _
  omega

end Values

/-- A read inside the stream delivers `v` when its bytes have that value. -/
theorem readInteger_value {s : State} {n v : Nat} {value : List Byte → Nat} (he : s.regs.err = 0)
    (hs : s.regs.slen.toNat ≤ s.params.srcCap) (hv : value (s.cells .src s.regs.pos.toNat n) = v)
    (hp : s.regs.pos.toNat + n ≤ s.regs.slen.toNat) : readInteger n value s = .next (s.afterRead n v) :=
  hv ▸ readInteger_legal he hs hp

/-! ## The pixels of BPLX (44_bitplane_unpacker.md R208) -/

/-- The planes weigh together one less than `2^np`, in either plane order. -/
theorem planeWeight_sum (r : Regs) (np : Nat) :
    ((List.range np).map fun p => 2 ^ r.planeWeight np p).sum + 1 = 2 ^ np := by
  unfold Regs.planeWeight
  cases r.plord with
  | false =>
    simp only [Bool.false_eq_true, if_false]
    induction np with
    | zero => rfl
    | succ n ih =>
      rw [List.range_succ, List.map_append, List.sum_append, Nat.pow_succ]
      simp only [List.map_cons, List.map_nil, List.sum_cons, List.sum_nil]
      omega
  | true =>
    simp only [if_true]
    induction np with
    | zero => rfl
    | succ n ih =>
      rw [List.range_succ_eq_map, List.map_cons, List.map_map, List.sum_cons, Nat.pow_succ]
      have : (List.range n).map ((fun p => 2 ^ (n + 1 - 1 - p)) ∘ Nat.succ) =
          (List.range n).map fun p => 2 ^ (n - 1 - p) :=
        List.map_congr_left fun p _ => by simp only [Function.comp, show n + 1 - 1 - p.succ = n - 1 - p by omega]
      rw [this]
      simp only [Nat.sub_zero, Nat.add_sub_cancel]
      omega

/-- A pixel has `NP` bits. -/
theorem pixelAt_lt (s : State) (xp y : Nat) : s.pixelAt xp y < 2 ^ s.regs.np := by
  have hbits : s.pixelAt xp y ≤ ((List.range s.regs.np).map fun p => 2 ^ s.regs.planeWeight s.regs.np p).sum := by
    refine List.sum_le_sum fun p _ => ?_
    have : s.bitAt p (y * s.regs.linebits.toNat + xp) < 2 := Nat.mod_lt _ (by decide)
    exact (Nat.mul_le_mul_right _ (by omega)).trans_eq (Nat.one_mul _)
  have := planeWeight_sum s.regs s.regs.np
  omega

/-- A pixel of a legal plane count fits its byte. -/
theorem State.BplxReady.pixelAt_lt_byte {s : State} (h : s.BplxReady) (xp y : Nat) : s.pixelAt xp y < 2 ^ 8 := by
  have hn : s.regs.np ≤ 8 := by
    rcases (legalPlanes_iff _).mp h.planes with h | h | h | h <;> omega
  exact Nat.lt_of_lt_of_le (pixelAt_lt s xp y) (Nat.pow_le_pow_right (by decide) hn)

theorem picture_getElem? (s : State) {xp y : Nat} (hx : xp < s.regs.width.toNat) (hy : y < s.regs.height.toNat) :
    s.picture[y * s.regs.width.toNat + xp]? = some (BitVec.ofNat 8 (s.pixelAt xp y)) :=
  rows_getElem? _ _ _ y xp hy hx

theorem putOut_cell (s : State) (bs : List Byte) (a : Nat) :
    (s.putOut bs).cell .dst a = if a < bs.length then bs[a]?.getD 0 else s.cell .dst a := by
  rw [State.cell_of_writeBlock (s := s) (a := 0) (bs := bs) rfl]
  simp

/-! ## The statements -/

/-- Settles O1, by the rule for each packet form and evaluation for each command. -/
theorem decodeInvertsEncode : Obligations.DecodeInvertsEncode := by
  unfold Obligations.DecodeInvertsEncode
  exact fun k i rest hw => decode_encode k hw rest

/-- Settles O2: what decodes has an encoding at its front, which decodes back. -/
theorem decodedBytesAreTheEncoding : Obligations.DecodedBytesAreTheEncoding := by
  unfold Obligations.DecodedBytesAreTheEncoding
  exact fun d k bs i rest => encode_of_decode

/-- Settles O4: the front of a byte string is a packet of that length or is cut. -/
theorem firstByteFixesPacketLength : Obligations.FirstByteFixesPacketLength := by
  unfold Obligations.FirstByteFixesPacketLength
  exact fun k b tail => ⟨length_decides_front (rla_front k b tail), length_decides_front (rlb_front k b tail)⟩

/-- Settles O21: a legal read delivers the value of its bytes, written out for each width and order. -/
theorem integerReadsDeliver : Obligations.IntegerReadsDeliver := by
  unfold Obligations.IntegerReadsDeliver
  intro s he hs
  exact ⟨readInteger_value he hs (leValue_one s _),
    readInteger_value he hs ((leValue_two s _).trans (Nat.add_comm _ _)),
    readInteger_value he hs (beValue_two s _),
    readInteger_value he hs (leValue_four s _),
    readInteger_value he hs (beValue_four s _)⟩

/-- Settles O43: past its checks BPLX puts out the picture, row after row, and every pixel fits its byte. -/
theorem bplxUnpacksPixels : Obligations.BplxUnpacksPixels := by
  unfold Obligations.BplxUnpacksPixels
  intro s he hs w h np lsbFirst zeroIsMost base bit pixel hnp hplanes hroom
  have hpixel : ∀ xp y, s.pixelAt xp y = pixel xp y := by
    intro xp y
    simp only [State.pixelAt, State.bitAt, Regs.planeWeight, np_eq, bitord_eq, plord_eq, decide_eq_true_eq]
    rfl
  have hready : s.BplxReady := by
    refine ⟨he, (legalPlanes_iff _).mpr (by rwa [np_eq]), hs, fun hshort => ?_, hroom⟩
    obtain ⟨hw, hh, p, hp, hlt⟩ := (planesShort_iff s.regs).mp hshort
    exact absurd (hplanes hw hh p (by rwa [np_eq] at hp)) (Nat.not_le.mpr hlt)
  refine ⟨s.putOut s.picture, hready.exec_eq, ?_, fun xp y hx hy => ?_, fun a ha => ?_⟩
  · rw [State.putOut, picture_length]
  · have hin : y * w + xp < s.picture.length := (List.getElem?_eq_some_iff.mp (picture_getElem? s hx hy)).1
    rw [putOut_cell, if_pos hin, picture_getElem? s hx hy, Option.getD_some, BitVec.toNat_ofNat,
      Nat.mod_eq_of_lt (hready.pixelAt_lt_byte xp y), hpixel]
  · rw [putOut_cell, if_neg (by rw [picture_length]; exact Nat.not_lt.mpr ha)]

/-- Settles O3: all but the reserved code are encodings, written out. -/
theorem specWordsDecode : Obligations.SpecWordsDecode := by
  unfold Obligations.SpecWordsDecode
  exact ⟨decode_encode _ (i := .rd32le) rfl [], decode_encode _ (i := .adrgat) rfl [], by decide,
    decode_encode ⟨0xFE, 0xFF, 0, 0⟩ (i := .run8 0x07 0x03) rfl [],
    decode_encode ⟨0xFE, 0xFF, 0, 0⟩ (i := .run16 0x09 0x0100) (by decide) [],
    decode_encode ⟨0, 0, 0xC2, 0⟩ (i := .runb 0x07 0x03) rfl [],
    decode_encode ⟨0, 0, 0xC2, 1⟩ (i := .runb 0x03 0x07) rfl []⟩

/-- Settles O5: the step takes the access, the access issues the code, the code is the command's. -/
theorem stepRunsIssuedCommand : Obligations.StepRunsIssuedCommand := by
  unfold Obligations.StepRunsIssuedCommand
  intro s v rest i hj hinbox hcode
  calc step s = hostAccess exec (.writeReg 0x00 v) { s with inbox := rest } := step_of_inbox_cons hj hinbox
    _ = issue exec (BitVec.ofNat 8 v) { s with inbox := rest } := hostAccess_writeCmd
    _ = exec i { s with inbox := rest } := issue_command hcode

/-- Settles O7: no row of the command table has a reserved code, so the issue raises `ILLEGAL` unless `ERR` is set. -/
theorem reservedCodeRaisesIllegal : Obligations.ReservedCodeRaisesIllegal := by
  unfold Obligations.ReservedCodeRaisesIllegal
  intro s v hj hcode
  have hissue : hostAccess exec (.writeReg 0x00 v) s = whenClear s (raise .illegal s) :=
    hostAccess_writeCmd.trans (issue_reserved (by rwa [BitVec.toNat_ofNat]))
  refine ⟨fun he => ?_, fun he => ?_⟩
  · rw [hissue, whenClear_zero he, raise_idle hj]
    rfl
  · rw [hissue, whenClear_set he]

end Sys2Proof.Machine

/-! PROOFS. The binary reader (40_binary_reader.md): the faults of the prologue that its six commands share, and the copy
RDBUF makes once it is past its checks. -/

namespace Sys2Proof.Machine

/-! ## The prologue (40_binary_reader.md R131) -/

section Prologue

variable {s : State} {n : Nat} {body : Result} (he : s.regs.err = 0) (hj : s.job = none)
include he hj

/-- `SLEN` above the capacity of `SRC` stops a command before anything it does next. -/
theorem prologue_illegal (hs : s.params.srcCap < s.regs.slen.toNat) :
    whenClear s (checkSlen s body) = .next { s with regs := { s.regs with err := 5 } } := by
  rw [whenClear_zero he, checkSlen_fail hs, raise_idle hj]
  rfl

/-- A read of `n` bytes that ends past the stream stops a command before anything it does next. -/
theorem prologue_read (hs : s.regs.slen.toNat ≤ s.params.srcCap) (hp : s.regs.slen.toNat < s.regs.pos.toNat + n) :
    whenClear s (checkSlen s (checkStream s n body)) = .next { s with regs := { s.regs with err := 1 } } := by
  rw [whenClear_zero he, checkSlen_pass hs, checkStream_fail hp, raise_idle hj]
  rfl

end Prologue

/-- `i` is a command of the binary reader that takes `n` stream bytes in the state `s`. -/
def ReaderTakes (i : Instr) (n : Nat) (s : State) : Prop :=
  i = .rd8 ∧ n = 1 ∨ i = .rd16le ∧ n = 2 ∨ i = .rd16be ∧ n = 2 ∨ i = .rd32le ∧ n = 4 ∨ i = .rd32be ∧ n = 4 ∨
    i = .rdbuf ∧ n = s.regs.olen.toNat

/-- Every command of the binary reader stands behind the same prologue for its byte count. -/
theorem ReaderTakes.exec_eq {i : Instr} {n : Nat} {s : State} (h : ReaderTakes i n s) :
    ∃ body, exec i s = whenClear s (checkSlen s (checkStream s n body)) := by
  obtain ⟨rfl, rfl⟩ | ⟨rfl, rfl⟩ | ⟨rfl, rfl⟩ | ⟨rfl, rfl⟩ | ⟨rfl, rfl⟩ | ⟨rfl, rfl⟩ := h
  all_goals exact ⟨_, rfl⟩

/-! ## The buffer read (40_binary_reader.md R138) -/

/-- The state a completed RDBUF leaves. -/
def State.afterRdbuf (s : State) : State :=
  { s with
    dst := s.dst.writeBlock 0 (s.cells .src s.regs.pos.toNat s.regs.olen.toNat)
    regs := { s.regs with
      ocnt := s.regs.olen, pos := BitVec.ofNat 32 (s.regs.pos.toNat + s.regs.olen.toNat) } }

theorem afterRdbuf_cell (s : State) (a : Nat) :
    s.afterRdbuf.cell .dst a =
      if a < s.regs.olen.toNat then s.cell .src (s.regs.pos.toNat + a) else s.cell .dst a := by
  rw [State.cell_of_writeBlock (s := s) (sp := .dst) rfl, State.cells_length, State.cells_getElem?]
  by_cases h : a < s.regs.olen.toNat
  · simp [h]
  · simp [h]

section Rdbuf

variable {s : State} (he : s.regs.err = 0) (hs : s.regs.slen.toNat ≤ s.params.srcCap)
  (hp : s.regs.pos.toNat + s.regs.olen.toNat ≤ s.regs.slen.toNat)
include he hs hp

/-- A copy larger than `DST` stops RDBUF after its prologue and before its first write. -/
theorem rdbuf_resource (hj : s.job = none) (hd : s.params.dstLen < s.regs.olen.toNat) :
    exec .rdbuf s = .next { s with regs := { s.regs with err := 4 } } := by
  show execRdbuf s = _
  unfold execRdbuf
  rw [whenClear_zero he, checkSlen_pass hs, checkStream_pass hp, checkDst_fail hd, raise_idle hj]
  rfl

theorem rdbuf_legal (hd : s.regs.olen.toNat ≤ s.params.dstLen) : exec .rdbuf s = .next s.afterRdbuf := by
  have hroom : 0 + (s.cells .src s.regs.pos.toNat s.regs.olen.toNat).length ≤ s.params.dstLen := by
    rwa [State.cells_length, Nat.zero_add]
  show execRdbuf s = _
  unfold execRdbuf
  rw [whenClear_zero he, checkSlen_pass hs, checkStream_pass hp, checkDst_pass hd, readSrc_legal hp hs]
  simp only [writeDst_legal hroom]
  rfl

end Rdbuf

/-! ## The statements -/

/-- Settles O17: all six commands stand behind one prologue, which raises both faults. -/
theorem readerPrologueFaults : Obligations.ReaderPrologueFaults := by
  unfold Obligations.ReaderPrologueFaults
  intro s he hj i n hi
  obtain ⟨body, hexec⟩ := ReaderTakes.exec_eq hi
  rw [hexec]
  exact ⟨prologue_illegal he hj, prologue_read he hj⟩

/-- Settles O22: the faults are those of the prologue and of the room check; past them the bytes read are written. -/
theorem rdbufCopiesStreamBytes : Obligations.RdbufCopiesStreamBytes := by
  unfold Obligations.RdbufCopiesStreamBytes
  refine ⟨rfl, fun s he hj => ?_⟩
  obtain ⟨hillegal, hread⟩ := readerPrologueFaults s he hj .rdbuf s.regs.olen.toNat (by simp)
  exact ⟨hillegal, hread, fun hs hp hd => rdbuf_resource he hs hp hj hd,
    fun hs hp hd => ⟨s.afterRdbuf, rdbuf_legal he hs hp hd, rfl, afterRdbuf_cell s⟩⟩

end Sys2Proof.Machine

/-! PROOFS. The palette scaler (41_palette_scaler.md): the arithmetic of the two scaling functions, and the two commands
as two cases of one rewriting of the selected slots. -/

namespace Sys2Proof.Machine

/-! ## The scaling functions (41_palette_scaler.md R156 to R158) -/

theorem scale68_mono {a b : Nat} (h : a ≤ b) : scale68 a ≤ scale68 b :=
  Nat.div_le_div_right (Nat.mul_le_mul_right 255 h)

theorem scale86_mono {a b : Nat} (h : a ≤ b) : scale86 a ≤ scale86 b :=
  Nat.div_le_div_right (Nat.mul_le_mul_right 63 h)

/-- One more step of the 6-bit value is worth more than 4 steps of the 8-bit value, so truncation merges none. -/
theorem scale68_strictMono {a b : Nat} (h : a < b) : scale68 a < scale68 b := by
  unfold scale68
  omega

/-- `255 / 63 = 4 + 1 / 21`. -/
theorem scale68_eq (v : Nat) : scale68 v = 4 * v + v / 21 := by
  unfold scale68
  omega

/-- `63 / 255 = 21 / 85`. -/
theorem scale86_eq (v : Nat) : scale86 v = 21 * v / 85 := by
  unfold scale86
  omega

/-- With `r = v % 21`, the product `21 * (4 * v + v / 21)` is `85 * v - r`, and `r < 85`. -/
theorem scale86_scale68 (v : Nat) : scale86 (scale68 v) = if 21 ∣ v then v else v - 1 := by
  rw [scale86_eq, scale68_eq]
  have hprod : 21 * (4 * v + v / 21) = 85 * v - v % 21 := by omega
  rw [hprod]
  split <;> omega

/-- `21 * v = 85 * (21 * v / 85) + s` with `s < 85`: the way back loses exactly when `s` is not 0, and 21 is prime to 85. -/
theorem scale68_scale86_eq_iff (v : Nat) : scale68 (scale86 v) = v ↔ 85 ∣ v := by
  rw [scale86_eq, scale68_eq]
  omega

theorem scale68_lt {v : Nat} (h : v ≤ 63) : scale68 v < 256 :=
  Nat.lt_succ_of_le (scale68_mono h)

theorem scale86_lt {v : Nat} (h : v < 256) : scale86 v < 256 :=
  (scale86_mono (Nat.le_of_lt_succ h)).trans_lt (by decide)

/-! ## The slots of a command (41_palette_scaler.md R152, R155) -/

/-- `a` is a cell of the slots `[PSTART, PSTART + PCNT)`. -/
abbrev State.inSlots (s : State) (a : Nat) : Prop :=
  3 * s.regs.pstart.toNat ≤ a ∧ a < 3 * (s.regs.pstart.toNat + s.regs.pcnt.toNat)

/-- The bytes of the slots `[PSTART, PSTART + PCNT)`. -/
def State.slotBytes (s : State) : List Byte := s.cells .pal (3 * s.regs.pstart.toNat) (3 * s.regs.pcnt.toNat)

/-- The state with `f` applied to every byte of the selected slots. -/
def State.afterScale (f : Nat → Nat) (s : State) : State :=
  { s with
    pal := s.pal.writeBlock (3 * s.regs.pstart.toNat) (s.slotBytes.map (fun b => BitVec.ofNat 8 (f b.toNat))) }

theorem slotBytes_length (s : State) : s.slotBytes.length = 3 * s.regs.pcnt.toNat := State.cells_length ..

theorem mem_slotBytes {s : State} {b : Byte} : b ∈ s.slotBytes ↔ ∃ a, s.inSlots a ∧ s.cell .pal a = b := by
  simp only [State.slotBytes, State.cells, List.mem_map, List.mem_range]
  constructor
  · rintro ⟨j, hj, rfl⟩
    exact ⟨_, ⟨by omega, by omega⟩, rfl⟩
  · rintro ⟨a, ⟨hlo, hhi⟩, rfl⟩
    exact ⟨a - 3 * s.regs.pstart.toNat, by omega, by rw [Nat.add_sub_cancel' hlo]⟩

theorem slotBytes_all_iff {s : State} {legal : Byte → Bool} :
    s.slotBytes.all legal = true ↔ ∀ a, s.inSlots a → legal (s.cell .pal a) = true := by
  simp only [List.all_eq_true, mem_slotBytes]
  exact ⟨fun h a ha => h _ ⟨a, ha, rfl⟩, fun h b ⟨a, ha, hb⟩ => hb ▸ h a ha⟩

theorem afterScale_cell (f : Nat → Nat) (s : State) (a : Nat) :
    (s.afterScale f).cell .pal a =
      if s.inSlots a then BitVec.ofNat 8 (f (s.cell .pal a).toNat) else s.cell .pal a := by
  have hrange : (3 * s.regs.pstart.toNat ≤ a ∧ a < 3 * s.regs.pstart.toNat + 3 * s.regs.pcnt.toNat) ↔ s.inSlots a := by
    rw [← Nat.mul_add]
  rw [State.cell_of_writeBlock (s := s) (sp := .pal) rfl, List.length_map, slotBytes_length]
  by_cases h : s.inSlots a
  · obtain ⟨hlo, hhi⟩ := h
    rw [if_pos (hrange.mpr ⟨hlo, hhi⟩), if_pos ⟨hlo, hhi⟩, List.getElem?_map, State.slotBytes, State.cells_getElem?,
      if_pos (by omega), Nat.add_sub_cancel' hlo]
    rfl
  · rw [if_neg (mt hrange.mp h), if_neg h]

/-- When `f` keeps the selected bytes in 8 bits, nothing of its value is lost in the cell. -/
theorem afterScale_cell_toNat {f : Nat → Nat} {s : State} (hf : ∀ a, s.inSlots a → f (s.cell .pal a).toNat < 256)
    (a : Nat) :
    ((s.afterScale f).cell .pal a).toNat = if s.inSlots a then f (s.cell .pal a).toNat else (s.cell .pal a).toNat := by
  rw [afterScale_cell]
  by_cases h : s.inSlots a
  · rw [if_pos h, if_pos h, BitVec.toNat_ofNat, Nat.mod_eq_of_lt (hf a h)]
  · rw [if_neg h, if_neg h]

section ScaleSlots

variable {s : State} {legal : Byte → Bool} {f : Nat → Nat} (he : s.regs.err = 0)
include he

theorem scaleSlots_illegal (hj : s.job = none) (h : 256 < s.regs.pstart.toNat + s.regs.pcnt.toNat) :
    scaleSlots legal f s = .next { s with regs := { s.regs with err := 5 } } := by
  unfold scaleSlots Config.palSlots
  rw [whenClear_zero he, if_pos h, raise_idle hj]
  rfl

/-- Inside the 256 slots the old bytes alone decide between the fault and the rewriting. -/
theorem scaleSlots_inside (h : s.regs.pstart.toNat + s.regs.pcnt.toNat ≤ 256) :
    scaleSlots legal f s = if s.slotBytes.all legal then .next (s.afterScale f) else raise .struct s := by
  have hroom : 3 * s.regs.pstart.toNat + 3 * s.regs.pcnt.toNat ≤ 768 := by omega
  unfold scaleSlots Config.palSlots
  rw [whenClear_zero he, if_neg (Nat.not_lt.mpr h)]
  simp only [readPal_legal hroom]
  rw [writePal_legal (by rwa [List.length_map, State.cells_length])]
  rfl

theorem scaleSlots_struct (hj : s.job = none) (h : s.regs.pstart.toNat + s.regs.pcnt.toNat ≤ 256)
    (hbad : ¬ ∀ a, s.inSlots a → legal (s.cell .pal a) = true) :
    scaleSlots legal f s = .next { s with regs := { s.regs with err := 2 } } := by
  rw [scaleSlots_inside he h, if_neg (mt slotBytes_all_iff.mp hbad), raise_idle hj]
  rfl

theorem scaleSlots_legal (h : s.regs.pstart.toNat + s.regs.pcnt.toNat ≤ 256)
    (hok : ∀ a, s.inSlots a → legal (s.cell .pal a) = true) :
    scaleSlots legal f s = .next (s.afterScale f) := by
  rw [scaleSlots_inside he h, if_pos (slotBytes_all_iff.mpr hok)]

end ScaleSlots

/-! ## The statements -/

/-- Settles O26: the bytes are checked before any is written, and a channel up to 63 scales into 8 bits. -/
theorem pal68ScalesItsSlots : Obligations.Pal68ScalesItsSlots := by
  unfold Obligations.Pal68ScalesItsSlots
  refine ⟨rfl, fun s he hj => ⟨scaleSlots_illegal he hj, fun h hbad => ?_, fun h hok => ?_⟩⟩
  · obtain ⟨a, hlo, hhi, hbig⟩ := hbad
    exact scaleSlots_struct he hj h fun hall => absurd (of_decide_eq_true (hall a ⟨hlo, hhi⟩)) (Nat.not_le.mpr hbig)
  · exact ⟨s.afterScale scale68, scaleSlots_legal he h fun a ha => decide_eq_true (hok a ha.1 ha.2), rfl,
      afterScale_cell_toNat fun a ha => scale68_lt (hok a ha.1 ha.2)⟩

/-- Settles O27: every byte is a legal input, so only the range check can fault. -/
theorem pal86ScalesItsSlots : Obligations.Pal86ScalesItsSlots := by
  unfold Obligations.Pal86ScalesItsSlots
  refine ⟨rfl, fun s he hj => ⟨scaleSlots_illegal he hj, fun h => ?_⟩⟩
  exact ⟨s.afterScale scale86, scaleSlots_legal he h fun _ _ => rfl, rfl,
    afterScale_cell_toNat fun a _ => scale86_lt (s.cell .pal a).isLt⟩

/-- Settles O24: truncating division is monotonic, and the factor of `SCALE68` is above 1. -/
theorem scalingIsMonotonic : Obligations.ScalingIsMonotonic :=
  ⟨fun _ _ h => ⟨scale68_mono h, scale86_mono h⟩, fun _ _ h => scale68_strictMono h, rfl, rfl, rfl, rfl⟩

/-- Settles O25: the named values are the multiples of 21 up to 63 and the multiples of 85 up to 255. -/
theorem scalingRoundTripsExactlyOnTheNamedSets : Obligations.ScalingRoundTripsExactlyOnTheNamedSets := by
  unfold Obligations.ScalingRoundTripsExactlyOnTheNamedSets
  have named68 : ∀ v : Nat, v ≤ 63 → (21 ∣ v ↔ v = 0 ∨ v = 21 ∨ v = 42 ∨ v = 63) := by omega
  have named86 : ∀ v : Nat, v ≤ 255 → (85 ∣ v ↔ v = 0 ∨ v = 85 ∨ v = 170 ∨ v = 255) := by omega
  refine ⟨fun v hv => ?_, fun v hv hn => ?_, fun v hv => ?_⟩
  · rw [scale86_scale68, ← named68 v hv]
    split <;> omega
  · rw [scale86_scale68, if_neg (mt (named68 v hv).mp hn)]
  · rw [scale68_scale86_eq_iff, named86 v hv]

end Sys2Proof.Machine

/-! PROOFS. RLE decoder A (42_rle_a_byte_word.md), with what it shares with decoder B: the prologue, the fault
`raise STRUCT`, a packet cut by the window's end, the bytes outside the window; and RLEA over a whole packet stream, by
induction over its packets. -/

namespace Sys2Proof.Machine

/-! ## The prologue (42_rle_a_byte_word.md R168) -/

/-- Output that does not fit `DST` stops a command once its stream checks are passed. -/
theorem prologue_resource {s : State} {n m : Nat} {body : Result} (he : s.regs.err = 0) (hj : s.job = none)
    (hs : s.regs.slen.toNat ≤ s.params.srcCap) (hp : s.regs.pos.toNat + n ≤ s.regs.slen.toNat)
    (hd : s.params.dstLen < m) :
    whenClear s (checkSlen s (checkStream s n (checkDst s m body))) =
      .next { s with regs := { s.regs with err := 4 } } := by
  rw [whenClear_zero he, checkSlen_pass hs, checkStream_pass hp, checkDst_fail hd, raise_idle hj]
  rfl

/-- The registers let RLEA past its checks. -/
structure State.RleaReady (s : State) : Prop where
  clear : s.regs.err = 0
  slen : s.regs.slen.toNat ≤ s.params.srcCap
  window : s.windowEnd ≤ s.regs.slen.toNat
  room : s.regs.olen.toNat ≤ s.params.dstLen

/-- The state at the head of RLEA's loop: `DST` holds `d`, the pointer is `p` and the output index `o`. -/
def State.atRla (s : State) (d : Memory) (p o : Nat) : State := { s with dst := d, job := some (.rla p o) }

theorem State.RleaReady.exec_eq {s : State} (h : s.RleaReady) :
    exec .rlea s = streamLoop s.regs.plen.toNat (s.atRla s.dst s.regs.pos.toNat 0) :=
  rlea_runs h.clear h.slen h.window h.room

/-- RLEA that completes was past its checks. -/
theorem rlea_ready {s t : State} (he : s.regs.err = 0) (h : exec .rlea s = .next t) (ht : t.regs.err = 0) :
    s.RleaReady := by
  replace h : execRlea s = .next t := h
  unfold execRlea at h
  rw [whenClear_zero he] at h
  obtain ⟨hs, h⟩ := checkSlen_passed h ht
  obtain ⟨hw, h⟩ := checkStream_passed h ht
  obtain ⟨hd, -⟩ := checkDst_passed h ht
  exact ⟨he, hs, hw, hd⟩

/-! ## The fault `STRUCT` (60_exceptions.md R256) -/

/-- `t` is what `raise STRUCT` leaves of `s`: `ERR` is set, the command stopped, and `DST` differs at most below `OLEN`,
not at all in a measuring pass. -/
structure StructRaised (s t : State) : Prop where
  regs : t.regs = { s.regs with err := 2 }
  job : t.job = none
  src : t.src = s.src
  pal : t.pal = s.pal
  measure : ∀ p l, s.job = some (.rlbMeasure p l) → t.dst = s.dst
  above : ∀ a, s.regs.olen.toNat ≤ a → t.cell .dst a = s.cell .dst a

theorem raiseStruct_raised (s : State) : ∃ t, raiseStruct s = .next t ∧ StructRaised s t := by
  obtain ⟨d, n, h, hd⟩ := raiseStruct_next s
  refine ⟨_, h, rfl, rfl, rfl, rfl, fun p l hj => ?_, fun a ha => ?_⟩
  · rcases hd with rfl | ⟨⟨_, _, hj' | hj'⟩, -⟩
    · rfl
    · cases hj.symm.trans hj'
    · cases hj.symm.trans hj'
  · rcases hd with rfl | ⟨-, bs, hb, rfl⟩
    · rfl
    · rw [State.cell_of_writeBlock (s := s) (sp := .dst) rfl, if_neg (by omega)]

/-! ## One packet of RLA (42_rle_a_byte_word.md R167, R169, R171 to R173) -/

/-- A count field of zero stands for `ZERO_COUNT`. -/
theorem runLength_toNat (s : State) {w : Nat} (m : BitVec w) :
    s.runLength m.toNat = if m = 0 then s.params.zeroCount else m.toNat := by
  simp [State.runLength, BitVec.toNat_eq]

section Packet

variable {s : State} {p o n len : Nat} (hj : s.job = some (.rla p o))
include hj

theorem rlaPacket_emits (hd : s.regs.olen.toNat ≤ s.params.dstLen) (hp : p + len ≤ s.windowEnd)
    (ho : o + n ≤ s.regs.olen.toNat) (c : Byte) :
    rlaPacket c n len s = .next
      { s with dst := s.dst.writeBlock o (List.replicate n c), job := some (.rla (p + len) (o + n)) } := by
  rw [rlaPacket_answers hj hd, if_neg (by omega)]

/-- A packet that is cut or overshoots faults before its write, whatever room `DST` has. -/
theorem rlaPacket_raises (h : s.windowEnd < p + len ∨ s.regs.olen.toNat < o + n) (c : Byte) :
    rlaPacket c n len s = raiseStruct s := by
  unfold rlaPacket emitRla
  rw [hj]
  by_cases hcut : s.windowEnd < p + len
  · exact if_pos hcut
  · exact (if_neg hcut).trans (if_pos (h.resolve_left hcut))

end Packet

/-! ## A packet cut by the window's end (42_rle_a_byte_word.md R172, 43_rle_b_two_dialect.md R190) -/

theorem State.cells_succ (s : State) (sp : Space) (a n : Nat) :
    s.cells sp a (n + 1) = s.cell sp a :: s.cells sp (a + 1) n := by
  rw [Nat.add_comm, State.cells_append]
  rfl

theorem decodeRla_cut {k : StreamKeys} {b : Byte} {tail : List Byte} (h : (b :: tail).length < rlaLength k b) :
    decode .rla k (b :: tail) = .error .truncated := by
  have hfront := length_decides_front (d := .rla) (rla_front k b tail)
  rwa [if_pos h] at hfront

theorem decodeRlb_cut {k : StreamKeys} {b : Byte} {tail : List Byte} (h : (b :: tail).length < rlbLength k b) :
    decode .rlb k (b :: tail) = .error .truncated := by
  have hfront := length_decides_front (d := .rlb) (rlb_front k b tail)
  rwa [if_pos h] at hfront

/-- The bytes of the window at `p` are fewer than the `len` that the first of them asks for. -/
theorem packetAt_cut {s : State} {p len : Nat} {d : Decoder} (hs : s.regs.slen.toNat ≤ s.params.srcCap)
    (hw : s.windowEnd ≤ s.regs.slen.toNat) (hp : p < s.windowEnd) (hcut : s.windowEnd < p + len)
    (hdec : ∀ tail, (s.cell .src p :: tail).length < len →
      decode d s.regs.keys (s.cell .src p :: tail) = .error .truncated) :
    packetAt d p s = .truncated := by
  obtain ⟨n, hn⟩ : ∃ n, min 4 (s.windowEnd - p) = n + 1 := ⟨min 4 (s.windowEnd - p) - 1, by omega⟩
  rw [packetAt_inside hs hw (Nat.le_of_lt hp), hn, State.cells_succ,
    hdec _ (by rw [List.length_cons, State.cells_length]; omega)]

theorem step_of_truncated {s : State} (hj : s.job ≠ none) (h : streamFetch s = .truncated) :
    step s = raiseStruct s := by
  simp only [step_of_job_ne_none hj, streamStep, h]

/-! ## Bytes outside the window -/

/-- The state with another content of `SRC`. -/
def State.withSrc (m : Memory) (s : State) : State := { s with src := m }

/-- The content `m` has the bytes of `SRC` in the window of `s`. -/
def State.sameWindow (m : Memory) (s : State) : Prop :=
  ∀ a, s.regs.pos.toNat ≤ a → a < s.windowEnd → (s.withSrc m).cell .src a = s.cell .src a

@[simp] theorem withSrc_job (m : Memory) (s : State) : (s.withSrc m).job = s.job := rfl

theorem raise_withSrc (m : Memory) (k : ErrKind) (s : State) :
    raise k (s.withSrc m) = mapNext (State.withSrc m) (raise k s) := rfl

theorem raiseStruct_withSrc (m : Memory) (s : State) :
    raiseStruct (s.withSrc m) = mapNext (State.withSrc m) (raiseStruct s) := by
  simp only [raiseStruct, withSrc_job]
  split <;> rfl

theorem finishJob_withSrc (m : Memory) (s : State) : finishJob (s.withSrc m) = (finishJob s).withSrc m := by
  simp only [finishJob, withSrc_job]
  split <;> rfl

/-- The fetch reads bytes of the window only. -/
theorem packetAt_withSrc {m : Memory} {s : State} (h : s.sameWindow m) {p : Nat} (hp : s.regs.pos.toNat ≤ p)
    (d : Decoder) : packetAt d p (s.withSrc m) = packetAt d p s := by
  have hcells : (s.withSrc m).cells .src p (min 4 (s.windowEnd - p)) = s.cells .src p (min 4 (s.windowEnd - p)) := by
    refine List.map_congr_left fun j hj => h _ (by omega) ?_
    have := List.mem_range.mp hj
    omega
  have hread : (s.withSrc m).readSrc p (min 4 (s.windowEnd - p)) = s.readSrc p (min 4 (s.windowEnd - p)) := by
    unfold State.readSrc
    rw [hcells]
    rfl
  unfold packetAt
  rw [show (s.withSrc m).windowEnd = s.windowEnd from rfl, hread]
  rfl

/-- A run-length command is inside its bounds, and `m` has the bytes of its window. -/
def State.runsInWindow (m : Memory) (s : State) : Prop := s.jobInside ∧ s.job ≠ none ∧ s.sameWindow m

/-- The pointer of a running command is not before the window. -/
theorem pos_le_ptr {s : State} {j : Job} (hin : s.jobInside) (hj : s.job = some j) : s.regs.pos.toNat ≤ j.ptr := by
  unfold State.jobInside at hin
  rw [hj] at hin
  cases j with
  | rla p o | rlbMeasure p l | rlbFill p o =>
    obtain ⟨-, -, -, hpos, -⟩ := hin
    exact hpos

theorem streamFetch_withSrc {m : Memory} {s : State} (h : s.runsInWindow m) :
    streamFetch (s.withSrc m) = streamFetch s := by
  obtain ⟨hin, hjob, hm⟩ := h
  obtain ⟨j, hj⟩ := Option.ne_none_iff_exists'.mp hjob
  have hpacket : ∀ d, packetAt d j.ptr (s.withSrc m) = packetAt d j.ptr s := packetAt_withSrc hm (pos_le_ptr hin hj)
  have hend : (s.withSrc m).windowEnd = s.windowEnd := rfl
  have holen : (s.withSrc m).regs.olen = s.regs.olen := rfl
  unfold streamFetch
  rw [withSrc_job, hj]
  cases j with
  | rla p o | rlbMeasure p l | rlbFill p o =>
    simp only [Job.ptr] at hpacket
    simp only [hend, holen, hpacket]

theorem streamStep_withSrc {m : Memory} {s : State} (h : s.runsInWindow m) :
    streamStep execPacket (s.withSrc m) = mapNext (State.withSrc m) (streamStep execPacket s) :=
  streamStep_commutes (State.withSrc m) s (streamFetch_withSrc h) (raiseStruct_withSrc m s)
    (fun k => raise_withSrc m k s) (finishJob_withSrc m s) rfl rfl rfl rfl rfl (fun _ _ => rfl)

/-- While the command goes on, its window stays where it is. -/
theorem streamStep_keeps_window {m : Memory} {s t : State} (h : s.runsInWindow m)
    (ht : streamStep execPacket s = .next t) (htj : t.job ≠ none) : t.runsInWindow m := by
  obtain ⟨hin, hjob, hm⟩ := h
  obtain ⟨j, hj⟩ := Option.ne_none_iff_exists'.mp hjob
  rcases streamStep_turn hj hin with ⟨-, hs⟩ | hs | ⟨-, hs⟩ | ⟨d, j', hs, hp⟩
  · cases hs.symm.trans ht; exact absurd (finishJob_job s) htj
  · exact absurd (raiseStruct_job (hs.symm.trans ht)) htj
  · cases hs.symm.trans ht; exact absurd rfl htj
  · cases hs.symm.trans ht; exact ⟨hp.inside hj hin, htj, hm⟩

theorem runJob_withSrc {m : Memory} {j : Job} {s : State} (h : s.sameWindow m)
    (hin : State.jobInside { s with job := some j }) :
    runJob j (s.withSrc m) = mapNext (State.withSrc m) (runJob j s) :=
  streamLoop_commutes (State.withSrc m) (State.runsInWindow m) (withSrc_job m) (fun _ => streamStep_withSrc)
    (fun _ _ => streamStep_keeps_window) s.regs.plen.toNat (s := { s with job := some j }) ⟨hin, by simp, h⟩

/-- `mapNext_ite` where each branch may use the outcome of the test. -/
theorem mapNext_ite_of {f : State → State} {c : Prop} [Decidable c] {a b a' b' : Result} (h1 : c → a = mapNext f a')
    (h2 : ¬ c → b = mapNext f b') : (if c then a else b) = mapNext f (if c then a' else b') := by
  split
  · exact h1 ‹_›
  · exact h2 ‹_›

/-- The checks that RLEA, RLEBM and RLEBF share do not look at `SRC`; what comes after may use that they passed. -/
theorem prologue_withSrc {m : Memory} {s : State} {body body' : Result}
    (h : s.regs.err = 0 → s.regs.slen.toNat ≤ s.params.srcCap → s.windowEnd ≤ s.regs.slen.toNat →
      body' = mapNext (State.withSrc m) body) :
    (whenClear (s.withSrc m) <| checkSlen (s.withSrc m) <| checkStream (s.withSrc m) s.regs.plen.toNat body') =
      mapNext (State.withSrc m) (whenClear s <| checkSlen s <| checkStream s s.regs.plen.toNat body) :=
  mapNext_ite_of
    (fun he => mapNext_ite_of (fun _ => rfl) fun hs => mapNext_ite_of (fun _ => rfl) fun hw =>
      h he (Nat.le_of_not_lt hs) (Nat.le_of_not_lt hw))
    (fun _ => rfl)

theorem checkDst_withSrc {m : Memory} {s : State} {n : Nat} {body body' : Result}
    (h : n ≤ s.params.dstLen → body' = mapNext (State.withSrc m) body) :
    checkDst (s.withSrc m) n body' = mapNext (State.withSrc m) (checkDst s n body) :=
  mapNext_ite_of (fun _ => rfl) fun hd => h (Nat.le_of_not_lt hd)

/-- Replacing bytes outside the window commutes with each of the three commands. -/
theorem exec_withSrc {m : Memory} {s : State} (h : s.sameWindow m) {i : Instr}
    (hi : i = .rlea ∨ i = .rlebm ∨ i = .rlebf) : exec i (s.withSrc m) = mapNext (State.withSrc m) (exec i s) := by
  rcases hi with rfl | rfl | rfl
  · exact prologue_withSrc fun he hs hw => checkDst_withSrc fun hd => runJob_withSrc h
      ⟨he, hs, hw, Nat.le_refl _, Nat.le_add_right _ _, hd, Nat.zero_le _⟩
  · exact prologue_withSrc fun he hs hw => runJob_withSrc h
      ⟨he, hs, hw, Nat.le_refl _, Nat.le_add_right _ _, Nat.zero_le _⟩
  · exact prologue_withSrc fun he hs hw => checkDst_withSrc fun hd => runJob_withSrc h
      ⟨he, hs, hw, Nat.le_refl _, Nat.le_add_right _ _, hd, Nat.zero_le _⟩

/-! ## Output put out in pieces -/

/-- The content `d` of `DST` is that of `s` with `bs` at the cells `o ..`. -/
def Emitted (s : State) (d : Memory) (o : Nat) (bs : List Byte) : Prop :=
  ∀ a, State.cell { s with dst := d } .dst a =
    if o ≤ a ∧ a < o + bs.length then bs[a - o]?.getD 0 else s.cell .dst a

theorem emitted_nil (s : State) (o : Nat) : Emitted s s.dst o [] :=
  fun _ => (if_neg (by rw [List.length_nil]; omega)).symm

theorem emitted_writeBlock (s : State) (o : Nat) (bs : List Byte) : Emitted s (s.dst.writeBlock o bs) o bs :=
  State.cell_of_writeBlock rfl

/-- Output that follows output. -/
theorem Emitted.append {s : State} {d e : Memory} {o : Nat} {as bs : List Byte} (h : Emitted s d o as)
    (h' : Emitted { s with dst := d } e (o + as.length) bs) : Emitted s e o (as ++ bs) := by
  intro a
  refine (h' a).trans ?_
  rw [h a, List.length_append]
  by_cases hlow : a < o + as.length
  · rw [if_neg (by omega)]
    by_cases hin : o ≤ a
    · rw [if_pos ⟨hin, hlow⟩, if_pos (by omega), List.getElem?_append_left (by omega)]
    · rw [if_neg (by omega), if_neg (by omega)]
  · by_cases hin : a < o + as.length + bs.length
    · rw [if_pos (by omega), if_pos (by omega), List.getElem?_append_right (by omega), Nat.sub_sub]
    · rw [if_neg (by omega), if_neg (by omega), if_neg (by omega)]

theorem Emitted.holds {s : State} {d : Memory} {o : Nat} {bs : List Byte} (h : Emitted s d o bs) :
    State.holds { s with dst := d } .dst o bs := by
  refine (State.holds_iff _ _ _ _).mpr fun j hj => ?_
  rw [h (o + j), if_pos (by omega), Nat.add_sub_cancel_left]

theorem Emitted.above {s : State} {d : Memory} {o : Nat} {bs : List Byte} (h : Emitted s d o bs) {a : Nat}
    (ha : o + bs.length ≤ a) : State.cell { s with dst := d } .dst a = s.cell .dst a := by
  rw [h a, if_neg (by omega)]

/-! ## RLEA over a packet stream (42_rle_a_byte_word.md R170) -/

/-- From the pointer `p` and the output index `o` RLEA executes the packets `ps`: their bytes stand in the window, their
output fits `OLEN`, and no packet stands behind `OLEN` bytes of output. -/
structure RlaStream (s : State) (p o : Nat) (ps : List Instr) : Prop where
  packets : isStreamOf .rla s ps
  bytes : s.holds .src p (streamBytes s ps)
  window : p + (streamBytes s ps).length ≤ s.windowEnd
  room : o + (streamOutput s ps).length ≤ s.regs.olen.toNat
  needed : ∀ qs rs, ps = qs ++ rs → rs ≠ [] → o + (streamOutput s qs).length < s.regs.olen.toNat

theorem length_streamBytes_cons (s : State) (i : Instr) (ps : List Instr) :
    (streamBytes s (i :: ps)).length = (encode s.regs.keys i).length + (streamBytes s ps).length :=
  List.length_append

theorem length_streamOutput_cons (s : State) (i : Instr) (ps : List Instr) :
    (streamOutput s (i :: ps)).length = (packetOutput s i).length + (streamOutput s ps).length :=
  List.length_append

section Stream

variable {s : State} {p o : Nat} {i : Instr} {ps : List Instr}

/-- What is left of the stream after its first packet. -/
theorem RlaStream.tail (h : RlaStream s p o (i :: ps)) :
    RlaStream s (p + (encode s.regs.keys i).length) (o + (packetOutput s i).length) ps where
  packets j hj := h.packets j (List.mem_cons_of_mem i hj)
  bytes := (holds_append h.bytes).2
  window := by rw [Nat.add_assoc, ← length_streamBytes_cons]; exact h.window
  room := by rw [Nat.add_assoc, ← length_streamOutput_cons]; exact h.room
  needed qs rs hps hrs := by
    rw [Nat.add_assoc, ← length_streamOutput_cons]
    exact h.needed (i :: qs) rs (by rw [hps, List.cons_append]) hrs

theorem RlaStream.head_window (h : RlaStream s p o (i :: ps)) : p + (encode s.regs.keys i).length ≤ s.windowEnd :=
  Nat.le_of_add_right_le h.tail.window

theorem RlaStream.head_room (h : RlaStream s p o (i :: ps)) :
    o + (packetOutput s i).length ≤ s.regs.olen.toNat :=
  Nat.le_of_add_right_le h.tail.room

theorem RlaStream.fetch (h : RlaStream s p o (i :: ps)) (hr : s.RleaReady) (d : Memory) :
    streamFetch (s.atRla d p o) = .packet i := by
  obtain ⟨hrla, hwf⟩ := h.packets i List.mem_cons_self
  have hpacket : packetAt .rla p (s.atRla d p o) = .packet i :=
    packetAt_encoded (fun rest => hrla ▸ decode_encode _ hwf rest) hr.slen hr.window (holds_append h.bytes).1
      h.head_window
  have ho : o < s.regs.olen.toNat := h.needed [] (i :: ps) rfl (List.cons_ne_nil i ps)
  have hp : p < s.windowEnd := by
    have := h.head_window
    have := (encode_length_bounds s.regs.keys i).1
    omega
  exact (if_neg (Nat.not_le.mpr ho)).trans ((if_neg (Nat.not_le.mpr hp)).trans hpacket)

/-- A turn of the loop executes the first packet. -/
theorem RlaStream.turn (h : RlaStream s p o (i :: ps)) (hr : s.RleaReady) (d : Memory) :
    streamStep execPacket (s.atRla d p o) = .next (s.atRla (d.writeBlock o (packetOutput s i))
      (p + (encode s.regs.keys i).length) (o + (packetOutput s i).length)) := by
  obtain ⟨c, n, hout, hexec⟩ := rla_packet_form (s.atRla d p o) (h.packets i List.mem_cons_self).1
  have hrun : packetOutput s i = List.replicate n c := hout
  have hroom := h.head_room
  rw [hrun, List.length_replicate] at hroom ⊢
  rw [streamStep_of_packet (h.fetch hr d), hexec]
  exact rlaPacket_emits (s := s.atRla d p o) rfl hr.room h.head_window hroom c

end Stream

/-- The loop executes the stream, one turn for each packet. -/
theorem RlaStream.loop {s : State} (hr : s.RleaReady) (k : Nat) {ps : List Instr} {p o : Nat}
    (h : RlaStream s p o ps) (d : Memory) :
    ∃ e, Emitted { s with dst := d } e o (streamOutput s ps) ∧ streamLoop (ps.length + k) (s.atRla d p o) =
      streamLoop k (s.atRla e (p + (streamBytes s ps).length) (o + (streamOutput s ps).length)) := by
  induction ps generalizing p o d with
  | nil => exact ⟨d, emitted_nil _ o, by rw [List.length_nil, Nat.zero_add]; rfl⟩
  | cons i ps ih =>
    obtain ⟨e, hout, hloop⟩ := ih h.tail (d.writeBlock o (packetOutput s i))
    refine ⟨e, (emitted_writeBlock { s with dst := d } o _).append hout, ?_⟩
    rw [List.length_cons, Nat.add_right_comm, streamLoop_turn (h.turn hr d) (Option.some_ne_none _), hloop,
      length_streamBytes_cons, length_streamOutput_cons, Nat.add_assoc, Nat.add_assoc]

/-- A packet has at least one byte. -/
theorem length_le_streamBytes (s : State) (ps : List Instr) : ps.length ≤ (streamBytes s ps).length := by
  induction ps with
  | nil => exact Nat.zero_le _
  | cons i ps ih =>
    have := (encode_length_bounds s.regs.keys i).1
    rw [length_streamBytes_cons, List.length_cons]
    omega

/-- RLEA past its checks executes the stream its window starts with, and goes on from there. -/
theorem State.RleaReady.reads {s : State} {ps : List Instr} (hr : s.RleaReady)
    (h : RlaStream s s.regs.pos.toNat 0 ps) :
    ∃ d k, Emitted s d 0 (streamOutput s ps) ∧ exec .rlea s =
      streamLoop k (s.atRla d (s.regs.pos.toNat + (streamBytes s ps).length) (streamOutput s ps).length) := by
  have hturns : ps.length ≤ s.regs.plen.toNat := by
    have := h.window
    have := length_le_streamBytes s ps
    simp only [State.windowEnd] at *
    omega
  obtain ⟨k, hk⟩ := Nat.exists_eq_add_of_le hturns
  obtain ⟨d, hout, hloop⟩ := h.loop hr k s.dst
  exact ⟨d, k, hout, by rw [hr.exec_eq, hk, hloop, Nat.zero_add]⟩

/-- With `OLEN` bytes put out RLEA completes. -/
theorem streamLoop_rla_complete {s : State} {o : Nat} (ho : s.regs.olen.toNat ≤ o) (k : Nat) (d : Memory) (p : Nat) :
    streamLoop k (s.atRla d p o) = .next (finishJob (s.atRla d p o)) := by
  have hfetch : streamFetch (s.atRla d p o) = .finish := if_pos ho
  exact streamLoop_stop (by simp only [streamStep, hfetch]) (finishJob_job _)

/-- With fewer, RLEA raises `STRUCT` at the end of its window. -/
theorem streamLoop_rla_exhausted {s : State} {p o : Nat} (ho : o < s.regs.olen.toNat) (hp : s.windowEnd ≤ p) (k : Nat)
    (d : Memory) : ∃ t, streamLoop k (s.atRla d p o) = .next t ∧ StructRaised (s.atRla d p o) t := by
  have hfetch : streamFetch (s.atRla d p o) = .exhausted :=
    (if_neg (Nat.not_le.mpr ho)).trans (if_pos hp)
  obtain ⟨t, ht, hr⟩ := raiseStruct_raised (s.atRla d p o)
  exact ⟨t, streamLoop_stop (by simp only [streamStep, hfetch, ht]) hr.job, hr⟩

theorem streamOutput_append (s : State) (qs rs : List Instr) :
    streamOutput s (qs ++ rs) = streamOutput s qs ++ streamOutput s rs := List.flatMap_append

/-- Where no run is empty every packet is needed for the output. -/
theorem streamOutput_length_lt {s : State} {ps qs rs : List Instr} (hne : ∀ i ∈ ps, packetOutput s i ≠ [])
    (hps : ps = qs ++ rs) (hrs : rs ≠ []) : (streamOutput s qs).length < (streamOutput s ps).length := by
  obtain ⟨i, rs, rfl⟩ := List.exists_cons_of_ne_nil hrs
  have := List.length_pos_iff.mpr (hne i (by simp [hps]))
  rw [hps, streamOutput_append, List.length_append, length_streamOutput_cons]
  omega

/-- RLEA completes with `OCNT` = `OLEN`. -/
theorem Done.rlea_ocnt {s t : State} (h : Done s .rlea t) : t.regs.ocnt = s.regs.olen := by
  cases h with
  | output _ _ _ _ _ _ ho => simp [ho rfl]
  | integer hn => cases hn
  | scale hi => rcases hi with hi | hi <;> cases hi

/-! ## The statements -/

/-- Settles O31: the loop executes the stream packet by packet, and then `OLEN` bytes are out. -/
theorem rleaDecodesPacketStreams : Obligations.RleaDecodesPacketStreams := by
  unfold Obligations.RleaDecodesPacketStreams
  intro s ps he hs hw hd hstream hbytes hlen hout hneeded
  have hr : s.RleaReady := ⟨he, hs, hw, hd⟩
  obtain ⟨d, k, hemitted, hexec⟩ := hr.reads (ps := ps) ⟨hstream, hbytes, Nat.add_le_add_left hlen _, by omega,
    fun qs rs hps hrs => by rw [Nat.zero_add]; exact hneeded qs rs hps hrs⟩
  rw [streamLoop_rla_complete hout.ge] at hexec
  refine ⟨_, hexec, hemitted.holds, fun a ha => hemitted.above (by omega), ?_⟩
  simp [finishJob, State.atRla, hout]

/-- Settles O32: without an empty run every packet is needed, so the whole of `P` is the stream of O31. -/
theorem rleaInvertsTheEncoder : Obligations.RleaInvertsTheEncoder := by
  unfold Obligations.RleaInvertsTheEncoder
  intro s ps he hs hw hd hstream hne hbytes hplen holen
  obtain ⟨t, hexec, hholds, -, ht⟩ := rleaDecodesPacketStreams s ps he hs hw hd hstream hbytes hplen.ge holen.symm
    fun qs rs hps hrs => holen ▸ streamOutput_length_lt hne hps hrs
  have hfits : s.regs.pos.toNat + (streamBytes s ps).length < 2 ^ 32 := by
    have := s.regs.slen.isLt
    simp only [State.windowEnd] at hw
    omega
  refine ⟨t, hexec, ?_, hholds, ?_, ?_⟩
  · rw [ht]; exact he
  · rw [ht]; exact holen
  · rw [ht]; exact (BitVec.toNat_ofNat _ _).trans (Nat.mod_eq_of_lt hfits)

/-- Settles O28: the three packets are one emission with their own run and length. -/
theorem rlaPacketsEmitTheirRun : Obligations.RlaPacketsEmitTheirRun := by
  unfold Obligations.RlaPacketsEmitTheirRun
  intro s p o hj hd i c n len hi hp ho
  have hexec : exec i s = rlaPacket c n len s := by
    rcases hi with ⟨rfl, rfl, rfl⟩ | ⟨m, rfl, rfl, rfl⟩ | ⟨m, rfl, rfl, rfl⟩
    · rfl
    · rw [← runLength_toNat]; rfl
    · rw [← runLength_toNat]; rfl
  exact ⟨_, hexec.trans (rlaPacket_emits hj hd hp ho c), rfl, cell_of_run rfl⟩

/-- Settles O29: both tests stand before the write, and the fault touches `DST` below `OLEN` only. -/
theorem rlaPacketsRaiseStruct : Obligations.RlaPacketsRaiseStruct := by
  unfold Obligations.RlaPacketsRaiseStruct
  intro s p o hj i n len hi hbad
  obtain ⟨c, hexec⟩ : ∃ c, exec i s = rlaPacket c n len s := by
    rcases hi with ⟨c, rfl, rfl, rfl⟩ | ⟨c, m, rfl, rfl, rfl⟩ | ⟨c, m, rfl, rfl, rfl⟩
    all_goals exact ⟨c, rfl⟩
  obtain ⟨t, ht, hr⟩ := raiseStruct_raised s
  exact ⟨t, (hexec.trans (rlaPacket_raises hj hbad c)).trans ht, hr.regs, hr.job, hr.src, hr.pal, hr.above⟩

/-- Settles O33: a completed RLEA is one that put out `OLEN` bytes; a stream that makes fewer leads to the end of the
window. -/
theorem rleaCompletesWithOlenBytes : Obligations.RleaCompletesWithOlenBytes := by
  unfold Obligations.RleaCompletesWithOlenBytes
  refine ⟨fun s t he h ht => ?_, fun s ps he hs hw hd hstream hbytes hlen hout => ?_⟩
  · have hdone := (command_leaves rfl h).done_of_err he ht
    obtain ⟨-, -, hpos⟩ := hdone.of_writesDst rfl
    obtain ⟨hlo, hhi⟩ : s.regs.pos.toNat ≤ t.regs.pos.toNat ∧ t.regs.pos.toNat ≤ s.windowEnd := by
      simpa [PosAfter] using hpos
    refine ⟨hdone.rlea_ocnt, hlo, hhi, fun hzero => ?_⟩
    obtain ⟨-, hs, hw, hd⟩ := rlea_ready he h ht
    obtain ⟨u, hu, -, -, hueq⟩ := rleaDecodesPacketStreams s [] he hs hw hd (by simp [isStreamOf]) rfl
      (Nat.zero_le _) (by rw [hzero]; rfl) (fun qs rs hps hrs => absurd (List.append_eq_nil_iff.mp hps.symm).2 hrs)
    cases hu.symm.trans h
    rw [hueq]
    simp [streamBytes]
  · have hr : s.RleaReady := ⟨he, hs, hw, hd⟩
    obtain ⟨d, k, -, hexec⟩ := hr.reads (ps := ps) ⟨hstream, hbytes, Nat.add_le_add_left hlen.le _, by omega,
      fun qs rs hps _ => by
        rw [hps, streamOutput_append, List.length_append] at hout
        omega⟩
    obtain ⟨t, ht, hstruct⟩ := streamLoop_rla_exhausted hout
      (show s.windowEnd ≤ s.regs.pos.toNat + (streamBytes s ps).length from Nat.add_le_add_left hlen.ge _) k d
    exact ⟨t, hexec.trans ht, hstruct.regs⟩

/-- Settles O34: the first byte fixes the packet's length, and the fetch finds fewer bytes in the window. -/
theorem truncatedPacketRaisesStruct : Obligations.TruncatedPacketRaisesStruct := by
  unfold Obligations.TruncatedPacketRaisesStruct
  intro s p n hs hw hp b0 cutA cutB hcut
  have packetA : cutA → packetAt .rla p s = .truncated := by
    intro h
    refine packetAt_cut (len := rlaLength s.regs.keys b0) hs hw hp ?_ fun _ => decodeRla_cut
    rcases h with ⟨hkey, hlt⟩ | ⟨hne, hkey, hlt⟩
    · have hlen : rlaLength s.regs.keys b0 = 3 := if_pos hkey
      rwa [hlen]
    · have hlen : rlaLength s.regs.keys b0 = 4 := (if_neg hne).trans (if_pos hkey)
      rwa [hlen]
  have packetB : cutB → packetAt .rlb p s = .truncated := by
    rintro ⟨hesc, hlt⟩
    refine packetAt_cut (len := rlbLength s.regs.keys b0) hs hw hp ?_ fun _ => decodeRlb_cut
    have hlen : rlbLength s.regs.keys b0 = 3 := if_pos hesc
    rwa [hlen]
  obtain ⟨hjob, hfetch⟩ : s.job ≠ none ∧ streamFetch s = .truncated := by
    rcases hcut with ⟨hj, ho, h⟩ | ⟨hj, h⟩ | ⟨hj, h⟩
    · simp [streamFetch, hj, Nat.not_le.mpr ho, Nat.not_le.mpr hp, packetA h]
    · simp [streamFetch, hj, Nat.not_le.mpr hp, packetB h]
    · simp [streamFetch, hj, Nat.not_le.mpr hp, packetB h]
  obtain ⟨t, ht, hr⟩ := raiseStruct_raised s
  exact ⟨t, (step_of_truncated hjob hfetch).trans ht, hr.regs, hr.job, hr.src, hr.pal, hr.measure p n, hr.above⟩

/-- Settles O36: replacing the bytes outside the window commutes with the command. -/
theorem rleCommandsReadOnlyTheWindow : Obligations.RleCommandsReadOnlyTheWindow := by
  unfold Obligations.RleCommandsReadOnlyTheWindow
  intro s t m i hi hm ht
  exact (exec_withSrc hm hi).trans (congrArg (mapNext (State.withSrc m)) ht)

/-- Settles O18: the three commands stand behind the prologue of the binary reader for `PLEN` bytes, and the two that
write `DST` check the room for `OLEN` after it. -/
theorem streamCommandPrologueFaults : Obligations.StreamCommandPrologueFaults := by
  unfold Obligations.StreamCommandPrologueFaults
  intro s he hj i hi
  rcases hi with rfl | rfl | rfl
  · exact ⟨prologue_illegal he hj, prologue_read he hj, fun hs hp _ => prologue_resource he hj hs hp⟩
  · exact ⟨prologue_illegal he hj, prologue_read he hj, fun _ _ hi => absurd rfl hi⟩
  · exact ⟨prologue_illegal he hj, prologue_read he hj, fun hs hp _ => prologue_resource he hj hs hp⟩

end Sys2Proof.Machine

/-! PROOFS. RLE decoder B (43_rle_b_two_dialect.md). Both passes turn the loop of R189 over the packets of the window; a
window on which pass 1 completes is a sequence of packets, and pass 2 reads the same sequence (R193). -/

namespace Sys2Proof.Machine

/-! ## One packet of RLB (43_rle_b_two_dialect.md R186, R187) -/

/-- `i` is a packet of RLB with value `v`, run length `n` and `len` bytes. -/
def RlbPacketOf (s : State) (i : Instr) (v : Byte) (n len : Nat) : Prop :=
  i = .lit v ∧ n = 1 ∧ len = 1 ∨ ∃ m, i = .runb v m ∧ n = s.runLength m.toNat ∧ len = 3

theorem RlbPacketOf.exec_eq {s : State} {i : Instr} {v : Byte} {n len : Nat} (h : RlbPacketOf s i v n len) :
    exec i s = rlbPacket v n len s := by
  obtain ⟨rfl, rfl, rfl⟩ | ⟨m, rfl, rfl, rfl⟩ := h
  · rfl
  · rfl

/-! ## The prologue (43_rle_b_two_dialect.md R188) -/

/-- The registers let RLEBM past its checks, and RLEBF past those it shares with RLEBM. -/
structure State.RlbReady (s : State) : Prop where
  clear : s.regs.err = 0
  slen : s.regs.slen.toNat ≤ s.params.srcCap
  window : s.windowEnd ≤ s.regs.slen.toNat

/-- The state at the head of the decode loop: `DST` holds `d` and the job is `j`. -/
def State.running (s : State) (d : Memory) (j : Job) : State := { s with dst := d, job := some j }

theorem State.RlbReady.rlebm_eq {s : State} (h : s.RlbReady) :
    exec .rlebm s = streamLoop s.regs.plen.toNat (s.running s.dst (.rlbMeasure s.regs.pos.toNat 0)) :=
  rlebm_runs h.clear h.slen h.window

theorem State.RlbReady.rlebf_eq {s : State} (h : s.RlbReady) (hd : s.regs.olen.toNat ≤ s.params.dstLen) :
    exec .rlebf s = streamLoop s.regs.plen.toNat (s.running s.dst (.rlbFill s.regs.pos.toNat 0)) :=
  rlebf_runs h.clear h.slen h.window hd

/-- RLEBM that completes was past its checks. -/
theorem rlebm_ready {s t : State} (he : s.regs.err = 0) (h : exec .rlebm s = .next t) (ht : t.regs.err = 0) :
    s.RlbReady := by
  replace h : execRlebm s = .next t := h
  unfold execRlebm at h
  rw [whenClear_zero he] at h
  obtain ⟨hs, h⟩ := checkSlen_passed h ht
  obtain ⟨hw, -⟩ := checkStream_passed h ht
  exact ⟨he, hs, hw⟩

/-! ## The packets of a window -/

/-- The packet `i` of RLB stands at `p`, inside the window. -/
structure State.RlbPacketAt (s : State) (p : Nat) (i : Instr) : Prop where
  decoder : i.decoder = .rlb
  wellFormed : i.wellFormed s.regs.keys = true
  bytes : s.holds .src p (encode s.regs.keys i)
  window : p + (encode s.regs.keys i).length ≤ s.windowEnd

/-- From `p` to its end the window is the sequence of packets `ps`. -/
inductive State.RlbStream (s : State) : Nat → List Instr → Prop where
  | nil : s.RlbStream s.windowEnd []
  | cons {p : Nat} {i : Instr} {ps : List Instr} (head : s.RlbPacketAt p i)
      (tail : s.RlbStream (p + (encode s.regs.keys i).length) ps) : s.RlbStream p (i :: ps)

theorem State.RlbStream.of_bytes {s : State} {ps : List Instr} {p : Nat} (hps : isStreamOf .rlb s ps)
    (hbytes : s.holds .src p (streamBytes s ps)) (hend : p + (streamBytes s ps).length = s.windowEnd) :
    s.RlbStream p ps := by
  induction ps generalizing p with
  | nil =>
    obtain rfl : p = s.windowEnd := hend
    exact .nil
  | cons i ps ih =>
    obtain ⟨hrlb, hwf⟩ := hps i List.mem_cons_self
    obtain ⟨hhead, htail⟩ := holds_append hbytes
    rw [length_streamBytes_cons, ← Nat.add_assoc] at hend
    exact .cons ⟨hrlb, hwf, hhead, hend ▸ Nat.le_add_right _ _⟩
      (ih (fun j hj => hps j (List.mem_cons_of_mem i hj)) htail hend)

/-- A packet has at least one byte. -/
theorem State.RlbStream.add_length_le {s : State} {p : Nat} {ps : List Instr} (h : s.RlbStream p ps) :
    p + ps.length ≤ s.windowEnd := by
  induction h with
  | nil => exact Nat.le_refl _
  | @cons p i ps _ _ ih =>
    have := (encode_length_bounds s.regs.keys i).1
    rw [List.length_cons]
    omega

/-- `PLEN` turns are enough for the whole window. -/
theorem State.RlbStream.length_le_plen {s : State} {ps : List Instr} (h : s.RlbStream s.regs.pos.toNat ps) :
    ps.length ≤ s.regs.plen.toNat :=
  Nat.le_of_add_le_add_left h.add_length_le

/-! ## The fetch (43_rle_b_two_dialect.md R189, R190) -/

/-- Both passes have the same loop condition and read their packets alike. -/
theorem streamFetch_rlb (s : State) (d : Memory) {j : Job} (hj : j.decoder = .rlb) :
    streamFetch (s.running d j) = if s.windowEnd ≤ j.ptr then .finish else packetAt .rlb j.ptr s := by
  cases j with
  | rla p o => cases hj
  | rlbMeasure p l | rlbFill p o => rfl

/-- At the end of the window both passes complete. -/
theorem streamLoop_rlb_complete {s : State} {j : Job} (hj : j.decoder = .rlb) (hp : j.ptr = s.windowEnd) (k : Nat)
    (d : Memory) : streamLoop k (s.running d j) = .next (finishJob (s.running d j)) := by
  have hfetch : streamFetch (s.running d j) = .finish := by rw [streamFetch_rlb s d hj, if_pos hp.ge]
  exact streamLoop_stop (by simp only [streamStep, hfetch]) (finishJob_job _)

/-- At a packet that is cut both passes raise `STRUCT`. -/
theorem streamLoop_rlb_cut {s : State} {j : Job} (hj : j.decoder = .rlb) (hp : j.ptr < s.windowEnd)
    (hcut : packetAt .rlb j.ptr s = .truncated) (k : Nat) (d : Memory) :
    ∃ t, streamLoop k (s.running d j) = .next t ∧ t.regs = { s.regs with err := 2 } := by
  have hfetch : streamFetch (s.running d j) = .truncated := by
    rw [streamFetch_rlb s d hj, if_neg (Nat.not_le.mpr hp), hcut]
  obtain ⟨t, ht, hraised⟩ := raiseStruct_raised (s.running d j)
  exact ⟨t, streamLoop_stop (by simp only [streamStep, hfetch, ht]) hraised.job, hraised.regs⟩

/-- Inside the window the fetch finds a whole packet or one that is cut. -/
theorem State.RlbReady.packet_or_cut {s : State} (hr : s.RlbReady) {p : Nat} (hp : p < s.windowEnd) :
    packetAt .rlb p s = .truncated ∨ ∃ i, s.RlbPacketAt p i := by
  rw [packetAt_inside hr.slen hr.window (Nat.le_of_lt hp)]
  cases hdec : decode .rlb s.regs.keys (s.cells .src p (min 4 (s.windowEnd - p))) with
  | error e => exact .inl rfl
  | ok found =>
    obtain ⟨i, rest⟩ := found
    obtain ⟨hbytes, hwf, hrlb⟩ := encode_of_decode hdec
    have hholds : s.holds .src p (encode s.regs.keys i ++ rest) := by
      rw [← hbytes, State.holds, State.cells_length]
    have hlen := congrArg List.length hbytes
    rw [State.cells_length, List.length_append] at hlen
    exact .inr ⟨i, hrlb, hwf, (holds_append hholds).1, by omega⟩

/-! ## One turn of the loop -/

section Turn

variable {s : State} {p : Nat} {i : Instr} (hr : s.RlbReady) (h : s.RlbPacketAt p i)
include hr h

/-- In either pass a turn executes the packet at the pointer. -/
theorem State.RlbPacketAt.turn (d : Memory) {j : Job} (hj : j.decoder = .rlb) (hp : j.ptr = p) :
    ∃ v n, packetOutput s i = List.replicate n v ∧ streamStep execPacket (s.running d j) =
      rlbPacket v n (encode s.regs.keys i).length (s.running d j) := by
  obtain ⟨v, n, hout, hexec⟩ := rlb_packet_form (s.running d j) h.decoder
  refine ⟨v, n, hout, (streamStep_of_packet ?_).trans hexec⟩
  have hin := h.window
  have hlen := (encode_length_bounds s.regs.keys i).1
  rw [streamFetch_rlb s d hj, hp, if_neg (by omega)]
  exact packetAt_encoded (fun rest => h.decoder ▸ decode_encode _ h.wellFormed rest) hr.slen hr.window h.bytes hin

/-- In pass 1 a turn adds the packet's output to the running length, if it fits. -/
theorem State.RlbPacketAt.measure_turn (l : Nat) :
    streamStep execPacket (s.running s.dst (.rlbMeasure p l)) =
      if 2 ^ 32 - 1 < l + (packetOutput s i).length then raise .resource s
      else .next (s.running s.dst
        (.rlbMeasure (p + (encode s.regs.keys i).length) (l + (packetOutput s i).length))) := by
  obtain ⟨v, n, hout, hturn⟩ := h.turn hr s.dst (j := .rlbMeasure p l) rfl rfl
  rw [hturn, hout, List.length_replicate, rlbPacket_measures (s := s.running s.dst (.rlbMeasure p l)) rfl]
  exact if_neg (Nat.not_lt.mpr h.window)

/-- In pass 2 a turn writes the packet's output at the output index, if it fits. -/
theorem State.RlbPacketAt.fill_turn (hd : s.regs.olen.toNat ≤ s.params.dstLen) (d : Memory) (o : Nat) :
    streamStep execPacket (s.running d (.rlbFill p o)) =
      if s.regs.olen.toNat < o + (packetOutput s i).length then raiseStruct (s.running d (.rlbFill p o))
      else .next (s.running (d.writeBlock o (packetOutput s i))
        (.rlbFill (p + (encode s.regs.keys i).length) (o + (packetOutput s i).length))) := by
  obtain ⟨v, n, hout, hturn⟩ := h.turn hr d (j := .rlbFill p o) rfl rfl
  have hin : ¬ (s.running d (.rlbFill p o)).windowEnd < p + (encode s.regs.keys i).length := Nat.not_lt.mpr h.window
  rw [hturn, hout, List.length_replicate, rlbPacket_fills (s := s.running d (.rlbFill p o)) rfl hd]
  simp only [hin, false_or]
  rfl

end Turn

/-! ## The loop over the window (43_rle_b_two_dialect.md R191, R192) -/

section Loop

variable {s : State} {p : Nat} {ps : List Instr} (hr : s.RlbReady) (h : s.RlbStream p ps)
include hr h

/-- Pass 1 completes with the length of the whole output, unless that length does not fit. -/
theorem State.RlbStream.measure_loop {l k : Nat} (hl : l ≤ 2 ^ 32 - 1) (hk : ps.length ≤ k) :
    streamLoop k (s.running s.dst (.rlbMeasure p l)) =
      if 2 ^ 32 - 1 < l + (streamOutput s ps).length then raise .resource s
      else .next (finishJob (s.running s.dst (.rlbMeasure s.windowEnd (l + (streamOutput s ps).length)))) := by
  induction h generalizing l k with
  | nil =>
    have hfits : ¬ 2 ^ 32 - 1 < l + (streamOutput s []).length := Nat.not_lt.mpr hl
    rw [if_neg hfits]
    exact streamLoop_rlb_complete (j := .rlbMeasure s.windowEnd l) rfl rfl k s.dst
  | @cons p i ps hi _ ih =>
    rw [length_streamOutput_cons, ← Nat.add_assoc]
    have hturn := hi.measure_turn hr l
    by_cases hover : 2 ^ 32 - 1 < l + (packetOutput s i).length
    · rw [if_pos hover] at hturn
      rw [if_pos (by omega)]
      exact streamLoop_stop hturn rfl
    · rw [if_neg hover] at hturn
      obtain ⟨k, rfl⟩ := Nat.exists_eq_add_of_le' (Nat.le_of_add_left_le hk)
      rw [streamLoop_turn hturn (Option.some_ne_none _)]
      exact ih (Nat.le_of_not_lt hover) (Nat.le_of_succ_le_succ hk)

variable (hd : s.regs.olen.toNat ≤ s.params.dstLen)
include hd

/-- Pass 2 completes with the whole output in `DST`, if it fits `OLEN`. -/
theorem State.RlbStream.fill_loop {o k : Nat} (hk : ps.length ≤ k) (d : Memory)
    (hout : o + (streamOutput s ps).length ≤ s.regs.olen.toNat) :
    ∃ e, Emitted { s with dst := d } e o (streamOutput s ps) ∧ streamLoop k (s.running d (.rlbFill p o)) =
      .next (finishJob (s.running e (.rlbFill s.windowEnd (o + (streamOutput s ps).length)))) := by
  induction h generalizing o k d with
  | nil => exact ⟨d, emitted_nil _ o, streamLoop_rlb_complete (j := .rlbFill s.windowEnd o) rfl rfl k d⟩
  | @cons p i ps hi _ ih =>
    rw [length_streamOutput_cons, ← Nat.add_assoc] at hout ⊢
    have hturn := hi.fill_turn hr hd d o
    rw [if_neg (by omega)] at hturn
    obtain ⟨k, rfl⟩ := Nat.exists_eq_add_of_le' (Nat.le_of_add_left_le hk)
    obtain ⟨e, hemitted, hloop⟩ := ih (Nat.le_of_succ_le_succ hk) (d.writeBlock o (packetOutput s i)) hout
    exact ⟨e, (emitted_writeBlock { s with dst := d } o _).append hemitted,
      (streamLoop_turn hturn (Option.some_ne_none _)).trans hloop⟩

/-- Pass 2 raises `STRUCT` at the first packet whose output passes `OLEN`. -/
theorem State.RlbStream.fill_loop_overflow {o k : Nat} (ho : o ≤ s.regs.olen.toNat) (hk : ps.length ≤ k) (d : Memory)
    (hout : s.regs.olen.toNat < o + (streamOutput s ps).length) :
    ∃ t, streamLoop k (s.running d (.rlbFill p o)) = .next t ∧ t.regs = { s.regs with err := 2 } := by
  induction h generalizing o k d with
  | nil => exact absurd ho (Nat.not_le.mpr hout)
  | @cons p i ps hi _ ih =>
    rw [length_streamOutput_cons, ← Nat.add_assoc] at hout
    have hturn := hi.fill_turn hr hd d o
    by_cases hover : s.regs.olen.toNat < o + (packetOutput s i).length
    · rw [if_pos hover] at hturn
      obtain ⟨t, ht, hraised⟩ := raiseStruct_raised (s.running d (.rlbFill p o))
      exact ⟨t, streamLoop_stop (hturn.trans ht) hraised.job, hraised.regs⟩
    · rw [if_neg hover] at hturn
      obtain ⟨k, rfl⟩ := Nat.exists_eq_add_of_le' (Nat.le_of_add_left_le hk)
      rw [streamLoop_turn hturn (Option.some_ne_none _)]
      exact ih (Nat.le_of_not_lt hover) (Nat.le_of_succ_le_succ hk) _ hout

end Loop

/-! ## The commands over the window -/

section Commands

variable {s : State} {ps : List Instr} (hr : s.RlbReady) (h : s.RlbStream s.regs.pos.toNat ps)
include hr h

theorem State.RlbStream.rlebm_eq :
    exec .rlebm s =
      if 2 ^ 32 - 1 < (streamOutput s ps).length then raise .resource s
      else .next (finishJob (s.running s.dst (.rlbMeasure s.windowEnd (streamOutput s ps).length))) := by
  rw [hr.rlebm_eq, h.measure_loop hr (Nat.zero_le _) h.length_le_plen, Nat.zero_add]

theorem State.RlbStream.rlebf_completes (hd : s.regs.olen.toNat ≤ s.params.dstLen)
    (hout : (streamOutput s ps).length ≤ s.regs.olen.toNat) :
    ∃ e, Emitted s e 0 (streamOutput s ps) ∧
      exec .rlebf s = .next (finishJob (s.running e (.rlbFill s.windowEnd (streamOutput s ps).length))) := by
  rw [hr.rlebf_eq hd]
  rw [← Nat.zero_add (streamOutput s ps).length] at hout ⊢
  exact h.fill_loop hr hd h.length_le_plen s.dst hout

theorem State.RlbStream.rlebf_overflows (hd : s.regs.olen.toNat ≤ s.params.dstLen)
    (hout : s.regs.olen.toNat < (streamOutput s ps).length) :
    ∃ t, exec .rlebf s = .next t ∧ t.regs = { s.regs with err := 2 } := by
  rw [hr.rlebf_eq hd]
  exact h.fill_loop_overflow hr hd (Nat.zero_le _) h.length_le_plen s.dst (by rwa [Nat.zero_add])

end Commands

/-! ## Measure equals fill (43_rle_b_two_dialect.md R193) -/

/-- Where pass 1 completes, what it went over is a sequence of packets: it faults at a packet that is cut. -/
theorem exists_rlbStream_of_measured {s t : State} (hr : s.RlbReady) (k : Nat) {p l : Nat} (hp : p ≤ s.windowEnd)
    (hk : s.windowEnd ≤ p + k) (h : streamLoop k (s.running s.dst (.rlbMeasure p l)) = .next t)
    (ht : t.regs.err = 0) : ∃ ps, s.RlbStream p ps := by
  induction k generalizing p l with
  | zero =>
    obtain rfl : p = s.windowEnd := Nat.le_antisymm hp hk
    exact ⟨[], .nil⟩
  | succ k ih =>
    obtain rfl | hlt := Nat.eq_or_lt_of_le hp
    · exact ⟨[], .nil⟩
    · rcases hr.packet_or_cut hlt with hcut | ⟨i, hi⟩
      · obtain ⟨u, hu, hregs⟩ := streamLoop_rlb_cut (j := .rlbMeasure p l) rfl hlt hcut (k + 1) s.dst
        cases hu.symm.trans h
        rw [hregs] at ht
        exact absurd ht (ErrKind.code_ne_zero .struct)
      · have hturn := hi.measure_turn hr l
        by_cases hover : 2 ^ 32 - 1 < l + (packetOutput s i).length
        · rw [if_pos hover] at hturn
          cases (streamLoop_stop hturn rfl).symm.trans h
          exact absurd ht (ErrKind.code_ne_zero .resource)
        · rw [if_neg hover] at hturn
          rw [streamLoop_turn hturn (Option.some_ne_none _)] at h
          have hlen := (encode_length_bounds s.regs.keys i).1
          obtain ⟨ps, hps⟩ := ih hi.window (by omega) h
          exact ⟨i :: ps, .cons hi hps⟩

/-- `u` has the window of `s` and what RLB reads it by (43_rle_b_two_dialect.md R185), whatever else it holds. -/
structure SameRlbInput (s u : State) : Prop where
  params : u.params = s.params
  pos : u.regs.pos = s.regs.pos
  plen : u.regs.plen = s.regs.plen
  esc : u.regs.esc = s.regs.esc
  order : u.regs.rlectl = s.regs.rlectl
  bytes : ∀ a, s.regs.pos.toNat ≤ a → a < s.windowEnd → u.cell .src a = s.cell .src a

section SameInput

variable {s u : State} (h : SameRlbInput s u)
include h

theorem SameRlbInput.windowEnd_eq : u.windowEnd = s.windowEnd := by
  simp only [State.windowEnd, h.pos, h.plen]

/-- The packets of RLB are written with `ESC` and `ORDER` alone. -/
theorem SameRlbInput.encode_wellFormed_eq {i : Instr} (hi : i.decoder = .rlb) :
    encode u.regs.keys i = encode s.regs.keys i ∧ i.wellFormed u.regs.keys = i.wellFormed s.regs.keys := by
  have hkeys : u.regs.keys = { s.regs.keys with key1 := u.regs.key1, key2 := u.regs.key2 } := by
    simp only [Regs.keys, h.esc, h.order]
  rw [hkeys]
  cases i
  case runb | lit => exact ⟨rfl, rfl⟩
  all_goals cases hi

theorem SameRlbInput.packetOutput_eq : packetOutput u = packetOutput s := by
  funext i
  have hrun : ∀ n, u.runLength n = s.runLength n := fun n => by simp only [State.runLength, h.params]
  cases i
  case run8 | run16 | runb => simp only [packetOutput, hrun]
  all_goals rfl

theorem SameRlbInput.streamOutput_eq (ps : List Instr) : streamOutput u ps = streamOutput s ps := by
  simp only [streamOutput, h.packetOutput_eq]

theorem SameRlbInput.packet {p : Nat} {i : Instr} (hp : s.regs.pos.toNat ≤ p) (hi : s.RlbPacketAt p i) :
    u.RlbPacketAt p i := by
  obtain ⟨hrlb, hwf, hbytes, hin⟩ := hi
  obtain ⟨hencode, hwell⟩ := h.encode_wellFormed_eq hrlb
  refine ⟨hrlb, hwell.trans hwf, ?_, by rwa [hencode, h.windowEnd_eq]⟩
  rw [hencode]
  refine Eq.trans (List.map_congr_left fun j hj => h.bytes _ (by omega) ?_) hbytes
  have := List.mem_range.mp hj
  omega

/-- Both states have the same packets in the window. -/
theorem SameRlbInput.stream {p : Nat} {ps : List Instr} (hp : s.regs.pos.toNat ≤ p) (hs : s.RlbStream p ps) :
    u.RlbStream p ps := by
  induction hs with
  | nil => exact h.windowEnd_eq ▸ .nil
  | cons hi _ ih =>
    refine .cons (h.packet hp hi) ?_
    rw [(h.encode_wellFormed_eq hi.decoder).1]
    exact ih (Nat.le_add_right_of_le hp)

end SameInput

/-! ## The statements -/

/-- Settles O42: a window on which pass 1 completes is a sequence of packets, and pass 2 puts out what pass 1
measured. -/
theorem measureEqualsFill : Obligations.MeasureEqualsFill := by
  unfold Obligations.MeasureEqualsFill
  intro s t u he hm ht hue hparams hpos hplen hslen hesc horder hbytes holen hroom
  have hr : s.RlbReady := rlebm_ready he hm ht
  have hsame : SameRlbInput s u := ⟨hparams, hpos, hplen, hesc, horder, hbytes⟩
  have hru : u.RlbReady :=
    ⟨hue, by rw [hslen, hparams]; exact hr.slen, by rw [hslen, hsame.windowEnd_eq]; exact hr.window⟩
  obtain ⟨ps, hps⟩ := exists_rlbStream_of_measured hr s.regs.plen.toNat (Nat.le_add_right _ _) (Nat.le_refl _)
    (hr.rlebm_eq.symm.trans hm) ht
  have hfits : ¬ 2 ^ 32 - 1 < (streamOutput s ps).length := by
    intro hover
    rw [hps.rlebm_eq hr, if_pos hover] at hm
    exact raise_err_ne_zero hm ht
  rw [hps.rlebm_eq hr, if_neg hfits] at hm
  cases hm
  have hps' : u.RlbStream u.regs.pos.toNat ps := hpos ▸ hsame.stream (Nat.le_refl _) hps
  have hmlen : u.regs.olen = BitVec.ofNat 32 (streamOutput s ps).length := holen
  have hout : (streamOutput u ps).length ≤ u.regs.olen.toNat := by
    rw [hsame.streamOutput_eq, hmlen, BitVec.toNat_ofNat, Nat.mod_eq_of_lt (by omega)]
  obtain ⟨e, -, hexec⟩ := hps'.rlebf_completes hru (by rw [holen]; exact hroom) hout
  refine ⟨_, hexec, hue, ?_⟩
  rw [hsame.streamOutput_eq]
  rfl

/-- Settles O38: both packets are one action on their own run and length. -/
theorem rlbPacketsMeasureTheirRun : Obligations.RlbPacketsMeasureTheirRun := by
  unfold Obligations.RlbPacketsMeasureTheirRun
  intro s p l hj i n len hi
  obtain ⟨v, hpacket⟩ : ∃ v, RlbPacketOf s i v n len := by
    rcases hi with ⟨v, h⟩ | ⟨v, m, h⟩
    · exact ⟨v, .inl h⟩
    · exact ⟨v, .inr ⟨m, h⟩⟩
  rw [hpacket.exec_eq, rlbPacket_measures hj]
  refine ⟨fun hp hl => ?_, fun hp hl => ?_, fun hp => if_pos hp⟩
  · rw [if_neg (Nat.not_lt.mpr hp), if_neg (Nat.not_lt.mpr hl)]
  · rw [if_neg (Nat.not_lt.mpr hp), if_pos hl]
    rfl

/-- Settles O39: both packets are one action on their own run and length, and the fault touches `DST` below `OLEN`
only. -/
theorem rlbPacketsFillTheirRun : Obligations.RlbPacketsFillTheirRun := by
  unfold Obligations.RlbPacketsFillTheirRun
  intro s p o hj hd i v n len hi
  have hpacket : RlbPacketOf s i v n len := hi
  rw [hpacket.exec_eq, rlbPacket_fills hj hd]
  refine ⟨fun hp ho => ?_, fun hbad => ?_⟩
  · exact ⟨_, if_neg (by omega), rfl, cell_of_run rfl⟩
  · obtain ⟨t, ht, hraised⟩ := raiseStruct_raised s
    exact ⟨t, (if_pos hbad).trans ht, hraised.regs, hraised.job, hraised.src, hraised.pal, hraised.above⟩

/-- Settles O40: pass 1 goes over the packets of its window and adds up their output. -/
theorem rlebmMeasuresPacketStreams : Obligations.RlebmMeasuresPacketStreams := by
  unfold Obligations.RlebmMeasuresPacketStreams
  intro s ps he hj hs hw hps hbytes hlen
  have hr : s.RlbReady := ⟨he, hs, hw⟩
  have hstream : s.RlbStream s.regs.pos.toNat ps := .of_bytes hps hbytes (congrArg _ hlen)
  rw [hstream.rlebm_eq hr]
  refine ⟨fun hfits => ?_, fun hover => ?_⟩
  · rw [if_neg (Nat.not_lt.mpr hfits), hj]
    rfl
  · rw [if_pos hover, raise_idle hj]
    rfl

/-- Settles O41: pass 2 goes over the packets of its window and writes their output, up to the first that passes
`OLEN`. -/
theorem rlebfFillsPacketStreams : Obligations.RlebfFillsPacketStreams := by
  unfold Obligations.RlebfFillsPacketStreams
  intro s ps he hj hs hw hd hps hbytes hlen
  have hr : s.RlbReady := ⟨he, hs, hw⟩
  have hstream : s.RlbStream s.regs.pos.toNat ps := .of_bytes hps hbytes (congrArg _ hlen)
  refine ⟨fun hout => ?_, hstream.rlebf_overflows hr hd⟩
  obtain ⟨e, hemitted, hexec⟩ := hstream.rlebf_completes hr hd hout
  refine ⟨_, hexec, hemitted.holds, fun a ha => hemitted.above (by omega), ?_⟩
  rw [hj]
  rfl

end Sys2Proof.Machine

/-! PROOFS. The bit-plane unpacker (44_bitplane_unpacker.md): its checks in their order, and the range of the bytes it
puts out. -/

namespace Sys2Proof.Machine

/-! ## The prologue (44_bitplane_unpacker.md R209) -/

/-- A legal plane count leaves the checks of the stream length, the planes and the room, in this order. -/
theorem bplx_eq_of_legalPlanes {s : State} (hn : legalPlanes s.regs.np = true) :
    ∃ body, exec .bplx s = whenClear s (checkSlen s
      (if s.regs.planesShort then raise .read s else checkDst s (s.regs.width.toNat * s.regs.height.toNat) body)) :=
  ⟨_, congrArg (whenClear s) (if_pos hn)⟩

section BplxPrologue

variable {s : State} (he : s.regs.err = 0) (hj : s.job = none)
include he hj

theorem bplx_illegal_planes (hn : ¬ legalPlanes s.regs.np = true) :
    exec .bplx s = .next { s with regs := { s.regs with err := 5 } } := by
  show execBplx s = _
  unfold execBplx
  rw [whenClear_zero he, if_neg hn, raise_idle hj]
  rfl

variable (hn : legalPlanes s.regs.np = true)
include hn

theorem bplx_illegal_slen (hs : s.params.srcCap < s.regs.slen.toNat) :
    exec .bplx s = .next { s with regs := { s.regs with err := 5 } } := by
  obtain ⟨body, hexec⟩ := bplx_eq_of_legalPlanes hn
  exact hexec.trans (prologue_illegal he hj hs)

variable (hs : s.regs.slen.toNat ≤ s.params.srcCap)
include hs

theorem bplx_read (hp : s.regs.planesShort = true) :
    exec .bplx s = .next { s with regs := { s.regs with err := 1 } } := by
  obtain ⟨body, hexec⟩ := bplx_eq_of_legalPlanes hn
  rw [hexec, whenClear_zero he, checkSlen_pass hs, if_pos hp, raise_idle hj]
  rfl

theorem bplx_resource (hp : ¬ s.regs.planesShort = true)
    (hd : s.params.dstLen < s.regs.width.toNat * s.regs.height.toNat) :
    exec .bplx s = .next { s with regs := { s.regs with err := 4 } } := by
  obtain ⟨body, hexec⟩ := bplx_eq_of_legalPlanes hn
  rw [hexec, whenClear_zero he, checkSlen_pass hs, if_neg hp, checkDst_fail hd, raise_idle hj]
  rfl

end BplxPrologue

/-! ## The range of the output (44_bitplane_unpacker.md R208) -/

/-- A byte of the picture is a pixel, and a pixel has `NP` bits. -/
theorem picture_lt {s : State} {b : Byte} (hb : b ∈ s.picture) : b.toNat < 2 ^ s.regs.np := by
  obtain ⟨y, -, hrow⟩ := List.mem_flatMap.mp hb
  obtain ⟨xp, -, rfl⟩ := List.mem_map.mp hrow
  rw [BitVec.toNat_ofNat]
  exact (Nat.mod_le _ _).trans_lt (pixelAt_lt s xp y)

theorem putOut_cell_mem (s : State) {bs : List Byte} {a : Nat} (ha : a < bs.length) :
    (s.putOut bs).cell .dst a ∈ bs := by
  rw [putOut_cell, if_pos ha, List.getElem?_eq_getElem ha]
  exact List.getElem_mem ha

/-! ## The statements -/

/-- Settles O19: the checks stand one behind the other, and each one's condition is the spec's in words of naturals. -/
theorem bplxPrologueFaults : Obligations.BplxPrologueFaults := by
  unfold Obligations.BplxPrologueFaults
  intro s he hj w h np legal short
  have hlegal : legalPlanes s.regs.np = true ↔ legal := by rw [np_eq]; exact legalPlanes_iff np
  have hshort : s.regs.planesShort = true ↔ short := by rw [planesShort_iff, np_eq]; rfl
  rw [← hlegal, ← hshort]
  exact ⟨bplx_illegal_planes he hj, bplx_illegal_slen he hj,
    bplx_read he hj, bplx_resource he hj⟩

/-- Settles O44: a completed BPLX put out the picture, so each output byte is one of its pixels. -/
theorem bplxOutputsBelowPlaneLimit : Obligations.BplxOutputsBelowPlaneLimit := by
  unfold Obligations.BplxOutputsBelowPlaneLimit
  intro s t he h ht a ha
  cases (bplx_ready he h ht).exec_eq.symm.trans h
  rw [← picture_length] at ha
  exact picture_lt (putOut_cell_mem s ha)

end Sys2Proof.Machine

/-! PROOFS. The address descrambler (45_address_descrambler.md): the scrambled address as three fields side by side, and
the gather of ADRGAT with its checks in their order. -/

namespace Sys2Proof.Machine

/-! ## The three fields of the scrambled address (45_address_descrambler.md R221 to R223) -/

/-- `t` of 45_address_descrambler.md R221, before the mask. -/
def rowOffset (base columns y : Nat) : Nat := base + (y >>> 3) * columns

/-- `u` of 45_address_descrambler.md R221: bit 11 of the row offset goes to bit 14. -/
def foldOffset (t : Nat) : Nat := (t &&& 0xC7FF) ||| ((t &&& 0x800) <<< 3)

/-- Bits 15:14 of `u`, the 16 KiB page that it lies in. -/
def pageOf (t : Nat) : Nat := (t / 2 ^ 14 % 2 ^ 2) ||| (t / 2 ^ 11 % 2 ^ 1)

theorem scramble_eq_foldOffset (base columns y : Nat) :
    scramble base columns y = foldOffset (rowOffset base columns y) + ((y &&& 7) <<< 11) := rfl

theorem pageOf_lt (t : Nat) : pageOf t < 2 ^ 2 :=
  Nat.or_lt_two_pow (Nat.mod_lt _ (by decide)) ((Nat.mod_lt _ (by decide)).trans (by decide))

theorem pageOf_testBit (t j : Nat) :
    (pageOf t).testBit j = (decide (j < 2) && t.testBit (14 + j) || decide (j < 1) && t.testBit (11 + j)) := by
  rw [pageOf, Nat.testBit_or, Nat.testBit_mod_two_pow, Nat.testBit_mod_two_pow, Nat.testBit_div_two_pow,
    Nat.testBit_div_two_pow, Nat.add_comm j, Nat.add_comm j]

/-- The mask of 45_address_descrambler.md R221 keeps bits 15, 14 and 10:0. -/
theorem offsetMask_testBit (j : Nat) : (0xC7FF).testBit j = decide (j < 11 ∨ j = 14 ∨ j = 15) := by
  by_cases h : j < 16
  · decide +revert
  · rw [Nat.testBit_lt_two_pow (Nat.lt_of_lt_of_le (by decide) (Nat.pow_le_pow_right (n := 2) (by decide)
      (Nat.le_of_not_lt h)))]
    exact (decide_eq_false (by omega)).symm

theorem foldOffset_testBit (t j : Nat) : (foldOffset t).testBit j =
    (t.testBit j && decide (j < 11 ∨ j = 14 ∨ j = 15) || decide (j = 14) && t.testBit 11) := by
  have hbit : ((t &&& 0x800) <<< 3).testBit j = (decide (j = 14) && t.testBit 11) := by
    rw [Nat.shiftLeft_and_distrib, Nat.testBit_and, Nat.testBit_shiftLeft, show 0x800 <<< 3 = 2 ^ 14 from rfl,
      Nat.testBit_two_pow]
    by_cases h : j = 14
    · simp [h]
    · simp [h, Ne.symm h]
  rw [foldOffset, Nat.testBit_or, Nat.testBit_and, offsetMask_testBit, hbit]

/-- Bits 13:11 of `u` are clear: below the page stand the low 11 bits of the row offset. -/
theorem foldOffset_eq (t : Nat) : foldOffset t = 2 ^ 14 * pageOf t + t % 2 ^ 11 := by
  refine Nat.eq_of_testBit_eq fun j => ?_
  rw [foldOffset_testBit, Nat.testBit_two_pow_mul_add _ ((Nat.mod_lt _ (by decide)).trans (by decide)),
    pageOf_testBit, Nat.testBit_mod_two_pow]
  by_cases hlow : j < 14
  · simp [hlow, show ¬ j = 14 by omega, show ¬ j = 15 by omega, Bool.and_comm]
  · obtain ⟨k, rfl⟩ := Nat.exists_eq_add_of_le (Nat.le_of_not_lt hlow)
    obtain rfl | rfl | hk : k = 0 ∨ k = 1 ∨ 2 ≤ k := by omega
    · simp
    · simp
    · simp [show ¬ 14 + k < 11 by omega, show ¬ 14 + k = 15 by omega, show ¬ k = 0 by omega, show ¬ k < 2 by omega]

theorem block_eq (y : Nat) : (y &&& 7) <<< 11 = 2 ^ 11 * (y % 2 ^ 3) := by
  rw [Nat.shiftLeft_eq, Nat.mul_comm, show (7 : Nat) = 2 ^ 3 - 1 from rfl, Nat.and_two_pow_sub_one_eq_mod]

/-- The page, the 2 KiB block that the scanline number selects, and the offset in the block. -/
theorem scramble_eq_fields (base columns y : Nat) : scramble base columns y =
    2 ^ 14 * pageOf (rowOffset base columns y) + (2 ^ 11 * (y % 2 ^ 3) + rowOffset base columns y % 2 ^ 11) := by
  rw [scramble_eq_foldOffset, foldOffset_eq, block_eq]
  omega

theorem scramble_lt (base columns y : Nat) : scramble base columns y < 65536 := by
  have hpage := pageOf_lt (rowOffset base columns y)
  rw [scramble_eq_fields]
  omega

/-- The block stands in the bits that `u` has clear. -/
theorem scramble_eq_or (base columns y : Nat) :
    scramble base columns y = foldOffset (rowOffset base columns y) ||| ((y &&& 7) <<< 11) := by
  rw [scramble_eq_fields, foldOffset_eq, block_eq]
  generalize rowOffset base columns y = t
  have hlow : t % 2 ^ 11 < 2 ^ 11 := Nat.mod_lt _ (by decide)
  calc 2 ^ 14 * pageOf t + (2 ^ 11 * (y % 2 ^ 3) + t % 2 ^ 11)
    _ = 2 ^ 14 * pageOf t ||| (2 ^ 11 * (y % 2 ^ 3) + t % 2 ^ 11) := Nat.two_pow_add_eq_or_of_lt (by omega) _
    _ = 2 ^ 14 * pageOf t ||| (t % 2 ^ 11 ||| 2 ^ 11 * (y % 2 ^ 3)) := by
      rw [Nat.two_pow_add_eq_or_of_lt hlow, Nat.or_comm (t % 2 ^ 11)]
    _ = (2 ^ 14 * pageOf t + t % 2 ^ 11) ||| 2 ^ 11 * (y % 2 ^ 3) := by
      rw [Nat.two_pow_add_eq_or_of_lt (hlow.trans (by decide)), Nat.or_assoc]

theorem scramble_testBit (base columns y j : Nat) : (scramble base columns y).testBit j =
    (((rowOffset base columns y).testBit j && decide (j < 11 ∨ j = 14 ∨ j = 15) ||
        decide (j = 14) && (rowOffset base columns y).testBit 11) ||
      decide (11 ≤ j) && (decide (j - 11 < 3) && y.testBit (j - 11))) := by
  rw [scramble_eq_or, block_eq, Nat.testBit_or, foldOffset_testBit, Nat.testBit_two_pow_mul, Nat.testBit_mod_two_pow]

/-- The mask step leaves a row offset as it is only where it has nothing to clear (45_address_descrambler.md R229). -/
theorem foldOffset_eq_self_iff (t : Nat) : foldOffset t = t ↔ t < 65536 ∧ t / 2 ^ 11 % 2 ^ 3 = 0 := by
  rw [foldOffset_eq]
  constructor
  · intro h
    have hpage := pageOf_lt t
    omega
  · rintro ⟨hlt, hclear⟩
    have hpage : pageOf t = t / 2 ^ 14 := by
      rw [pageOf, show t / 2 ^ 11 % 2 ^ 1 = 0 by omega, Nat.or_zero]
      omega
    omega

/-! ## The example screen (45_address_descrambler.md R230) -/

/-- The screen lies in one page, and its 25 rows of 80 bytes fit the 2048 bytes of a block. -/
theorem scramble_example {y : Nat} (hy : y < 200) : scramble 0xC000 80 y = 0xC000 + y / 8 * 80 + y % 8 * 2048 := by
  have hrow : rowOffset 0xC000 80 y = 0xC000 + y / 8 * 80 := by
    rw [rowOffset, Nat.shiftRight_eq_div_pow]
  have hblock : (0xC000 + y / 8 * 80) / 2 ^ 11 = 24 := by omega
  rw [scramble_eq_foldOffset, hrow, (foldOffset_eq_self_iff _).mpr (by omega), block_eq]
  omega

/-! ## The prologue of ADRGAT (45_address_descrambler.md R227) -/

/-- The checks of ADRGAT stand one behind the other: the stream length, the scanlines and the room. -/
theorem adrgat_eq (s : State) : ∃ body, exec .adrgat s = whenClear s (checkSlen s
    (if s.regs.linesOutside then raise .read s else checkDst s (s.regs.height.toNat * s.regs.columns.toNat) body)) :=
  ⟨_, rfl⟩

section AdrgatPrologue

variable {s : State} (he : s.regs.err = 0) (hj : s.job = none)
include he hj

theorem adrgat_illegal (hs : s.params.srcCap < s.regs.slen.toNat) :
    exec .adrgat s = .next { s with regs := { s.regs with err := 5 } } := by
  obtain ⟨body, hexec⟩ := adrgat_eq s
  exact hexec.trans (prologue_illegal he hj hs)

variable (hs : s.regs.slen.toNat ≤ s.params.srcCap)
include hs

theorem adrgat_read (hl : s.regs.linesOutside = true) :
    exec .adrgat s = .next { s with regs := { s.regs with err := 1 } } := by
  obtain ⟨body, hexec⟩ := adrgat_eq s
  rw [hexec, whenClear_zero he, checkSlen_pass hs, if_pos hl, raise_idle hj]
  rfl

theorem adrgat_resource (hl : ¬ s.regs.linesOutside = true)
    (hd : s.params.dstLen < s.regs.height.toNat * s.regs.columns.toNat) :
    exec .adrgat s = .next { s with regs := { s.regs with err := 4 } } := by
  obtain ⟨body, hexec⟩ := adrgat_eq s
  rw [hexec, whenClear_zero he, checkSlen_pass hs, if_neg hl, checkDst_fail hd, raise_idle hj]
  rfl

end AdrgatPrologue

/-! ## The gathered bytes (45_address_descrambler.md R225, R228) -/

theorem gathered_getElem? (s : State) {y i : Nat} (hy : y < s.regs.height.toNat) (hi : i < s.regs.columns.toNat) :
    s.gathered[y * s.regs.columns.toNat + i]? = some (s.cell .src (s.regs.lineAddr y - s.regs.org.toNat + i)) :=
  rows_getElem? _ _ _ y i hy hi

/-! ## The statements -/

/-- Settles O20: the checks stand one behind the other, and the condition on the scanlines is the spec's in words of
naturals. -/
theorem adrgatPrologueFaults : Obligations.AdrgatPrologueFaults := by
  unfold Obligations.AdrgatPrologueFaults
  intro s he hj c h outside
  have hlines : s.regs.linesOutside = true ↔ outside := linesOutside_iff s.regs
  rw [← hlines]
  exact ⟨adrgat_illegal he hj, adrgat_read he hj, adrgat_resource he hj⟩

/-- Settles O45: the three steps on quotients and remainders are those on shifts and masks, and the address fits. -/
theorem adrmapComputesScrambledAddress : Obligations.AdrmapComputesScrambledAddress := by
  unfold Obligations.AdrmapComputesScrambledAddress
  refine ⟨rfl, ?_⟩
  intro s he t u a
  have ha : scramble s.regs.base.toNat s.regs.columns.toNat s.regs.y.toNat = a := by
    rw [scramble_eq_foldOffset, foldOffset, rowOffset, block_eq, Nat.shiftRight_eq_div_pow, Nat.shiftLeft_eq,
      Nat.mul_comm (2 ^ 11)]
    rfl
  rw [← ha]
  exact ⟨whenClear_zero he _, scramble_lt _ _ _⟩

/-- Settles O46: the page, the block and the offset in the block are fields side by side. -/
theorem scrambledAddressFitsSixteenBits : Obligations.ScrambledAddressFitsSixteenBits := by
  unfold Obligations.ScrambledAddressFitsSixteenBits
  exact fun base columns y => ⟨scramble_lt base columns y, scramble_eq_or base columns y⟩

/-- Settles O47: a bit of the address is one of `u` or of the scanline number, a bit of `u` one of the row offset. -/
theorem scrambledAddressBitFields : Obligations.ScrambledAddressBitFields := by
  unfold Obligations.ScrambledAddressBitFields
  intro base columns y t a
  have hbit : ∀ j, a.testBit j = _ := scramble_testBit base columns y
  rw [show rowOffset base columns y = t from rfl] at hbit
  refine ⟨by simp [hbit], by simp [hbit], fun j hj => ?_, fun j hj => ?_⟩
  · simp [hbit, show ¬ 11 + j = 14 by omega, show ¬ 11 + j = 15 by omega, hj]
  · simp [hbit, hj, show ¬ j = 14 by omega, show ¬ 11 ≤ j by omega]

/-- Settles O48: both sums add the same block, so they agree only where the mask step changes nothing. -/
theorem unmaskedFormulaIsNotTheScramble : Obligations.UnmaskedFormulaIsNotTheScramble := by
  unfold Obligations.UnmaskedFormulaIsNotTheScramble
  intro base columns y t
  refine ⟨rfl, fun hbits hsame => ?_⟩
  have hfold : foldOffset t = t := by
    rw [scramble_eq_foldOffset, Nat.shiftLeft_eq] at hsame
    exact Nat.add_right_cancel hsame
  obtain ⟨hlt, hclear⟩ := (foldOffset_eq_self_iff t).mp hfold
  simp only [Nat.testBit_eq_decide_div_mod_eq, decide_eq_true_eq] at hbits
  omega

/-- Settles O49: the row, the block and the column are read back from the address. -/
theorem exampleScreenIsScatteredInjectively : Obligations.ExampleScreenIsScatteredInjectively := by
  unfold Obligations.ExampleScreenIsScatteredInjectively
  refine ⟨fun y i hy hi => ?_, fun y i y' i' hy hi hy' hi' hsame => ?_⟩
  · rw [scramble_example hy]
    omega
  · rw [scramble_example hy, scramble_example hy'] at hsame
    have hfits : y / 8 * 80 + i < 2048 := by omega
    have hfits' : y' / 8 * 80 + i' < 2048 := by omega
    have hblock : y % 8 = y' % 8 := by omega
    have hrow : y / 8 = y' / 8 := by omega
    omega

/-- Settles O50: past its checks ADRGAT puts out the scanlines, row after row, each from its address on. -/
theorem adrgatGathersScanlines : Obligations.AdrgatGathersScanlines := by
  unfold Obligations.AdrgatGathersScanlines
  intro s he hs c h a hlines hroom
  have hready : s.AdrgatReady := by
    refine ⟨he, hs, fun hout => ?_, hroom⟩
    obtain ⟨hc, y, hy, hbad⟩ := (linesOutside_iff s.regs).mp hout
    obtain ⟨horg, hfits⟩ := hlines hc y hy
    exact hbad.elim (Nat.not_lt.mpr horg) (Nat.not_lt.mpr hfits)
  refine ⟨s.putOut s.gathered, hready.exec_eq, ?_, fun y i hy hi => ?_, fun b hb => ?_⟩
  · rw [State.putOut, gathered_length]
  · have hin : y * c + i < s.gathered.length := (List.getElem?_eq_some_iff.mp (gathered_getElem? s hy hi)).1
    have horg : s.regs.org.toNat ≤ a y := (hlines (Nat.zero_lt_of_lt hi) y hy).1
    rw [putOut_cell, if_pos hin, gathered_getElem? s hy hi, Option.getD_some, Nat.sub_add_comm horg]
    rfl
  · rw [putOut_cell, if_neg (by rw [gathered_length]; exact Nat.not_lt.mpr hb)]

end Sys2Proof.Machine

/-! PROOFS. The system commands and the register accesses of the host (46_system.md): the registers as a list, in which a
host write sets one entry, and the three commands that run whatever `ERR` holds. -/

namespace Sys2Proof.Machine

/-! ## The registers in the order of their numbers (10_state.md R22) -/

/-- What a host read of the numbers 0x00 to 0x1F returns; 0x00 is `CMD`. -/
def Regs.inOrder (r : Regs) : List Word :=
  [0, r.err.setWidth 32, r.pos, r.slen, r.val, r.plen, r.olen, r.mlen, r.ocnt,
   r.key1.setWidth 32, r.key2.setWidth 32, r.esc.setWidth 32, r.rlectl.setWidth 32, r.bplctl.setWidth 32,
   r.width.setWidth 32, r.height.setWidth 32, r.linebits,
   r.plb[0], r.plb[1], r.plb[2], r.plb[3], r.plb[4], r.plb[5], r.plb[6], r.plb[7],
   r.base.setWidth 32, r.columns.setWidth 32, r.y.setWidth 32, r.org.setWidth 32, r.addr.setWidth 32,
   r.pstart.setWidth 32, r.pcnt.setWidth 32]

theorem readReg_eq_inOrder (r : Regs) (n : BitVec 8) : readReg r n = r.inOrder[n.toNat]?.getD 0 := by
  rcases Nat.lt_or_ge n.toNat 32 with hn | hn
  · unfold readReg
    generalize n.toNat = k at hn ⊢
    interval_cases k <;> rfl
  · rw [readReg_reserved r n hn, List.getElem?_eq_none hn, Option.getD_none]

/-! ## Access and width by number (10_state.md R22, R23) -/

/-- The numbers `writeReg` has an arm for are those the host may write. -/
theorem readWrite_iff_mem (n : BitVec 8) : regAccess n = .readWrite ↔
    n.toNat ∈ [0x02, 0x03, 0x05, 0x06, 0x09, 0x0A, 0x0B, 0x0C, 0x0D, 0x0E, 0x0F, 0x10, 0x11, 0x12, 0x13, 0x14, 0x15,
      0x16, 0x17, 0x18, 0x19, 0x1A, 0x1B, 0x1C, 0x1E, 0x1F] := by
  revert n; decide

theorem toNat_eq_zero_of_writeOnly {n : BitVec 8} (h : regAccess n = .writeOnly) : n.toNat = 0 := by
  revert n; decide

theorem reserved_le {n : BitVec 8} (h : regAccess n = .reserved) : 32 ≤ n.toNat := by
  revert n; decide

theorem regWidth_le (n : BitVec 8) : regWidth n ≤ 32 := by
  unfold regWidth
  split <;> decide

/-- `CMD` and the reserved numbers read as 0. -/
theorem readReg_eq_zero (r : Regs) {n : BitVec 8} (h : regAccess n = .writeOnly ∨ regAccess n = .reserved) :
    readReg r n = 0 := by
  rcases h with h | h
  · rw [readReg_eq_inOrder, toNat_eq_zero_of_writeOnly h]
    rfl
  · exact readReg_reserved r n (reserved_le h)

/-- No register reads wider than it is. -/
theorem readReg_lt (r : Regs) (n : BitVec 8) : (readReg r n).toNat < 2 ^ regWidth n := by
  rcases Nat.lt_or_ge n.toNat 32 with hn | hn
  · rw [readReg_eq_inOrder]
    unfold regWidth
    generalize n.toNat = k at hn ⊢
    interval_cases k
    all_goals simp [Regs.inOrder] <;> omega
  · rw [readReg_reserved r n hn]
    exact Nat.two_pow_pos _

/-! ## Host writes (46_system.md R243) -/

theorem writeReg_of_not_readWrite (r : Regs) {n : BitVec 8} (v : Nat) (h : regAccess n ≠ .readWrite) :
    writeReg r n v = r := by
  rw [ne_eq, readWrite_iff_mem] at h
  unfold writeReg
  split
  case h_27 => rfl
  all_goals simp [*] at h

/-- A write stores the low `width` bits in the register's own entry. -/
theorem inOrder_writeReg (r : Regs) {n : BitVec 8} (v : Nat) (h : regAccess n = .readWrite) :
    (writeReg r n v).inOrder = r.inOrder.set n.toNat (BitVec.ofNat 32 (v % 2 ^ regWidth n)) := by
  rw [readWrite_iff_mem] at h
  unfold writeReg regWidth
  generalize n.toNat = k at h ⊢
  fin_cases h <;> simp [Regs.inOrder, ← BitVec.toNat_inj]

theorem readReg_writeReg_same (r : Regs) {n : BitVec 8} (v : Nat) (h : regAccess n = .readWrite) :
    readReg (writeReg r n v) n = BitVec.ofNat 32 (v % 2 ^ regWidth n) := by
  rw [readReg_eq_inOrder, inOrder_writeReg r v h, List.getElem?_set_self (readWrite_lt n h), Option.getD_some]

theorem readReg_writeReg_other (r : Regs) {n m : BitVec 8} (v : Nat) (h : regAccess n = .readWrite) (hm : m ≠ n) :
    readReg (writeReg r n v) m = readReg r m := by
  have hplace : n.toNat ≠ m.toNat := fun he => hm (BitVec.eq_of_toNat_eq he.symm)
  rw [readReg_eq_inOrder, inOrder_writeReg r v h, List.getElem?_set_ne hplace, readReg_eq_inOrder]

/-- A write to a number other than `CMD`'s stores and does nothing else. -/
theorem hostAccess_writeReg {run : Instr → State → Result} {s : State} {n : BitVec 8} {v : Nat} (hn : n ≠ 0x00) :
    hostAccess run (.writeReg n v) s = .next { s with regs := writeReg s.regs n v } := if_neg hn

/-! ## The obligations -/

/-- Settles O9: in the list of the registers a write sets one entry, and `ERR` is looked at by the issue only. -/
theorem registerWritesKeepLowBits : Obligations.RegisterWritesKeepLowBits := by
  unfold Obligations.RegisterWritesKeepLowBits
  refine ⟨fun r n m v hn => ?_, fun r n v => writeReg_of_not_readWrite r v, fun r n => readReg_eq_zero r, readReg_lt,
    fun s n v rest hj hinbox hn => (step_of_inbox_cons hj hinbox).trans (hostAccess_writeReg hn)⟩
  split
  case isTrue hm =>
    have hlow : v % 2 ^ regWidth n < 2 ^ 32 :=
      (Nat.mod_lt v (Nat.two_pow_pos _)).trans_le (Nat.pow_le_pow_right Nat.two_pos (regWidth_le n))
    rw [hm, readReg_writeReg_same r v hn, BitVec.toNat_ofNat, Nat.mod_eq_of_lt hlow]
  case isFalse hm => rw [readReg_writeReg_other r v hn hm]

/-- Settles O11: the row of code 0x00, and the meaning of NOP. -/
theorem nopChangesNothing : Obligations.NopChangesNothing := by
  unfold Obligations.NopChangesNothing
  exact ⟨rfl, fun _ => rfl⟩

/-- Settles O12: the registers after RESET are those after power-on, and no memory is touched. -/
theorem resetZeroesRegistersKeepsMemories : Obligations.ResetZeroesRegistersKeepsMemories := by
  unfold Obligations.ResetZeroesRegistersKeepsMemories
  refine ⟨rfl, fun s => ⟨{ s with regs := Regs.zero }, rfl, powerOnRegistersReadZero.1, rfl, fun sp a => ?_⟩⟩
  cases sp <;> rfl

/-- Settles O13: the row of code 0x02, and CLRERR is the return from a fault. -/
theorem clrerrReturnsFromFault : Obligations.ClrerrReturnsFromFault := by
  unfold Obligations.ClrerrReturnsFromFault
  exact ⟨rfl, fun _ => rfl⟩

end Sys2Proof.Machine

/-! PROOFS. Faults and termination (60_exceptions.md, 70_reset_and_hazards.md): what a fault leaves of the state it was
raised in, which commands the short-circuit skips, and that every command ends with no command running. -/

namespace Sys2Proof.Machine

/-! ## Termination (70_reset_and_hazards.md R292) -/

/-- No command leaves a run-length command running. -/
theorem Leaves.job_eq_none {i : Instr} {s t : State} (h : Leaves i s t) (hj : s.job = none) : t.job = none := by
  cases h with
  | done hd =>
    cases hd with
    | output hout =>
      rcases hout with rfl | rfl
      · exact hj
      · rfl
    | measure => rfl
    | nop | reset | clrerr | integer | scale | address => exact hj
  | skipped => exact hj
  | raised | smeared => rfl

/-! ## Faults (60_exceptions.md R256) -/

/-- The two ways a command ends with `ERR` set: it raised a fault before its first write, or `STRUCT` with `DST` written
below `OLEN`. -/
inductive Faulted (i : Instr) (s : State) : State → Prop where
  | raised {k : ErrKind} (hk : CanRaise i k) :
      Faulted i s { s with regs := { s.regs with err := k.code }, job := none }
  | smeared {d : Memory} {n : Nat} (hi : i = .rlea ∨ i = .rlebf) (hd : WrittenBelow s d s.regs.olen.toNat) :
      Faulted i s { s with regs := { s.regs with err := 2 }, dst := d, draws := n, job := none }

theorem Leaves.faulted {i : Instr} {s t : State} (h : Leaves i s t) (he : s.regs.err = 0) (ht : t.regs.err ≠ 0) :
    Faulted i s t := by
  cases h with
  | skipped hs => exact absurd he hs
  | done hd => exact absurd (hd.err_eq_zero he) ht
  | raised hk => exact .raised hk
  | smeared hi hd => exact .smeared hi hd

/-! ## The short-circuit (60_exceptions.md R257) -/

/-- The commands that run whatever `ERR` holds have the codes 0x00, 0x01 and 0x02. -/
theorem commandTable_runsAlways : ∀ row ∈ commandTable, row.2.runsAlways = true → row.1.toNat < 3 := by decide

theorem runsAlways_eq_false_of_decodeCommand {c : Byte} {i : Instr} (h : decodeCommand c = .ok i)
    (hc : 3 ≤ c.toNat) : i.runsAlways = false := by
  rw [Bool.eq_false_iff]
  intro hr
  exact Nat.not_lt.mpr hc (commandTable_runsAlways _ (mem_commandTable_of_decodeCommand h) hr)

/-- While `ERR` is not 0 the issue of any other code, reserved or not, does nothing. -/
theorem issue_skipped {c : Byte} {s : State} (he : s.regs.err ≠ 0) (hc : 3 ≤ c.toNat) :
    issue exec c s = .next s := by
  cases hdec : decodeCommand c with
  | ok i =>
    rw [issue_command hdec]
    exact exec_skipped (decoder_of_decodeCommand hdec) (runsAlways_eq_false_of_decodeCommand hdec hc) he
  | error e =>
    simp only [issue, hdec]
    exact whenClear_set he _

/-! ## The obligations -/

/-- Settles O54: no command stops the model, and none leaves a job (the decode loop ends by `streamLoop_ends`). -/
theorem everyCommandCompletes : Obligations.EveryCommandCompletes := by
  unfold Obligations.EveryCommandCompletes
  intro i s hi hj
  obtain ⟨t, ht⟩ := command_next hi s
  exact ⟨t, ht, (command_leaves hi ht).job_eq_none hj⟩

/-- Settles O14: the meanings test `ERR`, and no code but 0x00 to 0x02 decodes to a command that does not. -/
theorem shortCircuitSkipsCommands : Obligations.ShortCircuitSkipsCommands := by
  unfold Obligations.ShortCircuitSkipsCommands
  refine ⟨fun i s hi hr he => exec_skipped hi hr he, fun s v _ he h0 h1 h2 => ?_⟩
  have hcode : 3 ≤ (BitVec.ofNat 8 v).toNat := by
    rw [BitVec.toNat_ofNat]
    omega
  exact hostAccess_writeCmd.trans (issue_skipped he hcode)

/-- Settles O15: a fault before the first write changes `ERR` alone, one in mid-stream `DST` below `OLEN` besides. -/
theorem faultKeepsTheRest : Obligations.FaultKeepsTheRest := by
  unfold Obligations.FaultKeepsTheRest
  intro i s t hi he h ht
  cases (command_leaves hi h).faulted he ht with
  | raised hk =>
    exact ⟨rfl, rfl, rfl, rfl, fun _ => rfl, fun _ => rfl, fun _ _ => rfl, fun _ _ => rfl⟩
  | smeared hs hd =>
    exact ⟨rfl, rfl, rfl, rfl, fun _ => rfl, fun _ => rfl, hd.above, fun hn => absurd ⟨rfl, hs⟩ hn⟩

/-- Settles O16: `CanRaise` is the table of the faults before the first write; in mid-stream only `STRUCT` is raised. -/
theorem faultKindsOfEachCommand : Obligations.FaultKindsOfEachCommand := by
  unfold Obligations.FaultKindsOfEachCommand
  intro i s t hi he h
  by_cases ht : t.regs.err = 0
  · exact Or.inl ht
  right
  cases (command_leaves hi h).faulted he ht with
  | raised hk =>
    rcases hk with ⟨rfl, hk⟩ | ⟨rfl, hk⟩ | ⟨rfl, hk⟩ | ⟨rfl, hk⟩
    · exact Or.inr (Or.inr (Or.inr ⟨rfl, hk⟩))
    · exact Or.inl ⟨rfl, hk⟩
    · exact Or.inr (Or.inr (Or.inl ⟨rfl, hk⟩))
    · exact Or.inr (Or.inl ⟨rfl, by tauto⟩)
  | smeared hs hd => exact Or.inr (Or.inl ⟨rfl, by tauto⟩)

end Sys2Proof.Machine
